-- ==== Sys2Proof/Word.lean ====
section
/-! DEFINITION. The word types of the block: the widths rule R10 of spec/00_scope.md and rule R80 of
spec/30_encoding.md name. Nothing else stands here. -/

namespace Sys2Proof

/-- A `u8` (R10): a framebuffer byte, a link byte, a colour component. -/
abbrev Byte := BitVec 8

/-- A `u16` (R10). -/
abbrev U16 := BitVec 16

/-- A `u32` (R10). -/
abbrev U32 := BitVec 32

/-- A host frame, 72 bits (R80). -/
abbrev Frame := BitVec 72

end Sys2Proof
end

