-- ==== Sys2Proof/Config.lean ====
section
/-! DEFINITION. What an instance fixes: the parameter record `P` of rule R8 of spec/00_scope.md with the
opcodes of R101 and the calibration bytes of R102 of spec/30_encoding.md, the construction checks of R9, R101
and I1, and the free values (opaque constants) the environment and the OPEN parameters are drawn from. -/

namespace Sys2Proof

/-- The sixteen panel opcodes that are profile parameters (R100, R101). The other five are the source's
own values and stand as constants in `Opcodes.all` and in Decode.lean. -/
structure Opcodes where
  swReset : Byte
  driverOutput : Byte
  booster : Byte
  vcom : Byte
  dummyLine : Byte
  gateTime : Byte
  dataEntry : Byte
  ramOption : Byte
  pingpong : Byte
  duc2 : Byte
  border : Byte
  ramXWindow : Byte
  ramYWindow : Byte
  ramXCounter : Byte
  ramYCounter : Byte
  deepSleep : Byte
  deriving DecidableEq, Repr

/-- All 21 panel opcodes in the order of the table of R101: the five `src` rows first. -/
def Opcodes.all (o : Opcodes) : List Byte :=
  [0x32, 0x24, 0x26, 0x20, 0xFF,
   o.swReset, o.driverOutput, o.booster, o.vcom, o.dummyLine, o.gateTime, o.dataEntry, o.ramOption,
   o.pingpong, o.duc2, o.border, o.ramXWindow, o.ramYWindow, o.ramXCounter, o.ramYCounter, o.deepSleep]

/-- R101, I1: the 21 opcodes are pairwise distinct. -/
def Opcodes.distinct (o : Opcodes) : Bool := decide o.all.Nodup

/-- The calibration parameters `CAL_*` of R102: "opaque calibration constants". -/
structure Calibration where
  /-- `CAL_DOC_MODE` -/
  docMode : Byte
  /-- `CAL_BOOSTER[0..2]` -/
  booster : Vector Byte 3
  /-- `CAL_VCOM_INIT` -/
  vcomInit : Byte
  /-- `CAL_DUMMY_LINE` -/
  dummyLine : Byte
  /-- `CAL_GATE_TIME` -/
  gateTime : Byte
  /-- `CAL_DATA_ENTRY` -/
  dataEntry : Byte
  /-- `CAL_RAM_OPTION[0..1]` -/
  ramOption : Vector Byte 2
  /-- `CAL_VCOM_FULL` -/
  vcomFull : Byte
  /-- `CAL_VCOM_PARTIAL` -/
  vcomPartial : Byte
  /-- `CAL_PINGPONG[0..6]` -/
  pingpong : Vector Byte 7
  /-- `CAL_DUC2_PARTIAL_FLAG` -/
  duc2PartialFlag : Byte
  /-- `CAL_BORDER_FULL` -/
  borderFull : Byte
  /-- `CAL_BORDER_PARTIAL` -/
  borderPartial : Byte
  /-- `CAL_DUC2_FULL` -/
  duc2Full : Byte
  /-- `CAL_DUC2_PARTIAL` -/
  duc2Partial : Byte
  /-- `CAL_SLEEP_DATA`, a byte list of any length -/
  sleepData : List Byte
  deriving DecidableEq, Repr, Inhabited

/-- A parameter record as R8 lists it, before construction checks it. `LUT_SIZE` is the constant 70; `L`,
`HALF` and `ROWB` are derived (Machine/Operands.lean). -/
structure ParamRecord where
  /-- `VW`, `visible_width` in pixels -/
  vw : U16
  /-- `CW`, `controller_width` in pixels: the row stride -/
  cw : U16
  /-- `H`, rows -/
  h : U32
  /-- `N`, `full_update_every` -/
  n : U32
  /-- `HAS_RST` -/
  hasRst : Bool
  /-- `HAS_BUSY` -/
  hasBusy : Bool
  /-- `BUSY_ACTIVE_LEVEL` -/
  busyActiveLevel : Bool
  /-- `IDLE_TIMEOUT_MS` -/
  idleTimeoutMs : U32
  /-- `POLL_MS` -/
  pollMs : U32
  /-- `LONG_WAIT_MS` -/
  longWaitMs : U32
  /-- `T_RST_LOW_MS` -/
  tRstLowMs : U32
  /-- `T_RST_HIGH_MS` -/
  tRstHighMs : U32
  /-- `LUT_FULL` -/
  lutFull : List Byte
  /-- `LUT_PARTIAL` -/
  lutPartial : List Byte
  /-- `OPC_*` (R101) -/
  opc : Opcodes
  /-- `CAL_*` (R102) -/
  cal : Calibration
  deriving DecidableEq, Repr

/-- R9: the geometry checks, `CW mod 8 = 0`, `8 <= CW <= 2048`, `1 <= VW <= CW`, `1 <= H <= 65536`. -/
def ParamRecord.geometryOk (r : ParamRecord) : Bool :=
  decide (r.cw.toNat % 8 = 0) && decide (8 ≤ r.cw.toNat) && decide (r.cw.toNat ≤ 2048)
    && decide (1 ≤ r.vw.toNat) && decide (r.vw.toNat ≤ r.cw.toNat)
    && decide (1 ≤ r.h.toNat) && decide (r.h.toNat ≤ 65536)

/-- R9: both waveform tables are exactly 70 bytes. -/
def ParamRecord.lutOk (r : ParamRecord) : Bool :=
  decide (r.lutFull.length = 70) && decide (r.lutPartial.length = 70)

/-- R9: `POLL_MS >= 1` and `IDLE_TIMEOUT_MS + POLL_MS < 2^31`. -/
def ParamRecord.timingOk (r : ParamRecord) : Bool :=
  decide (1 ≤ r.pollMs.toNat) && decide (r.idleTimeoutMs.toNat + r.pollMs.toNat < 2 ^ 31)

/-- R9 and R101 (I1): what construction requires of a record. -/
def ParamRecord.check (r : ParamRecord) : Bool :=
  r.geometryOk && r.lutOk && r.timingOk && r.opc.distinct

/-- The parameters of an instance: a record that passed construction. "No instance exists" of any other
(R9, R254), so the check is carried with the data. -/
structure Params extends ParamRecord where
  ok : toParamRecord.check = true
  deriving DecidableEq, Repr

/-- The opcode defaults the spec's R101 gives (its `gk` rows, G1). PRESUMED: the spec takes them from the
SSD16xx family, not from the source (log entry 2). Unsafe as a claim about a real panel. -/
def Config.opcodes : Opcodes where
  swReset := 0x12
  driverOutput := 0x01
  booster := 0x0C
  vcom := 0x2C
  dummyLine := 0x3A
  gateTime := 0x3B
  dataEntry := 0x11
  ramOption := 0x21
  pingpong := 0x37
  duc2 := 0x22
  border := 0x3C
  ramXWindow := 0x44
  ramYWindow := 0x45
  ramXCounter := 0x4E
  ramYCounter := 0x4F
  deepSleep := 0x10

/-- OPEN (R102): the calibration bytes of the instance `State.reset` is built from (log entry 1). -/
opaque Config.calibration : Calibration

/-- OPEN (R8, D22): `LUT_FULL` of that instance. -/
opaque Config.lutFull : Vector Byte 70

/-- OPEN (R8, D22): `LUT_PARTIAL` of that instance. -/
opaque Config.lutPartial : Vector Byte 70

/-- OPEN (R8): `full_update_every` of that instance. -/
opaque Config.fullUpdateEvery : U32

/-- OPEN (R8): whether that instance has a reset line. -/
opaque Config.hasRst : Bool

/-- OPEN (R8): whether that instance has a busy line. -/
opaque Config.hasBusy : Bool

/-- OPEN (R8, D11): `BUSY_ACTIVE_LEVEL` of that instance. The spec's general-knowledge default 1 is not
used: "models must set it from the panel". -/
opaque Config.busyActiveLevel : Bool

/-- OPEN (R8, D15): `IDLE_TIMEOUT_MS` of that instance, within the bound `2^31 - 1000` that R9 puts on it
beside `POLL_MS = 1000`. -/
opaque Config.idleTimeoutMs : Fin 2147482648

/-- OPEN (R8, D17): `T_RST_LOW_MS` of that instance. -/
opaque Config.tRstLowMs : U32

/-- OPEN (R8, D17): `T_RST_HIGH_MS` of that instance. -/
opaque Config.tRstHighMs : U32

/-- FREE VALUE (I7): the level of BUSY at the `k`-th draw the state's own list does not supply (log entry 9). -/
opaque Config.freeBusy : Nat → Bool

/-- FREE VALUE (I8): the time-base value at the `k`-th draw the state's own list does not supply (log entry 10). -/
opaque Config.freeTime : Nat → U32

/-- The parameter record of the instance `State.reset` is: the reference panel's geometry (R8: `VW = 122`,
`CW = 128`, `H = 250`), the defaults the spec gives (`POLL_MS = 1000`, `LONG_WAIT_MS = IDLE_TIMEOUT_MS`, the
opcodes, `CAL_SLEEP_DATA = [0x01]`), and the opaque constants above for every OPEN parameter (log entry 1). -/
def Config.record : ParamRecord where
  vw := 122
  cw := 128
  h := 250
  n := Config.fullUpdateEvery
  hasRst := Config.hasRst
  hasBusy := Config.hasBusy
  busyActiveLevel := Config.busyActiveLevel
  idleTimeoutMs := BitVec.ofNat 32 Config.idleTimeoutMs.val
  pollMs := 1000
  longWaitMs := BitVec.ofNat 32 Config.idleTimeoutMs.val
  tRstLowMs := Config.tRstLowMs
  tRstHighMs := Config.tRstHighMs
  lutFull := Config.lutFull.toList
  lutPartial := Config.lutPartial.toList
  opc := Config.opcodes
  cal := { Config.calibration with sleepData := [0x01] }

/-- `Config.record` passes construction, whatever the opaque constants are. -/
theorem Config.record_check : Config.record.check = true := by
  have ht := Config.idleTimeoutMs.isLt
  have h1 : Config.record.geometryOk = true := by decide
  have h2 : Config.record.lutOk = true := by simp [ParamRecord.lutOk, Config.record]
  have h3 : Config.record.timingOk = true := by
    have hi : Config.record.idleTimeoutMs.toNat = Config.idleTimeoutMs.val % 2 ^ 32 := BitVec.toNat_ofNat ..
    have hp : Config.record.pollMs.toNat = 1000 := rfl
    simp only [ParamRecord.timingOk, hi, hp, Bool.and_eq_true, decide_eq_true_eq]
    omega
  have h4 : Config.record.opc.distinct = true := by decide
  simp [ParamRecord.check, h1, h2, h3, h4]

/-- The parameters of the instance `State.reset` is (log entry 1). -/
def Config.params : Params := { toParamRecord := Config.record, ok := Config.record_check }

end Sys2Proof
end

