-- ==== Sys2Proof/Syntax.lean ====
section
/-! DEFINITION. The instructions: the 28 rows of spec/opcode_table.json, the seven host operations of R81 and
the 21 panel commands of R101, and the pseudo-operations of R107 (spec/30_encoding.md). -/

namespace Sys2Proof

/-- A colour (R83): four components in [0,255]. -/
structure Colour where
  red : Byte
  green : Byte
  blue : Byte
  white : Byte
  deriving DecidableEq, Repr

/-- The host operation a frame selects (R81), the `op` of `RUNNING(op, step)` (R27). -/
inductive HostOp where
  | setup
  | fill
  | setPixel
  | getPixel
  | display
  | setDsbu
  | readReg
  deriving DecidableEq, Repr

/-- One constructor per row of spec/opcode_table.json. A host operation carries the fields R81 says it reads.
A panel command carries none: its row fixes the opcode byte alone, and its payload is what R103 gives "in the
position where the block sends it", which the machine reads from its state (log entry 16). -/
inductive Instr where
  /-- SETUP, R224 -/
  | setup
  /-- FILL, R122 -/
  | fill (c : Colour)
  /-- SET_PIXEL, R123; the coordinates are the signed numbers of R82 -/
  | setPixel (x y : Int) (c : Colour)
  /-- GET_PIXEL, R124 -/
  | getPixel (x y : Int)
  /-- DISPLAY, R226 -/
  | display
  /-- SET_DSBU, R227 -/
  | setDsbu (b : Bool)
  /-- READ_REG, R228 -/
  | readReg (n : U32)
  /-- SW_RESET, R178 -/
  | swReset
  /-- DRIVER_OUTPUT, R179 -/
  | driverOutput
  /-- BOOSTER, R180 -/
  | booster
  /-- VCOM, R181 -/
  | vcom
  /-- DUMMY_LINE, R182 -/
  | dummyLine
  /-- GATE_TIME, R183 -/
  | gateTime
  /-- DATA_ENTRY, R191 -/
  | dataEntry
  /-- RAM_OPTION, R192 -/
  | ramOption
  /-- LUT, R188 -/
  | lut
  /-- PINGPONG, R193 -/
  | pingpong
  /-- DUC2, R194 -/
  | duc2
  /-- MASTER_ACT, R186 -/
  | masterAct
  /-- BORDER, R195 -/
  | border
  /-- RAM_X_WINDOW, R196 -/
  | ramXWindow
  /-- RAM_Y_WINDOW, R197 -/
  | ramYWindow
  /-- RAM_X_COUNTER, R198 -/
  | ramXCounter
  /-- RAM_Y_COUNTER, R199 -/
  | ramYCounter
  /-- WRITE_BW, R184 -/
  | writeBw
  /-- WRITE_RED, R185 -/
  | writeRed
  /-- TERMINATE, R187 -/
  | terminate
  /-- DEEP_SLEEP, R189 -/
  | deepSleep
  deriving DecidableEq, Repr

/-- R107: `CLEAR` expands to `FILL #00000000`. -/
def pseudoClear : List Instr := [.fill ⟨0x00, 0x00, 0x00, 0x00⟩]

/-- R107: `BLACKOUT` expands to `FILL #FFFFFFFF`. -/
def pseudoBlackout : List Instr := [.fill ⟨0xFF, 0xFF, 0xFF, 0xFF⟩]

/-- R107: `UPDATE` expands to the host's repaint followed by DISPLAY. -/
def pseudoUpdate (repaint : List Instr) : List Instr := repaint ++ [.display]

end Sys2Proof
end

