-- ==== Sys2Proof/WellFormed.lean ====
section
/-! DEFINITION. Which instruction terms a host frame or an opcode byte can carry: the ranges of R82 of
spec/30_encoding.md. Every other field has the width of its encoding in its type. -/

namespace Sys2Proof

/-- R82: a coordinate is a signed 16-bit number, `-32768 .. 32767`. -/
def coordOk (v : Int) : Bool := decide (-32768 ≤ v) && decide (v ≤ 32767)

/-- A well-formed instruction: its coordinates, where it has any, are in the range of R82. -/
def Instr.wf : Instr → Bool
  | .setPixel x y _ => coordOk x && coordOk y
  | .getPixel x y => coordOk x && coordOk y
  | .setup => true
  | .fill _ => true
  | .display => true
  | .setDsbu _ => true
  | .readReg _ => true
  | .swReset => true
  | .driverOutput => true
  | .booster => true
  | .vcom => true
  | .dummyLine => true
  | .gateTime => true
  | .dataEntry => true
  | .ramOption => true
  | .lut => true
  | .pingpong => true
  | .duc2 => true
  | .masterAct => true
  | .border => true
  | .ramXWindow => true
  | .ramYWindow => true
  | .ramXCounter => true
  | .ramYCounter => true
  | .writeBw => true
  | .writeRed => true
  | .terminate => true
  | .deepSleep => true

end Sys2Proof
end

