-- ==== Sys2Proof/Decode.lean ====
section
/-! DEFINITION. Decoding and encoding of the two encoded interfaces of spec/30_encoding.md: the 72-bit host frame
(R80–R85) and the panel opcode byte (R101), both total and rejecting by name; the encoder from the same tables; the
assembler syntax of R106; and `decodeTableWord`, which reads a word numbered as spec/opcode_table.json numbers it. -/

namespace Sys2Proof

/-- Why an encoding is no instruction. -/
inductive DecodeError where
  /-- R85: `OP = 0x00` or `OP = 0x08 .. 0xFF`. -/
  | illegalSelector (op : Byte)
  /-- R105: a byte that is none of the 21 panel opcodes. -/
  | unknownOpcode (b : Byte)
  deriving DecidableEq, Repr

/-- R80: `OP = F[71:64]`. -/
def frameOp (f : Frame) : Byte := f.extractLsb' 64 8

/-- R80: `A = F[63:32]`. -/
def frameA (f : Frame) : U32 := f.extractLsb' 32 32

/-- R80: `B = F[31:0]`. -/
def frameB (f : Frame) : U32 := f.extractLsb' 0 32

/-- R82: `x = sext_32(A[15:0])`. -/
def coordX (a : U32) : Int := (a.extractLsb' 0 16).toInt

/-- R82: `y = sext_32(A[31:16])`. -/
def coordY (a : U32) : Int := (a.extractLsb' 16 16).toInt

/-- R83: `red = B[31:24]`, `green = B[23:16]`, `blue = B[15:8]`, `white = B[7:0]`. -/
def colourOf (b : U32) : Colour where
  red := b.extractLsb' 24 8
  green := b.extractLsb' 16 8
  blue := b.extractLsb' 8 8
  white := b.extractLsb' 0 8

/-- R81, R84, R85: the operation a host frame selects, with the fields it reads. Fields it does not read are
ignored (R80). -/
def decodeFrame (f : Frame) : Except DecodeError Instr :=
  match (frameOp f).toNat with
  | 1 => .ok .setup
  | 2 => .ok (.fill (colourOf (frameB f)))
  | 3 => .ok (.setPixel (coordX (frameA f)) (coordY (frameA f)) (colourOf (frameB f)))
  | 4 => .ok (.getPixel (coordX (frameA f)) (coordY (frameA f)))
  | 5 => .ok .display
  | 6 => .ok (.setDsbu ((frameB f).getLsbD 0))
  | 7 => .ok (.readReg (frameA f))
  | _ => .error (.illegalSelector (frameOp f))

/-- R81: the host operation an instruction is; none for a panel command, which no frame selects. -/
def hostOpOf : Instr → Option HostOp
  | .setup => some .setup
  | .fill _ => some .fill
  | .setPixel _ _ _ => some .setPixel
  | .getPixel _ _ => some .getPixel
  | .display => some .display
  | .setDsbu _ => some .setDsbu
  | .readReg _ => some .readReg
  | _ => none

/-- R101: the opcode byte of a panel command (the five `src` rows by value), none for a host operation. -/
def opcodeOf (o : Opcodes) : Instr → Option Byte
  | .setup => none
  | .fill _ => none
  | .setPixel _ _ _ => none
  | .getPixel _ _ => none
  | .display => none
  | .setDsbu _ => none
  | .readReg _ => none
  | .swReset => some o.swReset
  | .driverOutput => some o.driverOutput
  | .booster => some o.booster
  | .vcom => some o.vcom
  | .dummyLine => some o.dummyLine
  | .gateTime => some o.gateTime
  | .dataEntry => some o.dataEntry
  | .ramOption => some o.ramOption
  | .lut => some 0x32
  | .pingpong => some o.pingpong
  | .duc2 => some o.duc2
  | .masterAct => some 0x20
  | .border => some o.border
  | .ramXWindow => some o.ramXWindow
  | .ramYWindow => some o.ramYWindow
  | .ramXCounter => some o.ramXCounter
  | .ramYCounter => some o.ramYCounter
  | .writeBw => some 0x24
  | .writeRed => some 0x26
  | .terminate => some 0xFF
  | .deepSleep => some o.deepSleep

/-- The 21 panel commands, in the order of the table of R101. -/
def panelCommands : List Instr :=
  [.lut, .writeBw, .writeRed, .masterAct, .terminate, .swReset, .driverOutput, .booster, .vcom, .dummyLine,
   .gateTime, .dataEntry, .ramOption, .pingpong, .duc2, .border, .ramXWindow, .ramYWindow, .ramXCounter,
   .ramYCounter, .deepSleep]

/-- R101, R105: the panel command an opcode byte names. -/
def decodeOpcode (o : Opcodes) (b : Byte) : Except DecodeError Instr :=
  match panelCommands.find? (fun i => decide (opcodeOf o i = some b)) with
  | some i => .ok i
  | none => .error (.unknownOpcode b)

/-- R81: the selector byte of a host operation; 0x00 for a panel command, which has none. -/
def selectorOf : Instr → Byte
  | .setup => 0x01
  | .fill _ => 0x02
  | .setPixel _ _ _ => 0x03
  | .getPixel _ _ => 0x04
  | .display => 0x05
  | .setDsbu _ => 0x06
  | .readReg _ => 0x07
  | _ => 0x00

/-- R82: coordinates packed into `A`, `y` above `x`. -/
def encodeCoords (x y : Int) : U32 := BitVec.ofInt 16 y ++ BitVec.ofInt 16 x

/-- R83: a colour packed into `B`. -/
def encodeColour (c : Colour) : U32 := c.red ++ c.green ++ c.blue ++ c.white

/-- R81: the `A` field of an operation, zero where it reads none (R106). -/
def encodeA : Instr → U32
  | .setPixel x y _ => encodeCoords x y
  | .getPixel x y => encodeCoords x y
  | .readReg n => n
  | _ => 0

/-- R81: the `B` field of an operation, zero where it reads none (R106). -/
def encodeB : Instr → U32
  | .fill c => encodeColour c
  | .setPixel _ _ c => encodeColour c
  | .setDsbu b => (BitVec.ofBool b).zeroExtend 32
  | _ => 0

/-- R80, R106: the frame of a host operation, ignored fields zero. -/
def encodeFrame (i : Instr) : Frame := selectorOf i ++ encodeA i ++ encodeB i

/-- An encoded instruction: a host frame on the host port or an opcode byte on the panel link. -/
inductive Encoding where
  | frame (f : Frame)
  | opcode (b : Byte)
  deriving DecidableEq, Repr

/-- The encoding of an instruction (R80–R84, R101) under the opcodes `o`. -/
def encode (o : Opcodes) (i : Instr) : Encoding :=
  match opcodeOf o i with
  | some b => .opcode b
  | none => .frame (encodeFrame i)

/-- The decoder of both interfaces under the opcodes `o`. -/
def decode (o : Opcodes) : Encoding → Except DecodeError Instr
  | .frame f => decodeFrame f
  | .opcode b => decodeOpcode o b

/-- The instruction a word of spec/opcode_table.json names: a row of 8 bits is an opcode byte of the panel link,
a row of 72 bits a host frame (bit 0 least significant, R10), read with the default opcodes of R101, which are the
table's. -/
def decodeTableWord (nbits w : Nat) : Option Instr :=
  if nbits ≤ 8 then (decodeOpcode Config.opcodes (BitVec.ofNat 8 w)).toOption
  else (decodeFrame (BitVec.ofNat 72 w)).toOption

/-- A hexadecimal digit of the assembler syntax, capital letters. -/
def hexDigit (n : Nat) : String :=
  match n with
  | 0 => "0" | 1 => "1" | 2 => "2" | 3 => "3" | 4 => "4" | 5 => "5" | 6 => "6" | 7 => "7"
  | 8 => "8" | 9 => "9" | 10 => "A" | 11 => "B" | 12 => "C" | 13 => "D" | 14 => "E" | _ => "F"

/-- A byte as two hexadecimal digits. -/
def hexByte (b : Byte) : String := hexDigit (b.toNat / 16) ++ hexDigit (b.toNat % 16)

/-- R106: a colour written `#RRGGBBWW`. -/
def colourText (c : Colour) : String :=
  "#" ++ hexByte c.red ++ hexByte c.green ++ hexByte c.blue ++ hexByte c.white

/-- R106: the assembly line of a host operation; none for a panel command, which the host cannot issue. -/
def assemblyText : Instr → Option String
  | .setup => some "SETUP"
  | .fill c => some ("FILL " ++ colourText c)
  | .setPixel x y c => some ("SET_PIXEL " ++ toString x ++ ", " ++ toString y ++ ", " ++ colourText c)
  | .getPixel x y => some ("GET_PIXEL " ++ toString x ++ ", " ++ toString y)
  | .display => some "DISPLAY"
  | .setDsbu b => some (if b then "SET_DSBU 1" else "SET_DSBU 0")
  | .readReg n => some ("READ_REG " ++ toString n.toNat)
  | _ => none

end Sys2Proof
end

