-- ==== Sys2Proof/Machine/State.lean ====
section
/-! DEFINITION. The state of the block: every piece of architectural state of rule R20 of spec/10_state.md, under the
names the spec gives it, with the model's own input fields beside it; the reasons a step can stop; and the state after
reset (R280 of spec/70_reset_and_hazards.md). -/

namespace Sys2Proof.Machine

/-- R25: the block's view of the panel. -/
inductive PanelState where
  | uninitialized
  | idle
  | busy
  | sleeping
  deriving DecidableEq, Repr

/-- R29: the direction configuration of a line. -/
inductive Dir where
  | unconfigured
  | out
  | input
  deriving DecidableEq, Repr

/-- R33: the lines `cfg` names. -/
inductive Line where
  | dc
  | rst
  | busy
  deriving DecidableEq, Repr

/-- R33, R173: the output lines `line` names. -/
inductive OutLine where
  | dc
  | rst
  deriving DecidableEq, Repr

/-- R33: the log kinds. -/
inductive LogKind where
  | longWait
  | idleTimeout
  deriving DecidableEq, Repr

/-- R33: the events of the trace. -/
inductive Event where
  /-- `cfg(l, dir)` -/
  | cfg (l : Line) (d : Dir)
  /-- `line(l, v)` -/
  | line (l : OutLine) (v : Bool)
  /-- `cs(1)`, `cs(0)` -/
  | cs (v : Bool)
  /-- `tx(b)` -/
  | tx (b : Byte)
  /-- `busy(v)` -/
  | busy (v : Bool)
  /-- `now(t)` -/
  | now (t : U32)
  /-- `sleep(d)` -/
  | sleep (d : U32)
  /-- `wdt` -/
  | wdt
  /-- `yield` -/
  | yield
  /-- `log(k)` -/
  | log (k : LogKind)
  deriving DecidableEq, Repr

/-- R253: the gates an IdleTimeout can come from; the site is stored in no register. -/
inductive GateSite where
  | initHwReset
  | initSwReset
  | refreshStart
  | refreshRam
  deriving DecidableEq, Repr

/-- The statements of `Init` (R190) with those of `HwReset` (R177) in its place. -/
inductive InitStep where
  /-- `PANEL_STATE <- UNINITIALIZED` -/
  | start
  /-- `SetLine(RST, 0)`, if HAS_RST -/
  | rstLow
  /-- `SleepMs(T_RST_LOW_MS)`, if HAS_RST -/
  | rstLowWait
  /-- `SetLine(RST, 1)`, if HAS_RST -/
  | rstHigh
  /-- `SleepMs(T_RST_HIGH_MS)`, if HAS_RST -/
  | rstHighWait
  /-- the confirm-idle gate of `HwReset` -/
  | gateHwReset
  | swReset
  /-- the confirm-idle gate after the soft reset -/
  | gateSwReset
  | driverOutput
  | booster
  | vcom
  | dummyLine
  | gateTime
  | dataEntry
  | ramOption
  /-- `PANEL_STATE <- IDLE` -/
  | finish
  deriving DecidableEq, Repr

/-- The statements of SETUP (R224) after its check of SETUP_DONE. -/
inductive SetupStep where
  /-- `CfgLine(DC, out)` -/
  | cfgDc
  /-- `CfgLine(RST, out)`, if HAS_RST -/
  | cfgRst
  /-- `SetLine(RST, 1)`, if HAS_RST -/
  | driveRst
  /-- `CfgLine(BUSY, in)`, if HAS_BUSY -/
  | cfgBusy
  /-- `MemWrite(0, L, [0x00] * L)` -/
  | clearFb
  /-- `SETUP_DONE <- 1` -/
  | markDone
  /-- a statement of `Init()` -/
  | init (p : InitStep)
  /-- `return OK` -/
  | ret
  deriving DecidableEq, Repr

/-- The statements of DISPLAY (R226) after its check of SETUP_DONE; what counts as one statement is the model's choice
(DESIGN CHOICE, log entry 25). -/
inductive DisplayStep where
  /-- step 1, a statement of `Init()`, if DSBU -/
  | wake (p : InitStep)
  /-- step 2 -/
  | gateStart
  /-- step 3, `FULL <- (AT_UPDATE == 0); PREV <- (AT_UPDATE == 1)` as ONE statement, though the model gives each half of the
  other lines with a semicolon, but for panel commands, a position of its own (DESIGN CHOICE, log entry 25) -/
  | mode
  /-- step 4, if a reload is due -/
  | lut
  /-- step 5, the `if N >= 1` and what it guards as one statement (log entry 25) -/
  | advance
  /-- step 6 -/
  | vcom
  /-- step 7, if FULL = 0 -/
  | pingpong
  /-- step 7, if FULL = 0 -/
  | duc2Flag
  /-- step 7, if FULL = 0 -/
  | preActivate
  /-- step 8 -/
  | border
  /-- step 9 -/
  | ramXWindow
  /-- step 9 -/
  | ramYWindow
  /-- step 9 -/
  | ramXCounter
  /-- step 9 -/
  | ramYCounter
  /-- step 10 -/
  | gateRam
  /-- step 11 -/
  | writeBw
  /-- step 11 -/
  | writeRed
  /-- step 12 -/
  | duc2
  /-- step 12 -/
  | activate
  /-- step 12 -/
  | terminate
  /-- step 13 -/
  | clearWarning
  /-- step 14, if DSBU -/
  | sleep
  /-- `return OK` -/
  | ret
  deriving DecidableEq, Repr

/-- The statements of FILL (R122) after its check of SETUP_DONE. -/
inductive FillStep where
  /-- `(p1, p2) <- planes(classify(...))` -/
  | planes
  /-- `v1 <- (p1 == 1) ? 0xFF : 0x00` -/
  | value1
  /-- `v2 <- (p2 == 1) ? 0xFF : 0x00` -/
  | value2
  /-- `MemWrite(0, HALF, [v1] * HALF)` -/
  | plane1
  /-- `MemWrite(HALF, HALF, [v2] * HALF)` -/
  | plane2
  /-- `return OK` -/
  | ret
  deriving DecidableEq, Repr

/-- The statements of SET_PIXEL (R123) after its check of SETUP_DONE. -/
inductive SetPixelStep where
  /-- `x <- sext_32(F[47:32])` -/
  | coordX
  /-- `y <- sext_32(F[63:48])` -/
  | coordY
  /-- `return OK`, if the pixel lies outside the visible area -/
  | outside
  /-- `(p1, p2) <- planes(classify(...))` -/
  | planes
  /-- `o <- (x + y * CW) / 8` -/
  | offset
  /-- `m <- 0x80 >> (x & 7)` -/
  | mask
  /-- `FB[o] <- ...` -/
  | plane1
  /-- `FB[HALF + o] <- ...` -/
  | plane2
  /-- `return OK` -/
  | ret
  deriving DecidableEq, Repr

/-- The statements of GET_PIXEL (R124) after its check of SETUP_DONE. -/
inductive GetPixelStep where
  /-- `x <- sext_32(F[47:32])` -/
  | coordX
  /-- `y <- sext_32(F[63:48])` -/
  | coordY
  /-- `RES_VALUE <- 0`, if the pixel lies outside the visible area -/
  | zero
  /-- `return OUT_OF_RANGE`, if the pixel lies outside the visible area -/
  | outside
  /-- `o <- (x + y * CW) / 8` -/
  | offset
  /-- `m <- 0x80 >> (x & 7)` -/
  | mask
  /-- `p1 <- (FB[o] & m) != 0 ? 1 : 0` -/
  | bit1
  /-- `p2 <- (FB[HALF + o] & m) != 0 ? 1 : 0` -/
  | bit2
  /-- `RES_VALUE <- zext_32((p1 << 1) | p2)` -/
  | value
  /-- `return OK` -/
  | ret
  deriving DecidableEq, Repr

/-- The statement of SET_DSBU (R227) after its first. -/
inductive SetDsbuStep where
  /-- `return OK` -/
  | ret
  deriving DecidableEq, Repr

/-- The statements of READ_REG (R228) after its first. -/
inductive ReadRegStep where
  /-- `return OK`, if the register exists -/
  | ret
  /-- `RES_VALUE <- 0`, if it does not -/
  | zero
  /-- `return OUT_OF_RANGE`, if it does not -/
  | outside
  deriving DecidableEq, Repr

/-- R27: the sequencer state, READY or RUNNING(op, step). `entry op` is RUNNING(op, first statement), the state R262
sets when a frame has been latched; the others are RUNNING(op, _) at each later statement of the operation's
pseudocode. DESIGN CHOICE: what counts as one statement (log entries 12 and 25). -/
inductive Seq where
  | ready
  | entry (op : HostOp)
  | setup (p : SetupStep)
  | fill (p : FillStep)
  | setPixel (p : SetPixelStep)
  | getPixel (p : GetPixelStep)
  | display (p : DisplayStep)
  | setDsbu (p : SetDsbuStep)
  | readReg (p : ReadRegStep)
  deriving DecidableEq, Repr

/-- Framebuffer contents: (index, byte) pairs, indices rising, no entry equal to the reset byte 0x00 an unlisted
index reads as (R280). -/
abbrev Memory := List Host.Cell

/-- The state of one instance. -/
structure State where
  /-- MODEL'S OWN: the parameter record `P` of the instance (R8), never changed by a step (log entry 1). -/
  params : Params
  /-- `FB` (R21) -/
  fb : Memory
  /-- `AT_UPDATE` (R22) -/
  atUpdate : U32
  /-- `WARNING` (R23) -/
  warning : Bool
  /-- `DSBU` (R24) -/
  dsbu : Bool
  /-- `PANEL_STATE` (R25) -/
  panelState : PanelState
  /-- `SETUP_DONE` (R26) -/
  setupDone : Bool
  /-- `SEQ` (R27) -/
  seq : Seq
  /-- `OPF` (R28) -/
  opf : Frame
  /-- `DONE` (R28) -/
  done : Bool
  /-- `RES_STATUS` (R28, R250) -/
  resStatus : BitVec 3
  /-- `RES_VALUE` (R28) -/
  resValue : U32
  /-- `DC_LVL` (R29) -/
  dcLvl : Bool
  /-- `RST_LVL` (R29) -/
  rstLvl : Bool
  /-- `CS` (R29) -/
  cs : Bool
  /-- direction of DC (R29) -/
  dirDc : Dir
  /-- direction of RST (R29) -/
  dirRst : Dir
  /-- direction of BUSY (R29) -/
  dirBusy : Dir
  /-- `BG_START` (R30) -/
  bgStart : U32
  /-- `FULL` (R31) -/
  full : Bool
  /-- `PREV` (R31) -/
  prev : Bool
  /-- `TR` (R33), oldest event first -/
  tr : List Event
  /-- MODEL'S OWN: the frames the host has still to present, oldest first, each once DONE = 1 (log entry 13). -/
  hostIn : List Frame
  /-- MODEL'S OWN: the BUSY levels the panel will supply, oldest first, before free values (log entry 9). -/
  busyIn : List Bool
  /-- MODEL'S OWN: the time-base values the environment will supply, before free values (log entry 10). -/
  timeIn : List U32
  /-- MODEL'S OWN: how many free values have been drawn (log entry 9). -/
  draws : Nat
  /-- MODEL'S OWN: the value of the last read of the time base, none before the first (R150's `t1`; log entry 10). -/
  lastNow : Option U32
  /-- MODEL'S OWN: the milliseconds of the sleeps completed since that read (R150; log entry 10). -/
  slept : Nat
  deriving DecidableEq, Repr

/-- Why a step stops with a fault. -/
inductive Fault where
  /-- Raised by a statement of SET_PIXEL or GET_PIXEL that accesses a byte index outside `0 .. L-1`, an address that does
  not exist (R60). Safe: R61 says that no rule forms such an index, so no operation and no reachable state raises it. -/
  | outsideFramebuffer (index : Nat)
  deriving DecidableEq, Repr

/-- Why the model gives no meaning. -/
inductive Refusal where
  /-- Raised by an arm of `exec` for an instruction without a meaning. No arm raises it. Safe. -/
  | notModelled (mnemonic : String)
  /-- Raised by construction for a parameter record that fails R9 or R101: "no instance exists for it" (R254). Safe. -/
  | misconfigured
  deriving DecidableEq, Repr

/-- R280, R281: the state construction leaves, for an instance with parameters `p`. The values of DC_LVL, RST_LVL,
OPF, BG_START, FULL and PREV are DESIGN CHOICE 0 (log entries 4 to 8; unsafe): the spec leaves them unspecified. The
host has presented nothing and the environment has supplied nothing yet (log entries 9, 10, 13). -/
def State.construct (p : Params) : State where
  params := p
  fb := []
  atUpdate := 0
  warning := false
  dsbu := false
  panelState := .uninitialized
  setupDone := false
  seq := .ready
  opf := 0
  done := true
  resStatus := 0
  resValue := 0
  dcLvl := false
  rstLvl := false
  cs := false
  dirDc := .unconfigured
  dirRst := .unconfigured
  dirBusy := .unconfigured
  bgStart := 0
  full := false
  prev := false
  tr := []
  hostIn := []
  busyIn := []
  timeIn := []
  draws := 0
  lastNow := none
  slept := 0

/-- The machine right after reset: the instance of `Config.params` (log entry 1). -/
def State.reset : State := State.construct Config.params

end Sys2Proof.Machine
end

