-- ==== Sys2Proof/Machine/Ops.lean ====
section
/-! DEFINITION. The named operations over memory, lines, transport, time base and host port that every meaning is
built from: framebuffer access (R60–R62), the link primitives (R170–R175), the time base and liveness primitives
(R150–R152), the busy gate (R153), the end of an operation (R250), and the block's one exception entry, the IdleTimeout
abort (R253), with its return to the host. -/

namespace Sys2Proof.Machine

/-! ## Framebuffer memory (spec/20_memory.md) -/

/-- What an unlisted index reads as: the reset byte of R280. -/
def Memory.unlisted : Byte := 0x00

/-- `FB[i]` (R60). -/
def Memory.read : Memory → Nat → Byte
  | [], _ => Memory.unlisted
  | (k, b) :: m, a => if k = a then b else Memory.read m a

/-- `FB[i] <- v` (R61), keeping the canonical form. -/
def Memory.write : Memory → Nat → Byte → Memory
  | [], a, v => if v = Memory.unlisted then [] else [(a, v)]
  | (k, b) :: m, a, v =>
    if a < k then (if v = Memory.unlisted then (k, b) :: m else (a, v) :: (k, b) :: m)
    else if a = k then (if v = Memory.unlisted then m else (a, v) :: m)
    else (k, b) :: Memory.write m a v

/-- `MemRead(i, n)` (R62). -/
def Memory.readBytes (m : Memory) (i n : Nat) : List Byte :=
  (List.range n).map (fun k => m.read (i + k))

/-- The listed cells of the bytes `bs` from index `a` on. -/
def Memory.cells : Nat → List Byte → Memory
  | _, [] => []
  | a, b :: bs => if b = Memory.unlisted then Memory.cells (a + 1) bs else (a, b) :: Memory.cells (a + 1) bs

/-- `MemWrite(i, n, v)` (R62): the cells below `i`, the new cells, the cells from `i + n` on. On a canonical memory
this is the writes `FB[i+k] <- v[k]` in ascending `k` (Obligations.MemWriteIsAscendingByteWrites). -/
def Memory.writeBytes (m : Memory) (i : Nat) (v : List Byte) : Memory :=
  m.filter (fun c => decide (c.1 < i)) ++ Memory.cells i v ++ m.filter (fun c => decide (i + v.length ≤ c.1))

/-- The canonical form: indices strictly rising, no entry equal to the unlisted byte. -/
abbrev Memory.wf (m : Memory) : Prop :=
  m.Pairwise (fun c d => c.1 < d.1) ∧ ∀ c ∈ m, c.2 ≠ Memory.unlisted

/-! ## Trace, lines and transport (spec/42_panel_protocol.md section 1) -/

/-- R12, R33: events appended in program order. -/
def State.emit (s : State) (es : List Event) : State := { s with tr := s.tr ++ es }

/-- `SetLine(l, v)` (R173): drives the output and appends `line(l, v)` whether or not the level changes. -/
def State.setLine (s : State) (l : OutLine) (v : Bool) : State :=
  match l with
  | .dc => ({ s with dcLvl := v }).emit [.line .dc v]
  | .rst => ({ s with rstLvl := v }).emit [.line .rst v]

/-- `CfgLine(l, dir)` (R174). -/
def State.cfgLine (s : State) (l : Line) (d : Dir) : State :=
  match l with
  | .dc => ({ s with dirDc := d }).emit [.cfg .dc d]
  | .rst => ({ s with dirRst := d }).emit [.cfg .rst d]
  | .busy => ({ s with dirBusy := d }).emit [.cfg .busy d]

/-- `CS <- v`, append `cs(v)` (R170–R172). -/
def State.setCs (s : State) (v : Bool) : State := ({ s with cs := v }).emit [.cs v]

/-- `tx(b)` for each byte in order (R170–R172). -/
def State.sendBytes (s : State) (bs : List Byte) : State := s.emit (bs.map Event.tx)

/-- `Cmd(b)` (R170). -/
def State.cmd (s : State) (b : Byte) : State :=
  (((s.setLine .dc false).setCs true).sendBytes [b]).setCs false

/-- `Dat(bs)` (R171). -/
def State.dat (s : State) (bs : List Byte) : State :=
  (((s.setLine .dc true).setCs true).sendBytes bs).setCs false

/-- `CmdDat(b, bs)` (R172): one transaction, DC raised inside it after the opcode. -/
def State.cmdDat (s : State) (b : Byte) (bs : List Byte) : State :=
  (((((s.setLine .dc false).setCs true).sendBytes [b]).setLine .dc true).sendBytes bs).setCs false

/-- The trace shorthand `CMD(b)` of R33. -/
def evCmd (b : Byte) : List Event := [.line .dc false, .cs true, .tx b, .cs false]

/-- The trace shorthand `DAT(bs)` of R33. -/
def evDat (bs : List Byte) : List Event := [Event.line .dc true, Event.cs true] ++ bs.map Event.tx ++ [Event.cs false]

/-- The trace shorthand `CMDDAT(b, bs)` of R33. -/
def evCmdDat (b : Byte) (bs : List Byte) : List Event :=
  [Event.line .dc false, Event.cs true, Event.tx b, Event.line .dc true] ++ bs.map Event.tx ++ [Event.cs false]

/-! ## Time base, liveness and BUSY (spec/41_busy_gate.md section 1) -/

/-- The next BUSY level the panel supplies (R175, I7): the state's own list, then a free value (log entry 9). -/
def State.drawBusy (s : State) : Bool × State :=
  match s.busyIn with
  | v :: rest => (v, { s with busyIn := rest })
  | [] => (Config.freeBusy s.draws, { s with draws := s.draws + 1 })

/-- The next time-base value the environment supplies (R150, I8), before the time axiom: the state's own list, then a
free value (log entry 10). -/
def State.drawTime (s : State) : U32 × State :=
  match s.timeIn with
  | t :: rest => (t, { s with timeIn := rest })
  | [] => (Config.freeTime s.draws, { s with draws := s.draws + 1 })

/-- `BusyRead()` (R175). -/
def State.busyRead (s : State) : Bool × State :=
  (s.drawBusy.1, s.drawBusy.2.emit [.busy s.drawBusy.1])

/-- The time axiom of R150 between a read `last` and a read `t` with `slept` ms of completed sleeps between them. -/
def timeAxiom (last : U32) (slept : Nat) (t : U32) : Bool :=
  decide (slept ≤ (t - last).toNat) && decide ((t - last).toNat < 2 ^ 31)

/-- Whether a read `t` is one the environment may supply (R150): the time axiom holds from the last read on, or nothing
binds it, since there was no read or the sleeps since alone last 2^31 ms (log entry 10). -/
def timeConforms (last : Option U32) (slept : Nat) (t : U32) : Bool :=
  match last with
  | none => true
  | some l => timeAxiom l slept t || decide (2 ^ 31 ≤ slept)

/-- A drawn value if the environment may supply it, else the least value that meets the axiom: "a model assumes the
axiom" (I23, log entry 10). -/
def conformingTime (last : Option U32) (slept : Nat) (t : U32) : U32 :=
  if timeConforms last slept t then t
  else
    match last with
    | none => t
    | some l => l + BitVec.ofNat 32 slept

/-- `NowMs()` (R150): a read under the time axiom from the last read on, in whatever gate that was. -/
def State.nowMs (s : State) : U32 × State :=
  let t := conformingTime s.lastNow s.slept s.drawTime.1
  (t, ({ s.drawTime.2 with lastNow := some t, slept := 0 }).emit [.now t])

/-- `SleepMs(d)` (R151): completed, as its duty in R269 says. -/
def State.sleepMs (s : State) (d : U32) : State := ({ s with slept := s.slept + d.toNat }).emit [.sleep d]

/-- `WdtReset()` (R152). -/
def State.wdtReset (s : State) : State := s.emit [.wdt]

/-- `Yield()` (R152). -/
def State.yieldHost (s : State) : State := s.emit [.yield]

/-- `Log(k)` (R152). -/
def State.logEvent (s : State) (k : LogKind) : State := s.emit [.log k]

/-! ## The busy gate (R153) -/

/-- R40: a gate that returns true takes PANEL_STATE from BUSY to IDLE. -/
def State.gatePassed (s : State) : State :=
  { s with panelState := if s.panelState = .busy then .idle else s.panelState }

/-- How often the gate can sleep before it returns: `T / POLL_MS + 1` (R153, R154). -/
def State.gateFuel (s : State) (timeout : U32) : Nat := timeout.toNat / s.params.pollMs.toNat + 1

/-- The polling loop of R153: sample, elapsed time, timeout, long-wait log, watchdog, yield, sleep. When no sleep is left
the elapsed time exceeds the timeout by the time axiom, so only the two exits remain (log entry 11). -/
def gateLoop : Nat → U32 → State → Bool × State
  | 0, _, s =>
    if s.busyRead.1 ≠ s.params.busyActiveLevel then (true, s.busyRead.2)
    else (false, s.busyRead.2.nowMs.2.logEvent .idleTimeout)
  | fuel + 1, timeout, s =>
    if s.busyRead.1 ≠ s.params.busyActiveLevel then (true, s.busyRead.2)
    else
      let r := s.busyRead.2.nowMs
      let e := r.1 - s.bgStart
      if e > timeout then (false, r.2.logEvent .idleTimeout)
      else
        let s' := if e > s.params.longWaitMs then r.2.logEvent .longWait else r.2
        gateLoop fuel timeout ((s'.wdtReset.yieldHost).sleepMs s.params.pollMs)

/-- `BG_START <- NowMs()` (R153). -/
def State.startClock (s : State) : State :=
  let r := s.nowMs
  { r.2 with bgStart := r.1 }

/-- The gate up to its outcome: no busy line, the first sample, `BG_START <- NowMs()` and the loop (R153). -/
def State.pollUntilIdle (s : State) (timeout : U32) : Bool × State :=
  if s.params.hasBusy = false then (true, s)
  else if s.busyRead.1 ≠ s.params.busyActiveLevel then (true, s.busyRead.2)
  else gateLoop (s.gateFuel timeout) timeout s.busyRead.2.startClock

/-- `WaitUntilIdle(T)` (R153). -/
def State.waitUntilIdle (s : State) (timeout : U32) : Bool × State :=
  let r := s.pollUntilIdle timeout
  if r.1 then (true, r.2.gatePassed) else (false, r.2)

/-! ## Start, end and abort of an operation (R250, R253, R262) -/

/-- R250: the status codes. -/
inductive Status where
  | ok
  | timeout
  | illegalOp
  | outOfRange
  | seqError
  deriving DecidableEq, Repr

/-- R250: the 3-bit code of a status. -/
def Status.code : Status → BitVec 3
  | .ok => 0
  | .timeout => 1
  | .illegalOp => 2
  | .outOfRange => 3
  | .seqError => 4

/-- R262: `DONE <- 0`, `SEQ <- RUNNING(op, first statement)`. -/
def State.start (s : State) (op : HostOp) : State := { s with seq := .entry op, done := false }

/-- `return st` with value `v` (R250): `RES_STATUS`, `RES_VALUE`, `SEQ <- READY`, `DONE <- 1`. -/
def State.finish (s : State) (st : Status) (v : U32) : State :=
  { s with seq := .ready, done := true, resStatus := st.code, resValue := v }

/-- `raise IdleTimeout(site)` (R253): `WARNING <- 1`, `RES_VALUE <- 0`, `return TIMEOUT`. The block has no handler and
no saved registers; control returns to the host (R258, R259). `site` is stored in no register. -/
def State.raiseIdleTimeout (s : State) (_site : GateSite) : State :=
  ({ s with warning := true }).finish .timeout 0

/-- What a statement does to the running operation: it goes on, the operation has ended, or the machine stops. -/
inductive Flow where
  | go (s : State)
  | ended (s : State)
  | fault (r : Fault)
  deriving DecidableEq, Repr

/-- The outcome of a step that leaves a flow behind. -/
def Flow.outcome : Flow → Host.Outcome State Fault Refusal
  | .go s => .next s
  | .ended s => .next s
  | .fault r => .fault r

/-- The next statement runs only if the operation goes on. -/
def Flow.bind (r : Flow) (f : State → Flow) : Flow :=
  match r with
  | .go s => f s
  | .ended s => .ended s
  | .fault r => .fault r

/-- The statements of a sequence run one at a time, in the order written (R12), the step pointer at each (R27); `enabled`
says which the `if` around it lets run, `run` runs one. -/
def runSteps (enabled : Seq → State → Bool) (run : Seq → State → Flow) : List Seq → State → Flow
  | [], s => .go s
  | p :: ps, s =>
    if enabled p s then (run p { s with seq := p }).bind (runSteps enabled run ps) else runSteps enabled run ps s

/-- A gate with its caller's `if not ok: raise IdleTimeout(site)` (R155). -/
def State.gate (s : State) (site : GateSite) : Flow :=
  let r := s.waitUntilIdle s.params.idleTimeoutMs
  if r.1 then .go r.2 else .ended (r.2.raiseIdleTimeout site)

/-- `PANEL_STATE <- BUSY` unless UNINITIALIZED or SLEEPING (R40, R184–R186). -/
def State.markBusy (s : State) : State :=
  { s with panelState :=
      if s.panelState = .uninitialized ∨ s.panelState = .sleeping then s.panelState else .busy }

/-- Construction (R9, R254, R281): an instance from a valid record, a refusal of any other. -/
def State.build (r : ParamRecord) : Host.Outcome State Fault Refusal :=
  if h : r.check = true then .next (State.construct { toParamRecord := r, ok := h })
  else .refused .misconfigured

end Sys2Proof.Machine
end

