-- ==== Sys2Proof/Machine/Operands.lean ====
section
/-! DEFINITION. The operand forms: derived geometry (R8), pixel addressing (R63), classification and plane codes
(R87, R120, R121), the range check of the pixel operations (R123), and the payload of every panel command in the
position where it is sent (R103, R104). -/

namespace Sys2Proof

/-- `L = CW * H / 4` (R8, R64). -/
def ParamRecord.bufLen (p : ParamRecord) : Nat := p.cw.toNat * p.h.toNat / 4

/-- `HALF = CW * H / 8` (R8). -/
def ParamRecord.half (p : ParamRecord) : Nat := p.cw.toNat * p.h.toNat / 8

/-- `ROWB = CW / 8` (R8). -/
def ParamRecord.rowb (p : ParamRecord) : Nat := p.cw.toNat / 8

/-- `off(x, y) = (x + y * CW) / 8` (R63). -/
def ParamRecord.pixelOff (p : ParamRecord) (x y : Nat) : Nat := (x + y * p.cw.toNat) / 8

/-- R123, R124: `0 <= x < VW` and `0 <= y < H`. -/
def ParamRecord.inRange (p : ParamRecord) (x y : Int) : Bool :=
  decide (0 ≤ x) && decide (x < p.vw.toNat) && decide (0 ≤ y) && decide (y < p.h.toNat)

/-- R104: `H - 1` as two bytes, low byte first. -/
def ParamRecord.heightBytes (p : ParamRecord) : List Byte :=
  [(p.h - 1).extractLsb' 0 8, (p.h - 1).extractLsb' 8 8]

/-- R104: `ROWB - 1` as one byte. -/
def ParamRecord.windowEndX (p : ParamRecord) : Byte := BitVec.ofNat 8 (p.rowb - 1)

namespace Machine

/-- What an operation's pseudocode reads of its frame `F` (R81–R84). -/
structure Operands where
  /-- `sext_32(A[15:0])` -/
  x : Int
  /-- `sext_32(A[31:16])` -/
  y : Int
  /-- `B` as a colour -/
  colour : Colour
  /-- `B[0]` -/
  bit : Bool
  /-- `A` -/
  number : U32
  deriving DecidableEq, Repr

/-- The operands of an operation that reads none. -/
def Operands.none : Operands := ⟨0, 0, ⟨0, 0, 0, 0⟩, false, 0⟩

/-- The operands a frame holds (R81–R84). The pseudocode's local names (`x`, `y`, `p1`, `o`, `m`, ...) are no state (R20):
each statement computes those it uses from the latched frame, the parameters and FB (log entry 17). -/
def operandsOf (f : Frame) : Operands :=
  ⟨coordX (frameA f), coordY (frameA f), colourOf (frameB f), (frameB f).getLsbD 0, frameA f⟩

/-- R86: the classes of colours. -/
inductive ColourClass where
  | black
  | red
  | white
  deriving DecidableEq, Repr

/-- `classify` (R120), first match wins. -/
def classify (c : Colour) : ColourClass :=
  if c.white = 255 ∧ c.red = 255 ∧ c.green = 255 ∧ c.blue = 255 then .black
  else if c.red ≠ 0 ∧ c.green = 0 ∧ c.blue = 0 then .red
  else .white

/-- `planes` (R87, R121): the plane-1 and plane-2 bits of a class. -/
def planes : ColourClass → Bool × Bool
  | .black => (false, false)
  | .white => (true, false)
  | .red => (true, true)

/-- R87: the 2-bit code `(p1 << 1) | p2`. -/
def planeCode (p : Bool × Bool) : BitVec 2 := BitVec.ofBool p.1 ++ BitVec.ofBool p.2

/-- R122: the byte FILL writes for a plane bit. -/
def fillByte (p : Bool) : Byte := if p then 0xFF else 0x00

/-- `mask(x) = 0x80 >> (x & 7)` (R63). -/
def pixelMask (x : Nat) : Byte := (0x80 : Byte) >>> (x % 8)

/-- R123: a plane byte with the bits of `m` set or cleared. -/
def plotBits (b m : Byte) (p : Bool) : Byte := if p then b ||| m else b &&& ~~~m

/-- R124: whether the plane bit under `m` is set. -/
def testBits (b m : Byte) : Bool := decide (b &&& m ≠ 0)

/-- The pixel's plane bits in the framebuffer: bit `mask(x)` of `FB[off]` and of `FB[HALF + off]` (R63). -/
def State.pixelPlanes (s : State) (x y : Nat) : Bool × Bool :=
  (testBits (s.fb.read (s.params.pixelOff x y)) (pixelMask x),
   testBits (s.fb.read (s.params.half + s.params.pixelOff x y)) (pixelMask x))

/-- R103: the VCOM byte: `CAL_VCOM_INIT` at a position of `Init`, the mode's byte elsewhere (R181, log entry 16). -/
def State.vcomByte (s : State) : Byte :=
  match s.seq with
  | .setup (.init _) => s.params.cal.vcomInit
  | .display (.wake _) => s.params.cal.vcomInit
  | _ => if s.full then s.params.cal.vcomFull else s.params.cal.vcomPartial

/-- R103: the display-update-control-2 byte: the partial flag at step 7, the mode's activation byte elsewhere (R194,
log entry 16). -/
def State.duc2Byte (s : State) : Byte :=
  match s.seq with
  | .display .duc2Flag => s.params.cal.duc2PartialFlag
  | _ => if s.full then s.params.cal.duc2Full else s.params.cal.duc2Partial

/-- R195: the border byte of the mode. -/
def State.borderByte (s : State) : Byte :=
  if s.full then s.params.cal.borderFull else s.params.cal.borderPartial

/-- R188: the waveform table of the mode. -/
def State.lutTable (s : State) : List Byte :=
  if s.full then s.params.lutFull else s.params.lutPartial

end Machine

end Sys2Proof
end

