-- ==== Sys2Proof/Machine/Flags.lean ====
section
/-! DEFINITION. Every flag computation: the mode flags FULL and PREV (R220), the reload condition (R222), the cadence
advance (R221), WARNING's clearing (R226 step 13), and the STATUS word with the register map (R34, R35). -/

namespace Sys2Proof.Machine

/-- R220: `FULL <- (AT_UPDATE == 0)`, `PREV <- (AT_UPDATE == 1)`. -/
def State.sampleMode (s : State) : State :=
  { s with full := decide (s.atUpdate = 0), prev := decide (s.atUpdate = 1) }

/-- R222: a reload is due exactly when `N >= 1` and `FULL != PREV`. -/
def State.reloadDue (s : State) : Bool := decide (s.params.n ≠ 0) && decide (s.full ≠ s.prev)

/-- R221: `(AT_UPDATE + 1) mod N` on unbounded integers if `N >= 1`, else unchanged. -/
def nextUpdate (n a : U32) : U32 := if n = 0 then a else BitVec.ofNat 32 ((a.toNat + 1) % n.toNat)

/-- R221: step 5. -/
def State.advanceCadence (s : State) : State := { s with atUpdate := nextUpdate s.params.n s.atUpdate }

/-- R226 step 13: `WARNING <- 0`. -/
def State.clearWarning (s : State) : State := { s with warning := false }

/-- R25: the 2-bit encoding of PANEL_STATE. -/
def PanelState.code : PanelState → BitVec 2
  | .uninitialized => 0b00
  | .idle => 0b01
  | .busy => 0b10
  | .sleeping => 0b11

/-- R35: bit 0 WARNING, bits 2:1 PANEL_STATE, bit 3 SETUP_DONE, bit 4 DSBU, bit 5 HAS_BUSY, bit 6 HAS_RST, bits 31:7
zero. -/
def State.statusWord (s : State) : U32 :=
  (0 : BitVec 25) ++ BitVec.ofBool s.params.hasRst ++ BitVec.ofBool s.params.hasBusy ++ BitVec.ofBool s.dsbu
    ++ BitVec.ofBool s.setupDone ++ s.panelState.code ++ BitVec.ofBool s.warning

/-- R34: the host-readable registers by number; none for a number not listed. -/
def State.reg (s : State) (n : U32) : Option U32 :=
  match n.toNat with
  | 0 => some s.statusWord
  | 1 => some s.atUpdate
  | 2 => some s.params.n
  | 3 => some (s.params.vw.zeroExtend 32)
  | 4 => some (s.params.cw.zeroExtend 32)
  | 5 => some s.params.h
  | 6 => some (BitVec.ofNat 32 s.params.bufLen)
  | 7 => some s.params.idleTimeoutMs
  | _ => none

end Sys2Proof.Machine
end

