-- ==== Sys2Proof/Machine/Framebuffer.lean ====
section
/-! DEFINITION. The framebuffer operations of spec/40_framebuffer_ops.md statement by statement (R27): FILL (R122),
SET_PIXEL (R123, R252) and GET_PIXEL (R124). Their first statement, the SeqError check, is in Sequencer.lean. -/

namespace Sys2Proof.Machine

/-- A plane of FILL set to the byte of its bit (R122). -/
def State.fillPlane (s : State) (start : Nat) (p : Bool) : State :=
  { s with fb := s.fb.writeBytes start (List.replicate s.params.half (fillByte p)) }

/-- A statement of FILL (R122). -/
def runFill (o : Operands) (p : FillStep) (s : State) : Flow :=
  match p with
  | .planes => .go s
  | .value1 => .go s
  | .value2 => .go s
  | .plane1 => .go (s.fillPlane 0 (planes (classify o.colour)).1)
  | .plane2 => .go (s.fillPlane s.params.half (planes (classify o.colour)).2)
  | .ret => .ended (s.finish .ok 0)

/-- An access to framebuffer byte `i` (R60, R61): the statement runs if the byte exists. -/
def State.accessFb (s : State) (i : Nat) (f : Flow) : Flow :=
  if i < s.params.bufLen then f else .fault (.outsideFramebuffer i)

/-- The byte `o` of a pixel in plane 1 (R123). -/
def State.pixelByte (s : State) (o : Operands) : Nat := s.params.pixelOff o.x.toNat o.y.toNat

/-- `FB[i] <- (p == 1) ? (FB[i] | m) : (FB[i] & ~m)` (R123), `m` the mask of column `x`. -/
def State.plotPlane (s : State) (i x : Nat) (p : Bool) : State :=
  { s with fb := s.fb.write i (plotBits (s.fb.read i) (pixelMask x) p) }

/-- A statement of SET_PIXEL (R123): silent outside the visible area (R252). -/
def runSetPixel (o : Operands) (p : SetPixelStep) (s : State) : Flow :=
  match p with
  | .coordX => .go s
  | .coordY => .go s
  | .outside => .ended (s.finish .ok 0)
  | .planes => .go s
  | .offset => .go s
  | .mask => .go s
  | .plane1 =>
    s.accessFb (s.pixelByte o) (.go (s.plotPlane (s.pixelByte o) o.x.toNat (planes (classify o.colour)).1))
  | .plane2 =>
    s.accessFb (s.params.half + s.pixelByte o)
      (.go (s.plotPlane (s.params.half + s.pixelByte o) o.x.toNat (planes (classify o.colour)).2))
  | .ret => .ended (s.finish .ok 0)

/-- A statement of GET_PIXEL (R124): the 2-bit plane code, OUT_OF_RANGE and 0 outside the visible area. -/
def runGetPixel (o : Operands) (p : GetPixelStep) (s : State) : Flow :=
  match p with
  | .coordX => .go s
  | .coordY => .go s
  | .zero => .go { s with resValue := 0 }
  | .outside => .ended (s.finish .outOfRange s.resValue)
  | .offset => .go s
  | .mask => .go s
  | .bit1 => s.accessFb (s.pixelByte o) (.go s)
  | .bit2 => s.accessFb (s.params.half + s.pixelByte o) (.go s)
  | .value => .go { s with resValue := (planeCode (s.pixelPlanes o.x.toNat o.y.toNat)).zeroExtend 32 }
  | .ret => .ended (s.finish .ok s.resValue)

end Sys2Proof.Machine
end

