-- ==== Sys2Proof/Machine/Panel.lean ====
section
/-! DEFINITION. The 21 panel commands of rules R178–R199 of spec/42_panel_protocol.md: for each, the state
transformer `send…` the sequencer uses at its positions and the meaning `exec…` of the opcode-table row. The opcode is
that of R101, the payload that of R103. -/

namespace Sys2Proof.Machine

/-- Soft reset (R178). -/
def sendSwReset (s : State) : State :=
  s.cmd s.params.opc.swReset

/-- Meaning of the row (see `sendSwReset`). -/
def execSwReset (s : State) : Host.Outcome State Fault Refusal := .next (sendSwReset s)

/-- Driver-output control (R179): height minus one, low byte first, and the mode byte. -/
def sendDriverOutput (s : State) : State :=
  (s.cmd s.params.opc.driverOutput).dat (s.params.heightBytes ++ [s.params.cal.docMode])

/-- Meaning of the row (see `sendDriverOutput`). -/
def execDriverOutput (s : State) : Host.Outcome State Fault Refusal := .next (sendDriverOutput s)

/-- Booster soft-start control (R180). -/
def sendBooster (s : State) : State :=
  (s.cmd s.params.opc.booster).dat s.params.cal.booster.toList

/-- Meaning of the row (see `sendBooster`). -/
def execBooster (s : State) : Host.Outcome State Fault Refusal := .next (sendBooster s)

/-- VCOM register write (R181): the byte of the position it is sent at. -/
def sendVcom (s : State) : State :=
  (s.cmd s.params.opc.vcom).dat [s.vcomByte]

/-- Meaning of the row (see `sendVcom`). -/
def execVcom (s : State) : Host.Outcome State Fault Refusal := .next (sendVcom s)

/-- Dummy-line period (R182). -/
def sendDummyLine (s : State) : State :=
  (s.cmd s.params.opc.dummyLine).dat [s.params.cal.dummyLine]

/-- Meaning of the row (see `sendDummyLine`). -/
def execDummyLine (s : State) : Host.Outcome State Fault Refusal := .next (sendDummyLine s)

/-- Gate time (R183). -/
def sendGateTime (s : State) : State :=
  (s.cmd s.params.opc.gateTime).dat [s.params.cal.gateTime]

/-- Meaning of the row (see `sendGateTime`). -/
def execGateTime (s : State) : Host.Outcome State Fault Refusal := .next (sendGateTime s)

/-- Data-entry mode (R191). -/
def sendDataEntry (s : State) : State :=
  (s.cmd s.params.opc.dataEntry).dat [s.params.cal.dataEntry]

/-- Meaning of the row (see `sendDataEntry`). -/
def execDataEntry (s : State) : Host.Outcome State Fault Refusal := .next (sendDataEntry s)

/-- RAM-content option (R192). -/
def sendRamOption (s : State) : State :=
  (s.cmd s.params.opc.ramOption).dat s.params.cal.ramOption.toList

/-- Meaning of the row (see `sendRamOption`). -/
def execRamOption (s : State) : Host.Outcome State Fault Refusal := .next (sendRamOption s)

/-- LUT upload (R188, R292): opcode and the mode's 70 bytes in one transaction. -/
def sendLut (s : State) : State :=
  s.cmdDat 0x32 s.lutTable

/-- Meaning of the row (see `sendLut`). -/
def execLut (s : State) : Host.Outcome State Fault Refusal := .next (sendLut s)

/-- Ping-pong enable (R193). -/
def sendPingpong (s : State) : State :=
  (s.cmd s.params.opc.pingpong).dat s.params.cal.pingpong.toList

/-- Meaning of the row (see `sendPingpong`). -/
def execPingpong (s : State) : Host.Outcome State Fault Refusal := .next (sendPingpong s)

/-- Display-update control 2 (R194): the byte of the position it is sent at. -/
def sendDuc2 (s : State) : State :=
  (s.cmd s.params.opc.duc2).dat [s.duc2Byte]

/-- Meaning of the row (see `sendDuc2`). -/
def execDuc2 (s : State) : Host.Outcome State Fault Refusal := .next (sendDuc2 s)

/-- Master activation (R186), opcode 0x20: PANEL_STATE becomes BUSY unless UNINITIALIZED or SLEEPING. -/
def sendMasterAct (s : State) : State :=
  (s.cmd 0x20).markBusy

/-- Meaning of the row (see `sendMasterAct`). -/
def execMasterAct (s : State) : Host.Outcome State Fault Refusal := .next (sendMasterAct s)

/-- Border waveform (R195). -/
def sendBorder (s : State) : State :=
  (s.cmd s.params.opc.border).dat [s.borderByte]

/-- Meaning of the row (see `sendBorder`). -/
def execBorder (s : State) : Host.Outcome State Fault Refusal := .next (sendBorder s)

/-- RAM X address window (R196). -/
def sendRamXWindow (s : State) : State :=
  (s.cmd s.params.opc.ramXWindow).dat [0x00, s.params.windowEndX]

/-- Meaning of the row (see `sendRamXWindow`). -/
def execRamXWindow (s : State) : Host.Outcome State Fault Refusal := .next (sendRamXWindow s)

/-- RAM Y address window (R197). -/
def sendRamYWindow (s : State) : State :=
  (s.cmd s.params.opc.ramYWindow).dat ([0x00, 0x00] ++ s.params.heightBytes)

/-- Meaning of the row (see `sendRamYWindow`). -/
def execRamYWindow (s : State) : Host.Outcome State Fault Refusal := .next (sendRamYWindow s)

/-- RAM X address counter (R198). -/
def sendRamXCounter (s : State) : State :=
  (s.cmd s.params.opc.ramXCounter).dat [0x00]

/-- Meaning of the row (see `sendRamXCounter`). -/
def execRamXCounter (s : State) : Host.Outcome State Fault Refusal := .next (sendRamXCounter s)

/-- RAM Y address counter (R199). -/
def sendRamYCounter (s : State) : State :=
  (s.cmd s.params.opc.ramYCounter).dat [0x00, 0x00]

/-- Meaning of the row (see `sendRamYCounter`). -/
def execRamYCounter (s : State) : Host.Outcome State Fault Refusal := .next (sendRamYCounter s)

/-- Write black-plane RAM (R184), opcode 0x24: plane 1 in ascending index. -/
def sendWriteBw (s : State) : State :=
  ((s.cmd 0x24).markBusy).dat (s.fb.readBytes 0 s.params.half)

/-- Meaning of the row (see `sendWriteBw`). -/
def execWriteBw (s : State) : Host.Outcome State Fault Refusal := .next (sendWriteBw s)

/-- Write red-plane RAM (R185), opcode 0x26: plane 2 in ascending index. -/
def sendWriteRed (s : State) : State :=
  ((s.cmd 0x26).markBusy).dat (s.fb.readBytes s.params.half s.params.half)

/-- Meaning of the row (see `sendWriteRed`). -/
def execWriteRed (s : State) : Host.Outcome State Fault Refusal := .next (sendWriteRed s)

/-- Terminate frame (R187), opcode 0xFF as a command byte. -/
def sendTerminate (s : State) : State :=
  s.cmd 0xFF

/-- Meaning of the row (see `sendTerminate`). -/
def execTerminate (s : State) : Host.Outcome State Fault Refusal := .next (sendTerminate s)

/-- Panel sleep (R189): the payload only if CAL_SLEEP_DATA is not empty, then PANEL_STATE SLEEPING. -/
def sendDeepSleep (s : State) : State :=
  { (if s.params.cal.sleepData = [] then s.cmd s.params.opc.deepSleep
     else (s.cmd s.params.opc.deepSleep).dat s.params.cal.sleepData) with panelState := .sleeping }

/-- Meaning of the row (see `sendDeepSleep`). -/
def execDeepSleep (s : State) : Host.Outcome State Fault Refusal := .next (sendDeepSleep s)

end Sys2Proof.Machine
end

