-- ==== Sys2Proof/Machine/Registers.lean ====
section
/-! DEFINITION. The register operations of spec/43_scheduler_and_driver.md section 4 statement by statement (R27):
SET_DSBU (R227) and READ_REG (R228), both accepted before SETUP. -/

namespace Sys2Proof.Machine

/-- The first statement of SET_DSBU (R227): `DSBU <- F[0]`. -/
def State.writeDsbu (s : State) (b : Bool) : State := { s with dsbu := b }

/-- A later statement of SET_DSBU (R227). -/
def runSetDsbu (p : SetDsbuStep) (s : State) : Flow :=
  match p with
  | .ret => .ended (s.finish .ok 0)

/-- The first statement of READ_REG (R228): `if n ∈ 0..7: RES_VALUE <- reg(n)`; reading has no side effect. -/
def State.readRegister (s : State) (n : U32) : State :=
  match s.reg n with
  | some v => { s with resValue := v }
  | none => s

/-- A later statement of READ_REG (R228). -/
def runReadReg (p : ReadRegStep) (s : State) : Flow :=
  match p with
  | .ret => .ended (s.finish .ok s.resValue)
  | .zero => .go { s with resValue := 0 }
  | .outside => .ended (s.finish .outOfRange s.resValue)

end Sys2Proof.Machine
end

