-- ==== Sys2Proof/Machine/Sequencer.lean ====
section
/-! DEFINITION. The fixed sequences of the block, statement by statement (R27, R75): `Init` with `HwReset`
(R177, R190 of spec/42_panel_protocol.md), SETUP (R224) and DISPLAY (R226 of spec/43_scheduler_and_driver.md), and the
sequences of the other five host operations; how a statement runs, when an `if` passes it over, the run of a whole
operation, and the step pointer's move. -/

namespace Sys2Proof.Machine

/-- The statements of `Init` in order (R190, R177). -/
def initSteps : List InitStep :=
  [.start, .rstLow, .rstLowWait, .rstHigh, .rstHighWait, .gateHwReset, .swReset, .gateSwReset, .driverOutput,
   .booster, .vcom, .dummyLine, .gateTime, .dataEntry, .ramOption, .finish]

/-- The body of SETUP in order (R224). -/
def setupProgram : List Seq :=
  [SetupStep.cfgDc, .cfgRst, .driveRst, .cfgBusy, .clearFb, .markDone].map Seq.setup
    ++ initSteps.map (fun p => Seq.setup (.init p)) ++ [Seq.setup .ret]

/-- The body of DISPLAY in order (R226), steps 1 to 14. -/
def displayProgram : List Seq :=
  initSteps.map (fun p => Seq.display (.wake p))
    ++ [DisplayStep.gateStart, .mode, .lut, .advance, .vcom, .pingpong, .duc2Flag, .preActivate, .border, .ramXWindow,
        .ramYWindow, .ramXCounter, .ramYCounter, .gateRam, .writeBw, .writeRed, .duc2, .activate, .terminate,
        .clearWarning, .sleep, .ret].map Seq.display

/-- FILL in order (R122), after its first statement. -/
def fillProgram : List Seq :=
  [.fill .planes, .fill .value1, .fill .value2, .fill .plane1, .fill .plane2, .fill .ret]

/-- SET_PIXEL in order (R123), after its first statement. -/
def setPixelProgram : List Seq :=
  [.setPixel .coordX, .setPixel .coordY, .setPixel .outside, .setPixel .planes, .setPixel .offset, .setPixel .mask,
   .setPixel .plane1, .setPixel .plane2, .setPixel .ret]

/-- GET_PIXEL in order (R124), after its first statement. -/
def getPixelProgram : List Seq :=
  [.getPixel .coordX, .getPixel .coordY, .getPixel .zero, .getPixel .outside, .getPixel .offset, .getPixel .mask,
   .getPixel .bit1, .getPixel .bit2, .getPixel .value, .getPixel .ret]

/-- SET_DSBU (R227), after its first statement. -/
def setDsbuProgram : List Seq := [.setDsbu .ret]

/-- READ_REG in order (R228), after its first statement. -/
def readRegProgram : List Seq := [.readReg .ret, .readReg .zero, .readReg .outside]

/-- The statements of a host operation in order, its first at the entry (R27, R262). -/
def operationProgram (op : HostOp) : List Seq :=
  .entry op ::
    match op with
    | .setup => setupProgram
    | .fill => fillProgram
    | .setPixel => setPixelProgram
    | .getPixel => getPixelProgram
    | .display => displayProgram
    | .setDsbu => setDsbuProgram
    | .readReg => readRegProgram

/-- The guard of a statement of `HwReset`: the pulse only if HAS_RST (R177). -/
def initEnabled (p : InitStep) (s : State) : Bool :=
  match p with
  | .rstLow => s.params.hasRst
  | .rstLowWait => s.params.hasRst
  | .rstHigh => s.params.hasRst
  | .rstHighWait => s.params.hasRst
  | _ => true

/-- Whether the `if` around a statement lets it run (R27: "an `if` whose condition is false advances it past the
guarded statements"; log entry 18), for an operation with the operands `o`. -/
def enabledWith (o : Operands) (p : Seq) (s : State) : Bool :=
  match p with
  | .setup .cfgRst => s.params.hasRst
  | .setup .driveRst => s.params.hasRst
  | .setup .cfgBusy => s.params.hasBusy
  | .setup (.init q) => initEnabled q s
  | .display (.wake q) => s.dsbu && initEnabled q s
  | .display .lut => s.reloadDue
  | .display .pingpong => !s.full
  | .display .duc2Flag => !s.full
  | .display .preActivate => !s.full
  | .display .sleep => s.dsbu
  | .setPixel .outside => !s.params.inRange o.x o.y
  | .getPixel .zero => !s.params.inRange o.x o.y
  | .getPixel .outside => !s.params.inRange o.x o.y
  | .readReg .ret => (s.reg o.number).isSome
  | .readReg .zero => (s.reg o.number).isNone
  | .readReg .outside => (s.reg o.number).isNone
  | _ => true

/-- The first statement of a host operation: the lifecycle check (R255), or what R227 and R228 begin with. -/
def runEntry (o : Operands) (op : HostOp) (s : State) : Flow :=
  match op with
  | .setup => if s.setupDone then .ended (s.finish .seqError 0) else .go s
  | .fill => if s.setupDone then .go s else .ended (s.finish .seqError 0)
  | .setPixel => if s.setupDone then .go s else .ended (s.finish .seqError 0)
  | .getPixel => if s.setupDone then .go s else .ended (s.finish .seqError 0)
  | .display => if s.setupDone then .go s else .ended (s.finish .seqError 0)
  | .setDsbu => .go (s.writeDsbu o.bit)
  | .readReg => .go (s.readRegister o.number)

/-- A statement of `Init` (R190, R177). -/
def runInit (p : InitStep) (s : State) : Flow :=
  match p with
  | .start => .go { s with panelState := .uninitialized }
  | .rstLow => .go (s.setLine .rst false)
  | .rstLowWait => .go (s.sleepMs s.params.tRstLowMs)
  | .rstHigh => .go (s.setLine .rst true)
  | .rstHighWait => .go (s.sleepMs s.params.tRstHighMs)
  | .gateHwReset => s.gate .initHwReset
  | .swReset => .go (sendSwReset s)
  | .gateSwReset => s.gate .initSwReset
  | .driverOutput => .go (sendDriverOutput s)
  | .booster => .go (sendBooster s)
  | .vcom => .go (sendVcom s)
  | .dummyLine => .go (sendDummyLine s)
  | .gateTime => .go (sendGateTime s)
  | .dataEntry => .go (sendDataEntry s)
  | .ramOption => .go (sendRamOption s)
  | .finish => .go { s with panelState := .idle }

/-- A statement of SETUP (R224). -/
def runSetup (p : SetupStep) (s : State) : Flow :=
  match p with
  | .cfgDc => .go (s.cfgLine .dc .out)
  | .cfgRst => .go (s.cfgLine .rst .out)
  | .driveRst => .go (s.setLine .rst true)
  | .cfgBusy => .go (s.cfgLine .busy .input)
  | .clearFb => .go { s with fb := s.fb.writeBytes 0 (List.replicate s.params.bufLen 0x00) }
  | .markDone => .go { s with setupDone := true }
  | .init q => runInit q s
  | .ret => .ended (s.finish .ok 0)

/-- A statement of DISPLAY (R226). -/
def runDisplay (p : DisplayStep) (s : State) : Flow :=
  match p with
  | .wake q => runInit q s
  | .gateStart => s.gate .refreshStart
  | .mode => .go s.sampleMode
  | .lut => .go (sendLut s)
  | .advance => .go s.advanceCadence
  | .vcom => .go (sendVcom s)
  | .pingpong => .go (sendPingpong s)
  | .duc2Flag => .go (sendDuc2 s)
  | .preActivate => .go (sendMasterAct s)
  | .border => .go (sendBorder s)
  | .ramXWindow => .go (sendRamXWindow s)
  | .ramYWindow => .go (sendRamYWindow s)
  | .ramXCounter => .go (sendRamXCounter s)
  | .ramYCounter => .go (sendRamYCounter s)
  | .gateRam => s.gate .refreshRam
  | .writeBw => .go (sendWriteBw s)
  | .writeRed => .go (sendWriteRed s)
  | .duc2 => .go (sendDuc2 s)
  | .activate => .go (sendMasterAct s)
  | .terminate => .go (sendTerminate s)
  | .clearWarning => .go s.clearWarning
  | .sleep => .go (sendDeepSleep s)
  | .ret => .ended (s.finish .ok 0)

/-- The statement at a position of an operation with the operands `o`. READY holds none. -/
def runWith (o : Operands) (p : Seq) (s : State) : Flow :=
  match p with
  | .ready => .ended s
  | .entry op => runEntry o op s
  | .setup q => runSetup q s
  | .fill q => runFill o q s
  | .setPixel q => runSetPixel o q s
  | .getPixel q => runGetPixel o q s
  | .display q => runDisplay q s
  | .setDsbu q => runSetDsbu q s
  | .readReg q => runReadReg q s

/-- A host operation with the operands `o`, run whole (R3, R262): `DONE <- 0`, `SEQ <- RUNNING(op, first statement)`, then
its statements to its end. -/
def State.runOperation (s : State) (o : Operands) (op : HostOp) : Flow :=
  runSteps (enabledWith o) (runWith o) (operationProgram op) (s.start op)

/-- Whether the running operation's `if` lets a statement run, its operands those of the latched frame. -/
def seqEnabled (p : Seq) (s : State) : Bool := enabledWith (operandsOf s.opf) p s

/-- The statement at a position of the running operation, its operands those of the latched frame (R28). -/
def runStatement (p : Seq) (s : State) : Flow := runWith (operandsOf s.opf) p s

/-- The statements of a sequence, run with the operands of the latched frame. -/
def runList : List Seq → State → Flow := runSteps seqEnabled runStatement

/-- The sequence a position belongs to. -/
def programOf : Seq → List Seq
  | .ready => []
  | .entry op => operationProgram op
  | .setup _ => operationProgram .setup
  | .fill _ => operationProgram .fill
  | .setPixel _ => operationProgram .setPixel
  | .getPixel _ => operationProgram .getPixel
  | .display _ => operationProgram .display
  | .setDsbu _ => operationProgram .setDsbu
  | .readReg _ => operationProgram .readReg

/-- The positions after `p` in its sequence. -/
def laterPositions (p : Seq) : List Seq := ((programOf p).dropWhile (fun q => decide (q ≠ p))).tail

/-- The step pointer moves from `p` to the next statement no `if` passes over (R27). -/
def State.moveOn (s : State) (p : Seq) : State :=
  match (laterPositions p).find? (fun q => seqEnabled q s) with
  | some q => { s with seq := q }
  | none => s

/-- After the statement at `p`: the pointer moves on, or the operation has ended (R27). -/
def Flow.moveOn (p : Seq) : Flow → Flow
  | .go t => .go (t.moveOn p)
  | .ended t => .ended t
  | .fault r => .fault r

/-- The panel command the sequencer sends at a position, if the statement there is one (R103 "sent by"). -/
def commandAtInit : InitStep → Option Instr
  | .swReset => some .swReset
  | .driverOutput => some .driverOutput
  | .booster => some .booster
  | .vcom => some .vcom
  | .dummyLine => some .dummyLine
  | .gateTime => some .gateTime
  | .dataEntry => some .dataEntry
  | .ramOption => some .ramOption
  | _ => none

/-- The panel command the sequencer sends at a position, if the statement there is one (R103 "sent by"). -/
def commandAt : Seq → Option Instr
  | .setup (.init q) => commandAtInit q
  | .display (.wake q) => commandAtInit q
  | .display .lut => some .lut
  | .display .vcom => some .vcom
  | .display .pingpong => some .pingpong
  | .display .duc2Flag => some .duc2
  | .display .preActivate => some .masterAct
  | .display .border => some .border
  | .display .ramXWindow => some .ramXWindow
  | .display .ramYWindow => some .ramYWindow
  | .display .ramXCounter => some .ramXCounter
  | .display .ramYCounter => some .ramYCounter
  | .display .writeBw => some .writeBw
  | .display .writeRed => some .writeRed
  | .display .duc2 => some .duc2
  | .display .activate => some .masterAct
  | .display .terminate => some .terminate
  | .display .sleep => some .deepSleep
  | _ => none

end Sys2Proof.Machine
end

