-- ==== Sys2Proof/Machine/Driver.lean ====
section
/-! DEFINITION. The meanings of the seven host operations: each run whole, from the statement at its entry to its end
(R3, R70, R262), through the one runner `State.runOperation` over the statements of Sequencer.lean. -/

namespace Sys2Proof.Machine

/-- SETUP (R224). -/
def execSetup (s : State) : Host.Outcome State Fault Refusal := (s.runOperation .none .setup).outcome

/-- FILL (R122). -/
def execFill (c : Colour) (s : State) : Host.Outcome State Fault Refusal :=
  (s.runOperation { Operands.none with colour := c } .fill).outcome

/-- SET_PIXEL (R123). -/
def execSetPixel (x y : Int) (c : Colour) (s : State) : Host.Outcome State Fault Refusal :=
  (s.runOperation { Operands.none with x := x, y := y, colour := c } .setPixel).outcome

/-- GET_PIXEL (R124). -/
def execGetPixel (x y : Int) (s : State) : Host.Outcome State Fault Refusal :=
  (s.runOperation { Operands.none with x := x, y := y } .getPixel).outcome

/-- DISPLAY (R226). -/
def execDisplay (s : State) : Host.Outcome State Fault Refusal := (s.runOperation .none .display).outcome

/-- SET_DSBU (R227). -/
def execSetDsbu (b : Bool) (s : State) : Host.Outcome State Fault Refusal :=
  (s.runOperation { Operands.none with bit := b } .setDsbu).outcome

/-- READ_REG (R228). -/
def execReadReg (n : U32) (s : State) : Host.Outcome State Fault Refusal :=
  (s.runOperation { Operands.none with number := n } .readReg).outcome

end Sys2Proof.Machine
end

