-- ==== Sys2Proof/Machine/Dispatch.lean ====
section
/-! DEFINITION. One arm per row of spec/opcode_table.json: each a direct call of that row's meaning. -/

namespace Sys2Proof.Machine

def exec (i : Instr) (s : State) : Host.Outcome State Fault Refusal :=
  match i with
  | .setup => Sys2Proof.Machine.execSetup s
  | .fill c => Sys2Proof.Machine.execFill c s
  | .setPixel x y c => Sys2Proof.Machine.execSetPixel x y c s
  | .getPixel x y => Sys2Proof.Machine.execGetPixel x y s
  | .display => Sys2Proof.Machine.execDisplay s
  | .setDsbu b => Sys2Proof.Machine.execSetDsbu b s
  | .readReg n => Sys2Proof.Machine.execReadReg n s
  | .swReset => Sys2Proof.Machine.execSwReset s
  | .driverOutput => Sys2Proof.Machine.execDriverOutput s
  | .booster => Sys2Proof.Machine.execBooster s
  | .vcom => Sys2Proof.Machine.execVcom s
  | .dummyLine => Sys2Proof.Machine.execDummyLine s
  | .gateTime => Sys2Proof.Machine.execGateTime s
  | .dataEntry => Sys2Proof.Machine.execDataEntry s
  | .ramOption => Sys2Proof.Machine.execRamOption s
  | .lut => Sys2Proof.Machine.execLut s
  | .pingpong => Sys2Proof.Machine.execPingpong s
  | .duc2 => Sys2Proof.Machine.execDuc2 s
  | .masterAct => Sys2Proof.Machine.execMasterAct s
  | .border => Sys2Proof.Machine.execBorder s
  | .ramXWindow => Sys2Proof.Machine.execRamXWindow s
  | .ramYWindow => Sys2Proof.Machine.execRamYWindow s
  | .ramXCounter => Sys2Proof.Machine.execRamXCounter s
  | .ramYCounter => Sys2Proof.Machine.execRamYCounter s
  | .writeBw => Sys2Proof.Machine.execWriteBw s
  | .writeRed => Sys2Proof.Machine.execWriteRed s
  | .terminate => Sys2Proof.Machine.execTerminate s
  | .deepSleep => Sys2Proof.Machine.execDeepSleep s

end Sys2Proof.Machine
end

