-- ==== Sys2Proof/Machine/Fetch.lean ====
section
/-! DEFINITION. What the block runs next (R27, R262): the operation of the frame at the host port when DONE = 1, or the
statement the step pointer is at; and how a word of the opcode table is placed there. -/

namespace Sys2Proof.Machine

/-- What a step finds to do. -/
inductive Fetched where
  /-- READY, and the host presents nothing (R281: the block waits with DONE = 1). -/
  | idle
  /-- A frame with an unassigned selector, taken from the port (R256). -/
  | illegal (s : State)
  /-- A host operation, its frame latched. -/
  | host (i : Instr) (s : State)
  /-- A panel command at the position of the step pointer. -/
  | command (i : Instr) (p : Seq)
  /-- Another statement at the position of the step pointer. -/
  | statement (p : Seq)
  deriving DecidableEq, Repr

/-- R262, R27: a frame is taken only at READY with DONE = 1 and latched into OPF; an illegal one changes nothing but
the results (R85, log entry 14). A running operation takes no frame (I22). -/
def fetch (s : State) : Fetched :=
  match s.seq with
  | .ready =>
    if s.done = false then .idle
    else
      match s.hostIn with
      | [] => .idle
      | f :: rest =>
        match decodeFrame f with
        | .ok i => .host i { s with hostIn := rest, opf := f }
        | .error _ => .illegal { s with hostIn := rest }
  | p =>
    match commandAt p with
    | some i => .command i p
    | none => .statement p

/-- R85, R256: the answer to an illegal frame. -/
def State.answerIllegal (s : State) : State := s.finish .illegalOp 0

/-- After the panel command at position `p` the step pointer moves on (R27). -/
def afterCommand (p : Seq) (o : Host.Outcome State Fault Refusal) : Host.Outcome State Fault Refusal :=
  match o with
  | .next t => .next (t.moveOn p)
  | .fault r => .fault r
  | .refused r => .refused r

/-- A frame at the head of the host port of a block that is ready for it. -/
def State.placeFrame (s : State) (f : Frame) : State :=
  { s with seq := .ready, done := true, hostIn := f :: s.hostIn }

/-- The first position of SETUP's or DISPLAY's sequence that sends a panel command. -/
def positionOf (i : Instr) : Option Seq :=
  (setupProgram ++ displayProgram).find? (fun p => decide (commandAt p = some i))

/-- The step pointer at the first position that sends the panel command of an opcode byte of the table. -/
def State.placeOpcode (s : State) (b : Byte) : State :=
  match decodeOpcode Config.opcodes b with
  | .ok i =>
    match positionOf i with
    | some p => { s with seq := p, done := false }
    | none => s
  | .error _ => s

end Sys2Proof.Machine
end

