-- ==== Sys2Proof/Machine/Step.lean ====
section
/-! DEFINITION. One step of the machine, and the placing of one word of spec/opcode_table.json where the step fetches
its next instruction. A host operation is one step, from the latching of its frame to its end (R3, R70; log entry 12);
inside a running sequence a step is one statement. -/

namespace Sys2Proof.Machine

/-- One step. -/
def step (s : State) : Host.Outcome State Fault Refusal :=
  match fetch s with
  | .idle => .next s
  | .illegal t => .next t.answerIllegal
  | .host i t => exec i t
  | .command i p => afterCommand p (exec i s)
  | .statement p => ((runStatement p s).moveOn p).outcome

/-- The state with the instruction of a table word where `step` fetches its next instruction: a word of 8 bits is a
panel opcode, placed by the step pointer; a longer one is a host frame, placed at the host port. -/
def State.withFetchWord (s : State) (nbits w : Nat) : State :=
  if nbits ≤ 8 then s.placeOpcode (BitVec.ofNat 8 w) else s.placeFrame (BitVec.ofNat 72 w)

end Sys2Proof.Machine
end

