-- ==== Sys2Proof/Safety.lean ====
section
/-! DEFINITION. The terms claims are stated in: the invariant of every reachable state, the reading of a trace as link
bytes and panel commands (R89, R90), the transaction discipline (R71, R176), the abstract panel view (R266), and the
traces of the spec's examples for a panel that reports idle (R190, R200, R224, R226). -/

namespace Sys2Proof.Machine

/-! ## Reading a trace -/

/-- R90: the bytes of a trace with the DC level each was sent under; `dc` is the level before the trace. -/
def linkBytes (dc : Bool) : List Event → List (Bool × Byte)
  | [] => []
  | .line .dc v :: es => linkBytes v es
  | .tx b :: es => (dc, b) :: linkBytes dc es
  | _ :: es => linkBytes dc es

/-- R90: the DC level after a trace. -/
def dcAfter (dc : Bool) : List Event → Bool
  | [] => dc
  | .line .dc v :: es => dcAfter v es
  | _ :: es => dcAfter dc es

/-- R89: the command bytes of a trace, those sent with DC = 0. -/
def commandBytes (tr : List Event) : List Byte :=
  ((linkBytes false tr).filter (fun p => !p.1)).map Prod.snd

/-- R90: link bytes grouped into commands, an opcode with the data bytes up to the next opcode. -/
def groupCommands : List (Bool × Byte) → List (Byte × List Byte)
  | [] => []
  | (false, b) :: rest => (b, (rest.takeWhile (fun p => p.1)).map Prod.snd) :: groupCommands rest
  | (true, _) :: rest => groupCommands rest

/-- R90: the panel commands of a trace in order, each with its payload. -/
def commandsSent (tr : List Event) : List (Byte × List Byte) := groupCommands (linkBytes false tr)

/-- R266: what the abstract panel's RAM behind an opcode holds, the payload of the last such command. -/
def panelRam (opcode : Byte) (tr : List Event) : Option (List Byte) :=
  (((commandsSent tr).filter (fun c => decide (c.1 = opcode))).getLast?).map Prod.snd

/-- R71, R176: how an event moves the transaction state (open or not); none once the discipline is broken. Inside a
transaction stand only `tx` and the DC change of `CmdDat` (R172). -/
def csTrack : Option Bool → Event → Option Bool
  | some false, .cs true => some true
  | some false, .cs false => none
  | some false, .tx _ => none
  | some false, _ => some false
  | some true, .cs false => some false
  | some true, .tx _ => some true
  | some true, .line .dc _ => some true
  | some true, _ => none
  | none, _ => none

/-- R71: every `cs(1)` has its own `cs(0)` before the next, and every `tx` lies between them. -/
def framed (tr : List Event) : Prop := tr.foldl csTrack (some false) = some false

/-- The events a busy gate can append (R153): none drives a line or sends a byte. -/
def Event.quiet : Event → Bool
  | .busy _ => true
  | .now _ => true
  | .sleep _ => true
  | .wdt => true
  | .yield => true
  | .log _ => true
  | .cfg _ _ => false
  | .line _ _ => false
  | .cs _ => false
  | .tx _ => false

/-- R150: the last time read, the sleeps since and whether every read so far kept the time axiom (wherever the sleeps
alone left room for one that does), after one more event. -/
def timeTrack : Option U32 × Nat × Bool → Event → Option U32 × Nat × Bool
  | (last, slept, kept), .now t => (some t, 0, kept && timeConforms last slept t)
  | (last, slept, kept), .sleep d => (last, slept + d.toNat, kept)
  | a, _ => a

/-- R150: every time read in the trace kept the time axiom from the read before it on, across gates and operations, and
the state's account of the last read and the sleeps since is the trace's. -/
def State.timeKept (s : State) : Prop := s.tr.foldl timeTrack (none, 0, true) = (s.lastNow, s.slept, true)

/-! ## Invariants -/

/-- The positions of SET_PIXEL and GET_PIXEL behind the range check (R123, R124). -/
def pastRangeCheck : Seq → Bool
  | .setPixel .planes => true
  | .setPixel .offset => true
  | .setPixel .mask => true
  | .setPixel .plane1 => true
  | .setPixel .plane2 => true
  | .setPixel .ret => true
  | .getPixel .offset => true
  | .getPixel .mask => true
  | .getPixel .bit1 => true
  | .getPixel .bit2 => true
  | .getPixel .value => true
  | .getPixel .ret => true
  | _ => false

/-- R123, R124: behind the range check the latched frame's pixel is in range. -/
def State.pixelInside (s : State) : Prop :=
  pastRangeCheck s.seq = true → s.params.inRange (operandsOf s.opf).x (operandsOf s.opf).y = true

/-- The positions of `Init` behind its first statement (R190). -/
def insideInit : Seq → Bool
  | .setup (.init p) => decide (p ≠ .start)
  | .display (.wake p) => decide (p ≠ .start)
  | _ => false

/-- R36: `AT_UPDATE < N`, or 0 when `N = 0`. -/
def State.cadenceOk (s : State) : Prop :=
  (s.params.n = 0 → s.atUpdate = 0) ∧ (s.params.n ≠ 0 → s.atUpdate < s.params.n)

/-- What every reachable state satisfies. -/
structure State.Inv (s : State) : Prop where
  /-- the framebuffer is canonical -/
  fbWf : s.fb.wf
  /-- no cell outside `0 .. L-1` (R60, R61) -/
  fbRange : ∀ c ∈ s.fb, c.1 < s.params.bufLen
  /-- R36 -/
  cadence : s.cadenceOk
  /-- R250: codes 5 to 7 are never produced -/
  status : s.resStatus.toNat ≤ 4
  /-- R176: no transaction is open between operations and statements -/
  csLow : s.cs = false
  /-- R28: DONE is 1 exactly when SEQ is READY -/
  doneReady : s.done = true ↔ s.seq = .ready
  /-- R71, R176 -/
  traceFramed : framed s.tr
  /-- R123, R124 -/
  pixelInside : s.pixelInside
  /-- R190, R40: from its first statement to its last, `Init` holds PANEL_STATE at UNINITIALIZED -/
  initPanel : insideInit s.seq = true → s.panelState = .uninitialized

/-- R88: no pixel, in range or not, holds the reserved code `0b01`: a plane-2 bit is set only under a plane-1 bit. -/
def State.noReservedCode (s : State) : Prop :=
  ∀ i, i < s.params.half → s.fb.read (s.params.half + i) &&& ~~~(s.fb.read i) = 0

/-- The state with the plane-2 write that FILL or SET_PIXEL, its plane-1 write done, is about to execute; any other state
itself. -/
def State.settled (s : State) : State :=
  let o := operandsOf s.opf
  match s.seq with
  | .fill .plane2 => s.fillPlane s.params.half (planes (classify o.colour)).2
  | .setPixel .plane2 => s.plotPlane (s.params.half + s.pixelByte o) o.x.toNat (planes (classify o.colour)).2
  | _ => s

/-- R105: every command byte of the trace is one of the 21 opcodes. -/
def State.knownCommands (s : State) : Prop := ∀ b ∈ commandBytes s.tr, b ∈ s.params.opc.all

/-! ## The traces of an idle panel -/

/-- BUSY reads inactive at the next `k` samples, where there is a busy line. -/
def State.idleFor (s : State) (k : Nat) : Prop :=
  s.params.hasBusy = true → ∃ rest, s.busyIn = List.replicate k (!s.params.busyActiveLevel) ++ rest

/-- The BUSY levels left after `k` samples. -/
def State.busyLeft (s : State) (k : Nat) : List Bool := if s.params.hasBusy then s.busyIn.drop k else s.busyIn

/-- The milliseconds of `HwReset`'s two sleeps (R177). -/
def pulseMs (p : ParamRecord) : Nat := if p.hasRst then p.tRstLowMs.toNat + p.tRstHighMs.toNat else 0

/-- The opcodes `Init` sends, in order (R190). -/
def initOpcodes (p : ParamRecord) : List Byte :=
  [p.opc.swReset, p.opc.driverOutput, p.opc.booster, p.opc.vcom, p.opc.dummyLine, p.opc.gateTime, p.opc.dataEntry,
   p.opc.ramOption]

/-- The statements of DISPLAY's step 1 (R226). -/
def wakeProgram : List Seq := initSteps.map (fun p => .display (.wake p))

/-- A gate that passes at its first sample (R153). -/
def traceGate (p : ParamRecord) : List Event := if p.hasBusy then [.busy (!p.busyActiveLevel)] else []

/-- R153: what an iteration of the gate's loop that does not return appends, its time read `x`, the loop entered at `start`:
an active sample, the read, the long-wait log if the elapsed time exceeds LONG_WAIT_MS, then `wdt`, `yield` and the sleep. -/
def tracePoll (p : ParamRecord) (start x : U32) : List Event :=
  [Event.busy p.busyActiveLevel, Event.now x] ++ (if p.longWaitMs < x - start then [Event.log .longWait] else [])
    ++ [Event.wdt, Event.yield, Event.sleep p.pollMs]

/-- R153: what the iteration that returns appends: an inactive sample if the gate passes, else an active one, the read `x`
and the timeout log. -/
def traceReturn (p : ParamRecord) (ok : Bool) (x : U32) : List Event :=
  if ok then [Event.busy (!p.busyActiveLevel)]
  else [Event.busy p.busyActiveLevel, Event.now x, Event.log .idleTimeout]

/-- R190 (example): `Init` with BUSY idle at every first sample. -/
def traceInit (p : ParamRecord) : List Event :=
  (if p.hasRst then
      [Event.line .rst false, Event.sleep p.tRstLowMs, Event.line .rst true, Event.sleep p.tRstHighMs] else [])
    ++ traceGate p ++ evCmd p.opc.swReset ++ traceGate p
    ++ evCmd p.opc.driverOutput ++ evDat (p.heightBytes ++ [p.cal.docMode])
    ++ evCmd p.opc.booster ++ evDat p.cal.booster.toList
    ++ evCmd p.opc.vcom ++ evDat [p.cal.vcomInit]
    ++ evCmd p.opc.dummyLine ++ evDat [p.cal.dummyLine]
    ++ evCmd p.opc.gateTime ++ evDat [p.cal.gateTime]
    ++ evCmd p.opc.dataEntry ++ evDat [p.cal.dataEntry]
    ++ evCmd p.opc.ramOption ++ evDat p.cal.ramOption.toList

/-- R224 (example): SETUP with BUSY idle. -/
def traceSetup (p : ParamRecord) : List Event :=
  [Event.cfg .dc .out] ++ (if p.hasRst then [Event.cfg .rst .out, Event.line .rst true] else [])
    ++ (if p.hasBusy then [Event.cfg .busy .input] else []) ++ traceInit p

/-- R226 steps 4 to 9: what a refresh at counter value `a` sends before its second gate. -/
def traceBeforeRam (p : ParamRecord) (a : U32) : List Event :=
  (if p.n ≠ 0 ∧ a = 0 then evCmdDat 0x32 p.lutFull
    else if p.n ≠ 0 ∧ a = 1 then evCmdDat 0x32 p.lutPartial else [])
    ++ evCmd p.opc.vcom ++ evDat [if a = 0 then p.cal.vcomFull else p.cal.vcomPartial]
    ++ (if a = 0 then [] else evCmd p.opc.pingpong ++ evDat p.cal.pingpong.toList
          ++ evCmd p.opc.duc2 ++ evDat [p.cal.duc2PartialFlag] ++ evCmd 0x20)
    ++ evCmd p.opc.border ++ evDat [if a = 0 then p.cal.borderFull else p.cal.borderPartial]
    ++ evCmd p.opc.ramXWindow ++ evDat [0x00, p.windowEndX]
    ++ evCmd p.opc.ramYWindow ++ evDat ([0x00, 0x00] ++ p.heightBytes)
    ++ evCmd p.opc.ramXCounter ++ evDat [0x00]
    ++ evCmd p.opc.ramYCounter ++ evDat [0x00, 0x00]

/-- R226 steps 11 and 12: the stream of both planes and the activation. -/
def traceStream (p : ParamRecord) (fb : Memory) (a : U32) : List Event :=
  evCmd 0x24 ++ evDat (fb.readBytes 0 p.half) ++ evCmd 0x26 ++ evDat (fb.readBytes p.half p.half)
    ++ evCmd p.opc.duc2 ++ evDat [if a = 0 then p.cal.duc2Full else p.cal.duc2Partial]
    ++ evCmd 0x20 ++ evCmd 0xFF

/-- R189: the panel sleep. -/
def traceSleep (p : ParamRecord) : List Event :=
  evCmd p.opc.deepSleep ++ (if p.cal.sleepData = [] then [] else evDat p.cal.sleepData)

/-- R226: a whole DISPLAY with BUSY idle at every first sample. -/
def traceDisplay (s : State) : List Event :=
  (if s.dsbu then traceInit s.params.toParamRecord else [])
    ++ traceGate s.params.toParamRecord ++ traceBeforeRam s.params.toParamRecord s.atUpdate
    ++ traceGate s.params.toParamRecord ++ traceStream s.params.toParamRecord s.fb s.atUpdate
    ++ (if s.dsbu then traceSleep s.params.toParamRecord else [])

end Sys2Proof.Machine
end

