-- ==== Sys2Proof/Certificates/Slice0/Obligations.lean ====
section
/-! DEFINITION. The statements for the provers, each a claim of the spec's numbered rules about `exec`, `step` or a
shared operation of the model. OBLIGATIONS.json lists them. -/

open Sys2Proof Sys2Proof.Machine

/-! ## Reset, construction and the host port -/

/-- R280: the values the reset table states, for an instance of any valid record. The values of DC_LVL, RST_LVL, OPF,
BG_START, FULL and PREV, which the table leaves unspecified, are not stated. -/
def Obligations.ResetLeavesTheStatedValues : Prop :=
  ∀ p : Params,
    (State.construct p).params = p
    ∧ (∀ i, (State.construct p).fb.read i = 0x00) ∧ (State.construct p).atUpdate = 0
    ∧ (State.construct p).warning = false ∧ (State.construct p).dsbu = false
    ∧ (State.construct p).panelState = .uninitialized ∧ (State.construct p).setupDone = false
    ∧ (State.construct p).seq = .ready ∧ (State.construct p).done = true
    ∧ (State.construct p).resStatus = 0 ∧ (State.construct p).resValue = 0 ∧ (State.construct p).cs = false
    ∧ (State.construct p).dirDc = .unconfigured ∧ (State.construct p).dirRst = .unconfigured
    ∧ (State.construct p).dirBusy = .unconfigured ∧ (State.construct p).tr = []
    ∧ State.reset = State.construct Config.params

/-- R9, R254: a record that breaks a check has no instance; one that breaks none, with 21 distinct opcodes (R101), has
one, in its reset state; one that breaks none but has two equal opcodes is refused (I1, log entry 3). -/
def Obligations.ConstructionRefusesBadRecords : Prop :=
  ∀ r : ParamRecord,
    (¬ (r.cw.toNat % 8 = 0 ∧ 8 ≤ r.cw.toNat ∧ r.cw.toNat ≤ 2048 ∧ 1 ≤ r.vw.toNat ∧ r.vw.toNat ≤ r.cw.toNat
        ∧ 1 ≤ r.h.toNat ∧ r.h.toNat ≤ 65536 ∧ r.lutFull.length = 70 ∧ r.lutPartial.length = 70
        ∧ 1 ≤ r.pollMs.toNat ∧ r.idleTimeoutMs.toNat + r.pollMs.toNat < 2 ^ 31) →
      State.build r = .refused .misconfigured)
    ∧ (r.cw.toNat % 8 = 0 ∧ 8 ≤ r.cw.toNat ∧ r.cw.toNat ≤ 2048 ∧ 1 ≤ r.vw.toNat ∧ r.vw.toNat ≤ r.cw.toNat
        ∧ 1 ≤ r.h.toNat ∧ r.h.toNat ≤ 65536 ∧ r.lutFull.length = 70 ∧ r.lutPartial.length = 70
        ∧ 1 ≤ r.pollMs.toNat ∧ r.idleTimeoutMs.toNat + r.pollMs.toNat < 2 ^ 31 ∧ r.opc.all.Nodup →
      ∃ p : Params, p.toParamRecord = r ∧ State.build r = .next (State.construct p))
    ∧ (¬ r.opc.all.Nodup → State.build r = .refused .misconfigured)

/-- R281: a block with nothing at its host port waits, emitting no event, and so does a block right after reset. The
list `hostIn` of frames still to come is the model's (log entry 13). -/
def Obligations.ReadyBlockWaits : Prop :=
  (∀ s : State, s.seq = .ready → s.hostIn = [] → step s = .next s)
  ∧ ∀ p : Params, step (State.construct p) = .next (State.construct p)

/-- R262, R80: a READY block with DONE = 1 takes the frame at its port, latches it into OPF and runs the operation it
decodes to. -/
def Obligations.StepRunsTheFrameAtThePort : Prop :=
  ∀ (s : State) (f : Frame) (rest : List Frame) (i : Instr),
    s.seq = .ready → s.done = true → s.hostIn = f :: rest → decodeFrame f = .ok i →
    step s = exec i { s with hostIn := rest, opf := f }

/-- R27, R103: inside a running operation a step at a position that sends a panel command is that command's `exec`, the
step pointer moved on after it; at any other position, that of the first statement among them, it is the statement
there. -/
def Obligations.StepRunsTheCommandAtThePointer : Prop :=
  (∀ (s : State) (p : Seq) (i : Instr), s.seq = p → commandAt p = some i →
    step s = match exec i s with
      | .next t => .next (t.moveOn p)
      | .fault r => .fault r
      | .refused r => .refused r)
  ∧ (∀ (s : State) (p : Seq), s.seq = p → commandAt p = none → p ≠ .ready →
    step s = match runStatement p s with
      | .go t => .next (t.moveOn p)
      | .ended t => .next t
      | .fault r => .fault r)

/-- R262, I22: while an operation runs the block takes no frame; while it is READY with DONE = 1 and a frame is there,
it takes exactly one. -/
def Obligations.FramesAreTakenOnlyWhenReady : Prop :=
  ∀ s t : State, step s = .next t →
    (s.seq ≠ .ready → t.hostIn = s.hostIn) ∧ (s.seq = .ready → s.done = false → t.hostIn = s.hostIn)
    ∧ (s.seq = .ready → s.done = true → t.hostIn = s.hostIn.tail)

/-- R85, R256: a frame with `OP = 0x00` or `OP >= 0x08` is answered ILLEGAL_OP (2) with value 0 and changes no other
state and emits no event, in either lifecycle state (R257). -/
def Obligations.IllegalFrameIsAnswered : Prop :=
  ∀ (s : State) (f : Frame) (rest : List Frame),
    s.seq = .ready → s.done = true → s.hostIn = f :: rest →
    (frameOp f = 0x00 ∨ 0x08 ≤ (frameOp f).toNat) →
    step s = .next { s with hostIn := rest, resStatus := 2, resValue := 0 }

/-- R255: SETUP when SETUP_DONE = 1, and FILL, SET_PIXEL, GET_PIXEL, DISPLAY when SETUP_DONE = 0, return SEQ_ERROR (4)
with no other effect and no event; SET_DSBU and READ_REG are accepted in either state. -/
def Obligations.SeqErrorIsAnswered : Prop :=
  (∀ s : State, s.setupDone = true →
    exec .setup s = .next { s with seq := .ready, done := true, resStatus := 4, resValue := 0 })
  ∧ (∀ (s : State) (i : Instr), s.setupDone = false →
    ((∃ c, i = .fill c) ∨ (∃ x y c, i = .setPixel x y c) ∨ (∃ x y, i = .getPixel x y) ∨ i = .display) →
    exec i s = .next { s with seq := .ready, done := true, resStatus := 4, resValue := 0 })
  ∧ (∀ (s : State) (i : Instr), ((∃ b, i = .setDsbu b) ∨ (∃ n, i = .readReg n)) →
    ∃ t, exec i s = .next t ∧ t.resStatus ≠ 4)

/-- R250, R154: every host operation ends, in every state and on every operand, with READY, DONE = 1 and one of the
status codes 0 to 4. The busy gate's end rests on the time axiom, which the model's draws keep (log entry 10). -/
def Obligations.EveryHostOperationEnds : Prop :=
  ∀ (s : State) (i : Instr),
    (i = .setup ∨ (∃ c, i = .fill c) ∨ (∃ x y c, i = .setPixel x y c) ∨ (∃ x y, i = .getPixel x y) ∨ i = .display
      ∨ (∃ b, i = .setDsbu b) ∨ (∃ n, i = .readReg n)) →
    ∃ t, exec i s = .next t ∧ t.seq = .ready ∧ t.done = true ∧ t.resStatus.toNat ≤ 4

/-- R61: no rule forms an index outside the framebuffer: no instruction faults or is refused in any state, and no step does
of a state that meets the part `pixelInside` of the invariant (which `EveryStepKeepsTheInvariant` keeps). -/
def Obligations.EveryStateSteps : Prop :=
  (∀ (s : State) (i : Instr), ∃ t, exec i s = .next t) ∧ ∀ s : State, s.pixelInside → ∃ t, step s = .next t

/-! ## Encodings -/

/-- R80–R84, R101: decoding an encoded well-formed instruction gives it back, for all 28 rows, every operand value and
any 21 distinct opcodes. -/
def Obligations.DecodeOfEncodeIsTheInstruction : Prop :=
  ∀ (o : Opcodes) (i : Instr), o.distinct = true → i.wf = true → decode o (encode o i) = .ok i

/-- R80, R81: bits an operation does not read are ignored: two frames with one selector that agree on the fields that
selector reads decode to the same. -/
def Obligations.UnreadFrameBitsAreIgnored : Prop :=
  ∀ f g : Frame, frameOp f = frameOp g →
    (frameOp f = 0x02 ∨ frameOp f = 0x03 → frameB f = frameB g) →
    (frameOp f = 0x03 ∨ frameOp f = 0x04 ∨ frameOp f = 0x07 → frameA f = frameA g) →
    (frameOp f = 0x06 → f.getLsbD 0 = g.getLsbD 0) →
    decodeFrame f = decodeFrame g

/-- R101: an opcode byte names a panel command exactly when it is that command's opcode. -/
def Obligations.OpcodeNamesItsCommand : Prop :=
  ∀ (o : Opcodes) (b : Byte) (i : Instr), o.distinct = true →
    (decodeOpcode o b = .ok i ↔ opcodeOf o i = some b)

/-- Words written out from the spec (R106 and sets 2.3, 2.10 of spec/95_test_vectors.md, R101) decode to what they
stand for. -/
def Obligations.SpecWordsDecode : Prop :=
  decodeFrame 0x0300020009FF000000 = .ok (.setPixel 9 2 ⟨0xFF, 0x00, 0x00, 0x00⟩)
  ∧ decodeFrame 0x030000FFFF00000000 = .ok (.setPixel (-1) 0 ⟨0x00, 0x00, 0x00, 0x00⟩)
  ∧ decodeFrame 0x047FFF800000000000 = .ok (.getPixel (-32768) 32767)
  ∧ decodeFrame 0x06FFFFFFFFFFFFFFFE = .ok (.setDsbu false)
  ∧ decodeFrame 0x070000000600000000 = .ok (.readReg 6)
  ∧ decodeOpcode Config.opcodes 0x24 = .ok .writeBw ∧ decodeOpcode Config.opcodes 0xFF = .ok .terminate

/-! ## Framebuffer and pixels -/

/-- R61: a byte write replaces the byte at its index and no other, and keeps the canonical form. -/
def Obligations.ByteWriteReadsBack : Prop :=
  ∀ (m : Memory) (i : Nat) (v : Byte), m.wf →
    (m.write i v).wf ∧ (m.write i v).read i = v ∧ ∀ j, j ≠ i → (m.write i v).read j = m.read j

/-- R62: `MemWrite(i, n, v)` is the byte writes `FB[i+k] <- v[k]` in ascending `k`. -/
def Obligations.MemWriteIsAscendingByteWrites : Prop :=
  ∀ (m : Memory) (i : Nat) (v : List Byte), m.wf →
    m.writeBytes i v = (v.zipIdx).foldl (fun n c => n.write (i + c.2) c.1) m

/-- R120: `classify`, first match wins: BLACK exactly for the all-255 colour, RED exactly where red > 0 and green and
blue are 0, WHITE otherwise. -/
def Obligations.ClassifyIsThePartition : Prop :=
  ∀ c : Colour,
    (classify c = .black ↔ c.white = 255 ∧ c.red = 255 ∧ c.green = 255 ∧ c.blue = 255)
    ∧ (classify c = .red ↔ 0 < c.red.toNat ∧ c.green = 0 ∧ c.blue = 0)
    ∧ (classify c = .white ↔
        ¬ (c.white = 255 ∧ c.red = 255 ∧ c.green = 255 ∧ c.blue = 255)
        ∧ ¬ (0 < c.red.toNat ∧ c.green = 0 ∧ c.blue = 0))

/-- R122 with its frame: after SETUP, FILL sets every byte of both planes to the bytes R87 gives the class and leaves
everything else; before SETUP it is SEQ_ERROR. Its colour is the `B` field of its frame. -/
def Obligations.FillSetsBothPlanes : Prop :=
  (∀ f : Frame, frameOp f = 0x02 → decodeFrame f =
    .ok (.fill ⟨f.extractLsb' 24 8, f.extractLsb' 16 8, f.extractLsb' 8 8, f.extractLsb' 0 8⟩))
  ∧ ∀ (s : State) (c : Colour),
    (s.setupDone = true → ∃ t,
      exec (.fill c) s = .next t
      ∧ t = { s with fb := t.fb, seq := .ready, done := true, resStatus := 0, resValue := 0 }
      ∧ (∀ i, i < s.params.half → t.fb.read i = if classify c = .black then 0x00 else 0xFF)
      ∧ (∀ i, s.params.half ≤ i → i < s.params.bufLen → t.fb.read i = if classify c = .red then 0xFF else 0x00)
      ∧ (∀ i, s.params.bufLen ≤ i → t.fb.read i = s.fb.read i))
    ∧ (s.setupDone = false →
      exec (.fill c) s = .next { s with seq := .ready, done := true, resStatus := 4, resValue := 0 })

/-- R123 and R252 with their frame. In range after SETUP: the bit `0x80 >> (x & 7)` of byte `(x + y*CW)/8` of each plane
becomes the class's plane bit, every other bit and byte stays. Out of range after SETUP: OK and nothing else. Before
SETUP: SEQ_ERROR. Its operands are the frame's sign-extended halves of `A` and the colour in `B`. -/
def Obligations.SetPixelSetsOnePixel : Prop :=
  (∀ f : Frame, frameOp f = 0x03 → decodeFrame f =
    .ok (.setPixel (f.extractLsb' 32 16).toInt (f.extractLsb' 48 16).toInt
      ⟨f.extractLsb' 24 8, f.extractLsb' 16 8, f.extractLsb' 8 8, f.extractLsb' 0 8⟩))
  ∧ ∀ (s : State) (x y : Int) (c : Colour), s.fb.wf →
    (s.setupDone = true → 0 ≤ x → x < s.params.vw.toNat → 0 ≤ y → y < s.params.h.toNat → ∃ t,
      exec (.setPixel x y c) s = .next t
      ∧ t = { s with fb := t.fb, seq := .ready, done := true, resStatus := 0, resValue := 0 }
      ∧ ∀ i,
        t.fb.read i =
          if i = (x.toNat + y.toNat * s.params.cw.toNat) / 8 then
            (if classify c = .black then s.fb.read i &&& ~~~((0x80 : Byte) >>> (x.toNat % 8))
              else s.fb.read i ||| ((0x80 : Byte) >>> (x.toNat % 8)))
          else if i = s.params.half + (x.toNat + y.toNat * s.params.cw.toNat) / 8 then
            (if classify c = .red then s.fb.read i ||| ((0x80 : Byte) >>> (x.toNat % 8))
              else s.fb.read i &&& ~~~((0x80 : Byte) >>> (x.toNat % 8)))
          else s.fb.read i)
    ∧ (s.setupDone = true → ¬ (0 ≤ x ∧ x < s.params.vw.toNat ∧ 0 ≤ y ∧ y < s.params.h.toNat) →
      exec (.setPixel x y c) s = .next { s with seq := .ready, done := true, resStatus := 0, resValue := 0 })
    ∧ (s.setupDone = false →
      exec (.setPixel x y c) s = .next { s with seq := .ready, done := true, resStatus := 4, resValue := 0 })

/-- R124 with its frame: in range after SETUP the result is `(p1 << 1) | p2` of the two plane bits, out of range
OUT_OF_RANGE (3) and 0, before SETUP SEQ_ERROR; nothing but the results changes. Its operands are the sign-extended halves of `A`. -/
def Obligations.GetPixelReturnsThePlaneCode : Prop :=
  (∀ f : Frame, frameOp f = 0x04 → decodeFrame f =
    .ok (.getPixel (f.extractLsb' 32 16).toInt (f.extractLsb' 48 16).toInt))
  ∧ ∀ (s : State) (x y : Int),
    (s.setupDone = true → 0 ≤ x → x < s.params.vw.toNat → 0 ≤ y → y < s.params.h.toNat →
      exec (.getPixel x y) s = .next
        { s with
          seq := .ready
          done := true
          resStatus := 0
          resValue :=
            (if (s.fb.read ((x.toNat + y.toNat * s.params.cw.toNat) / 8)).getLsbD (7 - x.toNat % 8) then 2 else 0)
            + (if (s.fb.read (s.params.half + (x.toNat + y.toNat * s.params.cw.toNat) / 8)).getLsbD (7 - x.toNat % 8)
                then 1 else 0) })
    ∧ (s.setupDone = true → ¬ (0 ≤ x ∧ x < s.params.vw.toNat ∧ 0 ≤ y ∧ y < s.params.h.toNat) →
      exec (.getPixel x y) s = .next { s with seq := .ready, done := true, resStatus := 3, resValue := 0 })
    ∧ (s.setupDone = false →
      exec (.getPixel x y) s = .next { s with seq := .ready, done := true, resStatus := 4, resValue := 0 })

/-- R126: after SET_PIXEL at an in-range pixel, and after FILL, GET_PIXEL there returns OK and the code of the
colour's class (R87: BLACK 0, WHITE 2, RED 3). -/
def Obligations.DrawnPixelReadsBack : Prop :=
  ∀ (s t : State) (x y : Int) (c : Colour), s.fb.wf → s.setupDone = true →
    0 ≤ x → x < s.params.vw.toNat → 0 ≤ y → y < s.params.h.toNat →
    (exec (.setPixel x y c) s = .next t ∨ exec (.fill c) s = .next t) →
    exec (.getPixel x y) t = .next
      { t with
        seq := .ready
        done := true
        resStatus := 0
        resValue := match classify c with
          | .black => 0
          | .white => 2
          | .red => 3 }

/-- R125: FILL and SET_PIXEL of one colour leave the same plane bits at every in-range pixel, those of the class. -/
def Obligations.FillAgreesWithSetPixel : Prop :=
  ∀ (s t u : State) (x y : Nat) (c : Colour), s.fb.wf → s.setupDone = true →
    x < s.params.vw.toNat → y < s.params.h.toNat →
    exec (.fill c) s = .next t → exec (.setPixel x y c) s = .next u →
    t.pixelPlanes x y = planes (classify c) ∧ u.pixelPlanes x y = planes (classify c)

/-- R127: SET_PIXEL at `(x, y)` changes no plane bit of any other pixel of the controller's area. -/
def Obligations.SetPixelTouchesNoOtherPixel : Prop :=
  ∀ (s t : State) (x y : Int) (c : Colour) (x' y' : Nat), s.fb.wf →
    x' < s.params.cw.toNat → y' < s.params.h.toNat → ((x' : Int) ≠ x ∨ (y' : Int) ≠ y) →
    exec (.setPixel x y c) s = .next t → t.pixelPlanes x' y' = s.pixelPlanes x' y'

/-! ## Register operations -/

/-- R227 with its frame: `DSBU <- F[0]`, OK, in either lifecycle state, and nothing else. -/
def Obligations.SetDsbuWritesDsbu : Prop :=
  (∀ f : Frame, frameOp f = 0x06 → decodeFrame f = .ok (.setDsbu (f.getLsbD 0)))
  ∧ ∀ (s : State) (b : Bool),
    exec (.setDsbu b) s = .next { s with dsbu := b, seq := .ready, done := true, resStatus := 0, resValue := 0 }

/-- R228, R34, R35 with their frame: the eight registers by number, STATUS by its fields, OUT_OF_RANGE (3) and 0 for any
other number; nothing but the results changes. The register number is the frame's whole `A` field. -/
def Obligations.ReadRegReturnsTheRegister : Prop :=
  (∀ f : Frame, frameOp f = 0x07 → decodeFrame f = .ok (.readReg (f.extractLsb' 32 32)))
  ∧ ∀ (s : State) (n : U32), ∃ t,
    exec (.readReg n) s = .next t
    ∧ t = { s with seq := .ready, done := true, resStatus := t.resStatus, resValue := t.resValue }
    ∧ (n.toNat < 8 → t.resStatus = 0) ∧ (8 ≤ n.toNat → t.resStatus = 3 ∧ t.resValue = 0)
    ∧ (n = 0 →
        t.resValue.getLsbD 0 = s.warning
        ∧ t.resValue.extractLsb' 1 2 =
            (match s.panelState with
              | .uninitialized => 0b00
              | .idle => 0b01
              | .busy => 0b10
              | .sleeping => 0b11)
        ∧ t.resValue.getLsbD 3 = s.setupDone ∧ t.resValue.getLsbD 4 = s.dsbu
        ∧ t.resValue.getLsbD 5 = s.params.hasBusy ∧ t.resValue.getLsbD 6 = s.params.hasRst
        ∧ ∀ k, 7 ≤ k → t.resValue.getLsbD k = false)
    ∧ (n = 1 → t.resValue = s.atUpdate) ∧ (n = 2 → t.resValue = s.params.n)
    ∧ (n = 3 → t.resValue.toNat = s.params.vw.toNat) ∧ (n = 4 → t.resValue.toNat = s.params.cw.toNat)
    ∧ (n = 5 → t.resValue = s.params.h)
    ∧ (n = 6 → t.resValue.toNat = s.params.cw.toNat * s.params.h.toNat / 4)
    ∧ (n = 7 → t.resValue = s.params.idleTimeoutMs)

/-! ## Panel commands -/

/-- R178, R179, R180, R182, R183, R191, R192 with their frame: what each initialisation command sends (`CMD` then one
`DAT`), and nothing else. -/
def Obligations.InitCommandsSendTheirPayload : Prop :=
  ∀ s : State,
    exec .swReset s = .next { s with dcLvl := false, cs := false, tr := s.tr ++ evCmd s.params.opc.swReset }
    ∧ exec .driverOutput s = .next
        { s with
          dcLvl := true
          cs := false
          tr := s.tr ++ evCmd s.params.opc.driverOutput
            ++ evDat [BitVec.ofNat 8 ((s.params.h.toNat - 1) % 256), BitVec.ofNat 8 ((s.params.h.toNat - 1) / 256),
                s.params.cal.docMode] }
    ∧ exec .booster s = .next
        { s with
          dcLvl := true
          cs := false
          tr := s.tr ++ evCmd s.params.opc.booster
            ++ evDat [s.params.cal.booster[0], s.params.cal.booster[1], s.params.cal.booster[2]] }
    ∧ exec .dummyLine s = .next
        { s with
          dcLvl := true, cs := false,
          tr := s.tr ++ evCmd s.params.opc.dummyLine ++ evDat [s.params.cal.dummyLine] }
    ∧ exec .gateTime s = .next
        { s with
          dcLvl := true, cs := false,
          tr := s.tr ++ evCmd s.params.opc.gateTime ++ evDat [s.params.cal.gateTime] }
    ∧ exec .dataEntry s = .next
        { s with
          dcLvl := true, cs := false,
          tr := s.tr ++ evCmd s.params.opc.dataEntry ++ evDat [s.params.cal.dataEntry] }
    ∧ exec .ramOption s = .next
        { s with
          dcLvl := true
          cs := false
          tr := s.tr ++ evCmd s.params.opc.ramOption
            ++ evDat [s.params.cal.ramOption[0], s.params.cal.ramOption[1]] }

/-- R181, R188, R193, R194, R195 with their frame: the commands whose payload depends on the position and the mode. -/
def Obligations.ModeCommandsSendTheModesBytes : Prop :=
  ∀ s : State,
    (∀ q, (s.seq = .setup (.init q) ∨ s.seq = .display (.wake q)) → exec .vcom s = .next
        { s with dcLvl := true, cs := false, tr := s.tr ++ evCmd s.params.opc.vcom ++ evDat [s.params.cal.vcomInit] })
    ∧ ((∀ q, s.seq ≠ .setup (.init q) ∧ s.seq ≠ .display (.wake q)) → exec .vcom s = .next
        { s with
          dcLvl := true
          cs := false
          tr := s.tr ++ evCmd s.params.opc.vcom
            ++ evDat [if s.full = true then s.params.cal.vcomFull else s.params.cal.vcomPartial] })
    ∧ exec .lut s = .next
        { s with
          dcLvl := true, cs := false,
          tr := s.tr ++ evCmdDat 0x32 (if s.full = true then s.params.lutFull else s.params.lutPartial) }
    ∧ exec .pingpong s = .next
        { s with
          dcLvl := true
          cs := false
          tr := s.tr ++ evCmd s.params.opc.pingpong
            ++ evDat [s.params.cal.pingpong[0], s.params.cal.pingpong[1], s.params.cal.pingpong[2],
                s.params.cal.pingpong[3], s.params.cal.pingpong[4], s.params.cal.pingpong[5],
                s.params.cal.pingpong[6]] }
    ∧ exec .duc2 s = .next
        { s with
          dcLvl := true
          cs := false
          tr := s.tr ++ evCmd s.params.opc.duc2
            ++ evDat [if s.seq = .display .duc2Flag then s.params.cal.duc2PartialFlag
                else if s.full = true then s.params.cal.duc2Full else s.params.cal.duc2Partial] }
    ∧ exec .border s = .next
        { s with
          dcLvl := true
          cs := false
          tr := s.tr ++ evCmd s.params.opc.border
            ++ evDat [if s.full = true then s.params.cal.borderFull else s.params.cal.borderPartial] }

/-- R196–R199 with their frame: the RAM window and counters, the X end in bytes, the Y end little-endian. -/
def Obligations.RamWindowCoversTheController : Prop :=
  ∀ s : State,
    exec .ramXWindow s = .next
        { s with
          dcLvl := true
          cs := false
          tr := s.tr ++ evCmd s.params.opc.ramXWindow ++ evDat [0x00, BitVec.ofNat 8 (s.params.cw.toNat / 8 - 1)] }
    ∧ exec .ramYWindow s = .next
        { s with
          dcLvl := true
          cs := false
          tr := s.tr ++ evCmd s.params.opc.ramYWindow
            ++ evDat [0x00, 0x00, BitVec.ofNat 8 ((s.params.h.toNat - 1) % 256),
                BitVec.ofNat 8 ((s.params.h.toNat - 1) / 256)] }
    ∧ exec .ramXCounter s = .next
        { s with dcLvl := true, cs := false, tr := s.tr ++ evCmd s.params.opc.ramXCounter ++ evDat [0x00] }
    ∧ exec .ramYCounter s = .next
        { s with dcLvl := true, cs := false, tr := s.tr ++ evCmd s.params.opc.ramYCounter ++ evDat [0x00, 0x00] }

/-- R184–R187, R189 with their frame: the stream of each plane, master activation, terminate frame and panel sleep, with
what each does to PANEL_STATE. -/
def Obligations.StreamAndActivationCommands : Prop :=
  ∀ (s : State) (after : PanelState),
    (after = if s.panelState = .uninitialized ∨ s.panelState = .sleeping then s.panelState else .busy) →
    exec .writeBw s = .next
        { s with
          dcLvl := true
          cs := false
          panelState := after
          tr := s.tr ++ evCmd 0x24 ++ evDat ((List.range s.params.half).map (fun k => s.fb.read k)) }
    ∧ exec .writeRed s = .next
        { s with
          dcLvl := true
          cs := false
          panelState := after
          tr := s.tr ++ evCmd 0x26
            ++ evDat ((List.range s.params.half).map (fun k => s.fb.read (s.params.half + k))) }
    ∧ exec .masterAct s = .next
        { s with dcLvl := false, cs := false, panelState := after, tr := s.tr ++ evCmd 0x20 }
    ∧ exec .terminate s = .next { s with dcLvl := false, cs := false, tr := s.tr ++ evCmd 0xFF }
    ∧ (s.params.cal.sleepData = [] → exec .deepSleep s = .next
        { s with dcLvl := false, cs := false, panelState := .sleeping, tr := s.tr ++ evCmd s.params.opc.deepSleep })
    ∧ (s.params.cal.sleepData ≠ [] → exec .deepSleep s = .next
        { s with
          dcLvl := true
          cs := false
          panelState := .sleeping
          tr := s.tr ++ evCmd s.params.opc.deepSleep ++ evDat s.params.cal.sleepData })

/-- R40, R186, R184, R185, R189, R190: what PANEL_STATE does over one statement of a running operation: a gate that passes
takes BUSY to IDLE, a RAM write or activation gives BUSY unless UNINITIALIZED or SLEEPING, the sleep gives SLEEPING, the
start of `Init` UNINITIALIZED and its last statement takes UNINITIALIZED to IDLE; nothing else moves it. -/
def Obligations.PanelStateMovesAsTheTableSays : Prop :=
  ∀ (s t : State) (p : Seq), s.seq = p → (insideInit p = true → s.panelState = .uninitialized) →
    (runStatement p s).outcome = .next t →
    t.panelState = s.panelState
    ∨ ((p = .setup (.init .start) ∨ p = .display (.wake .start)) ∧ t.panelState = .uninitialized)
    ∨ ((p = .setup (.init .finish) ∨ p = .display (.wake .finish))
        ∧ s.panelState = .uninitialized ∧ t.panelState = .idle)
    ∨ ((commandAt p = some .masterAct ∨ commandAt p = some .writeBw ∨ commandAt p = some .writeRed)
        ∧ s.panelState ≠ .uninitialized ∧ s.panelState ≠ .sleeping ∧ t.panelState = .busy)
    ∨ (commandAt p = some .deepSleep ∧ t.panelState = .sleeping)
    ∨ ((∃ site, runStatement p s = s.gate site ∧ s.gate site = .go t) ∧ s.panelState = .busy ∧ t.panelState = .idle)

/-! ## The busy gate -/

/-- R153: the fast paths: no busy line, and a first sample that is inactive; each passes, with no time read and no
`BG_START`. -/
def Obligations.GateFastPaths : Prop :=
  ∀ (s : State) (timeout : U32),
    (s.params.hasBusy = false → s.waitUntilIdle timeout =
      (true, { s with panelState := if s.panelState = .busy then .idle else s.panelState }))
    ∧ (∀ rest, s.params.hasBusy = true → s.busyIn = (!s.params.busyActiveLevel) :: rest →
      s.waitUntilIdle timeout =
        (true,
          { s with
            busyIn := rest
            panelState := if s.panelState = .busy then .idle else s.panelState
            tr := s.tr ++ [Event.busy (!s.params.busyActiveLevel)] }))

/-- R153, R32, R74: a gate changes only the trace, the environment's draws, BG_START and, on success, PANEL_STATE from BUSY
to IDLE; what it appends is none but BUSY samples, time reads, liveness pulses, sleeps and logs. Without a busy line it passes
and appends nothing. With one it passes exactly on its first inactive sample, which is then its last event; a gate that fails
has seen active samples alone. -/
def Obligations.GateChangesNothingElse : Prop :=
  ∀ (s t : State) (timeout : U32) (ok : Bool), s.waitUntilIdle timeout = (ok, t) →
    t = { s with
          tr := t.tr
          busyIn := t.busyIn
          timeIn := t.timeIn
          draws := t.draws
          lastNow := t.lastNow
          slept := t.slept
          bgStart := t.bgStart
          panelState := if ok = true ∧ s.panelState = .busy then .idle else s.panelState }
    ∧ ∃ es, t.tr = s.tr ++ es ∧ (∀ e ∈ es, e.quiet = true)
        ∧ (s.params.hasBusy = false → ok = true ∧ es = [])
        ∧ (s.params.hasBusy = true → ok = true → ∃ pre, es = pre ++ [Event.busy (!s.params.busyActiveLevel)]
            ∧ ∀ v, Event.busy v ∈ pre → v = s.params.busyActiveLevel)
        ∧ (ok = false → ∀ v, Event.busy v ∈ es → v = s.params.busyActiveLevel)

/-- R154, R153, R30: the gate returns false only when the time elapsed since BG_START, the time it read on entering its loop
after an active first sample, exceeds the timeout strictly: its last events are then an active sample, the read that shows it
and the log, and no read of the loop before it exceeded the timeout. It rests on the time axiom of R150 (log entry 10). -/
def Obligations.GateFailsOnlyAfterTheTimeout : Prop :=
  ∀ s t : State, s.waitUntilIdle s.params.idleTimeoutMs = (false, t) →
    ∃ (mid : List Event) (now : U32),
      t.tr = s.tr ++ [Event.busy s.params.busyActiveLevel, Event.now t.bgStart] ++ mid
        ++ [Event.busy s.params.busyActiveLevel, Event.now now, Event.log .idleTimeout]
      ∧ s.params.idleTimeoutMs < now - t.bgStart
      ∧ ∀ x, Event.now x ∈ mid → x - t.bgStart ≤ s.params.idleTimeoutMs

/-- R153, R30, R156: the whole trace of a gate with a busy line. Either its first sample is inactive, and it passes with that
one event and BG_START as it was; or it samples active, reads BG_START, and runs iterations that do not return, each an active
sample, a read within the timeout, `log(LONG_WAIT)` exactly where the elapsed time exceeds LONG_WAIT_MS, `wdt`, `yield` and the
sleep, then the one that returns: passing on an inactive sample, or failing on a read beyond the timeout with
`log(IDLE_TIMEOUT)`. So where LONG_WAIT_MS is not below the timeout the long wait is never logged. -/
def Obligations.GateTraceIsThatOfTheLoop : Prop :=
  ∀ (s t : State) (ok : Bool), s.params.hasBusy = true → s.waitUntilIdle s.params.idleTimeoutMs = (ok, t) →
    ((ok = true ∧ t.tr = s.tr ++ [Event.busy (!s.params.busyActiveLevel)] ∧ t.bgStart = s.bgStart)
      ∨ ∃ (reads : List U32) (last : U32),
        t.tr = s.tr ++ [Event.busy s.params.busyActiveLevel, Event.now t.bgStart]
          ++ reads.flatMap (tracePoll s.params.toParamRecord t.bgStart) ++ traceReturn s.params.toParamRecord ok last
        ∧ (∀ x ∈ reads, x - t.bgStart ≤ s.params.idleTimeoutMs)
        ∧ reads.length ≤ s.params.idleTimeoutMs.toNat / s.params.pollMs.toNat + 1
        ∧ (ok = false → s.params.idleTimeoutMs < last - t.bgStart))
    ∧ (s.params.idleTimeoutMs ≤ s.params.longWaitMs → ∃ es, t.tr = s.tr ++ es ∧ Event.log .longWait ∉ es)

/-- R154, R155, R253, R224, R226: a BUSY that stays active ends every gate: for as many samples as the bound of R154 admits
the gate fails, a SETUP of a fresh block and a DISPLAY after SETUP, with DSBU or without, end TIMEOUT with WARNING 1. The list
of levels to come is the model's (log entry 9); that the gate ends rests on the time axiom (log entry 10). -/
def Obligations.StuckBusyEndsInIdleTimeout : Prop :=
  ∀ (s : State) (rest : List Bool), s.params.hasBusy = true →
    s.busyIn
      = List.replicate (s.params.idleTimeoutMs.toNat / s.params.pollMs.toNat + 3) s.params.busyActiveLevel ++ rest →
    (s.waitUntilIdle s.params.idleTimeoutMs).1 = false
    ∧ (s.setupDone = false → ∃ t, exec .setup s = .next t ∧ t.resStatus = 1 ∧ t.warning = true)
    ∧ (s.setupDone = true → ∃ t, exec .display s = .next t ∧ t.resStatus = 1 ∧ t.warning = true)

/-- R154: the loop, entered with `BG_START` just read, ends within `T / POLL_MS + 2` iterations: whatever more it is
allowed, its outcome and its state are the same, so it is the rule's loop without a bound. It rests on the time axiom of
R150 (log entries 10 and 11). -/
def Obligations.GateLoopNeedsNoMoreIterations : Prop :=
  ∀ (s : State) (k : Nat),
    gateLoop (s.gateFuel s.params.idleTimeoutMs + k) s.params.idleTimeoutMs s.startClock
      = gateLoop (s.gateFuel s.params.idleTimeoutMs) s.params.idleTimeoutMs s.startClock

/-- R150, I8, I23: every time read keeps the time axiom from the read before it on, in whatever gate and operation that
was: so at reset, and so after every step. Where the sleeps between two reads alone last 2^31 ms no read meets the axiom
and none is asked (log entry 10). -/
def Obligations.TimeReadsKeepTheAxiom : Prop :=
  (∀ p : Params, (State.construct p).timeKept) ∧ ∀ s t : State, s.timeKept → step s = .next t → t.timeKept

/-- R156: in a gate every sleep is of POLL_MS and follows one `wdt` and one `yield` right before it, and there is no
`wdt` and no `yield` but those. -/
def Obligations.GateKeepsTheHostAlive : Prop :=
  ∀ (s t : State) (timeout : U32) (ok : Bool) (es : List Event),
    s.waitUntilIdle timeout = (ok, t) → t.tr = s.tr ++ es →
    (∀ pre post d, es = pre ++ Event.sleep d :: post → d = s.params.pollMs ∧ ∃ pre', pre = pre' ++ [Event.wdt, Event.yield])
    ∧ es.countP (fun e => decide (e = .wdt)) = es.countP (fun e => decide (e = .sleep s.params.pollMs))
    ∧ es.countP (fun e => decide (e = .yield)) = es.countP (fun e => decide (e = .sleep s.params.pollMs))

/-! ## SETUP and DISPLAY -/

/-- R224, R190, R283: SETUP of a fresh block whose panel reads idle at both gates: the trace of the rules' examples, the
framebuffer zero, the lines configured, PANEL_STATE IDLE, status OK, and nothing else. -/
def Obligations.SetupRunsWhole : Prop :=
  ∀ s : State, s.setupDone = false → s.idleFor 2 → ∃ t,
    exec .setup s = .next t
    ∧ t = { s with
          fb := t.fb
          setupDone := true
          panelState := .idle
          seq := .ready
          done := true
          resStatus := 0
          resValue := 0
          dcLvl := true
          cs := false
          rstLvl := if s.params.hasRst then true else s.rstLvl
          dirDc := .out
          dirRst := if s.params.hasRst then .out else s.dirRst
          dirBusy := if s.params.hasBusy then .input else s.dirBusy
          busyIn := s.busyLeft 2
          slept := s.slept + pulseMs s.params.toParamRecord
          tr := s.tr ++ traceSetup s.params.toParamRecord }
    ∧ (∀ i, i < s.params.bufLen → t.fb.read i = 0x00) ∧ ∀ i, s.params.bufLen ≤ i → t.fb.read i = s.fb.read i

/-- R224, R190, R253, R283: however the panel behaves, SETUP of a fresh block ends OK with PANEL_STATE IDLE and WARNING as
it was, or TIMEOUT with PANEL_STATE UNINITIALIZED and WARNING 1; in both the framebuffer is zero, SETUP_DONE is 1 and the
lines are configured. -/
def Obligations.SetupEndsOkOrTimeout : Prop :=
  ∀ s : State, s.setupDone = false → ∃ t,
    exec .setup s = .next t
    ∧ ((t.resStatus = 0 ∧ t.panelState = .idle ∧ t.warning = s.warning)
        ∨ (t.resStatus = 1 ∧ t.panelState = .uninitialized ∧ t.warning = true))
    ∧ t.resValue = 0 ∧ t.setupDone = true ∧ (∀ i, i < s.params.bufLen → t.fb.read i = 0x00)
    ∧ t.dirDc = .out ∧ (s.params.hasRst = true → t.dirRst = .out) ∧ (s.params.hasBusy = true → t.dirBusy = .input)
    ∧ t.atUpdate = s.atUpdate ∧ t.dsbu = s.dsbu

/-- R226 whole, with R200–R202, R220–R222 and, when DSBU = 1, R190 and R189: DISPLAY after SETUP with a panel that reads
idle at every gate: the trace of the fourteen steps, the mode flags, one cadence advance, WARNING cleared, status OK, FB
only read, and nothing else. -/
def Obligations.DisplayRunsWhole : Prop :=
  ∀ s : State, s.setupDone = true → s.idleFor (if s.dsbu then 4 else 2) →
    exec .display s = .next
      { s with
        atUpdate := nextUpdate s.params.n s.atUpdate
        warning := false
        panelState :=
          if s.dsbu then .sleeping
          else if s.panelState = .uninitialized ∨ s.panelState = .sleeping then s.panelState else .busy
        seq := .ready
        done := true
        resStatus := 0
        resValue := 0
        dcLvl := s.dsbu && decide (s.params.cal.sleepData ≠ [])
        cs := false
        rstLvl := if s.dsbu && s.params.hasRst then true else s.rstLvl
        full := decide (s.atUpdate = 0)
        prev := decide (s.atUpdate = 1)
        busyIn := s.busyLeft (if s.dsbu then 4 else 2)
        slept := s.slept + (if s.dsbu then pulseMs s.params.toParamRecord else 0)
        tr := s.tr ++ traceDisplay s }

/-- R226, R190, R253, D45: a DISPLAY (DSBU = 1) aborted at a gate of its wake `Init`: TIMEOUT, value 0, WARNING 1,
PANEL_STATE left UNINITIALIZED, AT_UPDATE not advanced, the mode not sampled, FB kept, and no command sent but, at most,
the soft reset. -/
def Obligations.DisplayAbortsInTheWake : Prop :=
  ∀ s t : State, s.setupDone = true → s.dsbu = true → runList wakeProgram (s.start .display) = .ended t →
    exec .display s = .next t
    ∧ t = { s with
          warning := true
          panelState := .uninitialized
          seq := .ready
          done := true
          resStatus := 1
          resValue := 0
          dcLvl := t.dcLvl
          rstLvl := if s.params.hasRst then true else s.rstLvl
          cs := t.cs
          bgStart := t.bgStart
          tr := t.tr
          busyIn := t.busyIn
          timeIn := t.timeIn
          draws := t.draws
          lastNow := t.lastNow
          slept := t.slept }
    ∧ ∃ es, t.tr = s.tr ++ es ∧ (commandBytes es = [] ∨ commandBytes es = [s.params.opc.swReset])

/-- R226, R253, R258: a DISPLAY whose step-2 gate fails, after a wake that went through where DSBU = 1, is aborted there:
TIMEOUT, value 0, WARNING 1, AT_UPDATE not advanced, the mode not sampled, FB kept; with DSBU = 0 no event but the gate's
and PANEL_STATE as it was, with DSBU = 1 no command but `Init`'s and PANEL_STATE IDLE. -/
def Obligations.DisplayAbortsAtTheFirstGate : Prop :=
  ∀ s u g : State, s.setupDone = true → runList wakeProgram (s.start .display) = .go u →
    ({ u with seq := .display .gateStart }).waitUntilIdle s.params.idleTimeoutMs = (false, g) →
    exec .display s = .next
        { s with
          warning := true
          panelState := if s.dsbu then .idle else s.panelState
          seq := .ready
          done := true
          resStatus := 1
          resValue := 0
          dcLvl := if s.dsbu then true else s.dcLvl
          rstLvl := if s.dsbu && s.params.hasRst then true else s.rstLvl
          cs := if s.dsbu then false else s.cs
          bgStart := g.bgStart
          tr := g.tr
          busyIn := g.busyIn
          timeIn := g.timeIn
          draws := g.draws
          lastNow := g.lastNow
          slept := g.slept }
    ∧ ∃ es, g.tr = s.tr ++ es ∧ (s.dsbu = false → ∀ e ∈ es, e.quiet = true)
        ∧ commandBytes es = if s.dsbu then initOpcodes s.params.toParamRecord else []

/-- R226, R221, R253, R258: a DISPLAY that passes step 2, however it does and whatever DSBU is, and ends TIMEOUT has failed
at the step-10 gate: it has sent steps 4 to 9 and none after, has advanced AT_UPDATE, and leaves WARNING 1 and FB kept. -/
def Obligations.DisplayAbortAtTheSecondGateConsumesASlot : Prop :=
  ∀ s u t : State, s.setupDone = true →
    runList (wakeProgram ++ [Seq.display .gateStart]) (s.start .display) = .go u →
    exec .display s = .next t → t.resStatus = 1 →
    t = { s with
        atUpdate := nextUpdate s.params.n s.atUpdate
        warning := true
        panelState :=
          if s.atUpdate = 0 ∨ u.panelState = .uninitialized ∨ u.panelState = .sleeping then u.panelState else .busy
        seq := .ready
        done := true
        resStatus := 1
        resValue := 0
        dcLvl := true
        rstLvl := if s.dsbu && s.params.hasRst then true else s.rstLvl
        cs := false
        full := decide (s.atUpdate = 0)
        prev := decide (s.atUpdate = 1)
        bgStart := t.bgStart
        tr := t.tr
        busyIn := t.busyIn
        timeIn := t.timeIn
        draws := t.draws
        lastNow := t.lastNow
        slept := t.slept }
    ∧ ∃ es es', u.tr = s.tr ++ es ∧ (commandBytes es = if s.dsbu then initOpcodes s.params.toParamRecord else [])
        ∧ t.tr = u.tr ++ traceBeforeRam s.params.toParamRecord s.atUpdate ++ es' ∧ ∀ e ∈ es', e.quiet = true

/-- R226, R220, R221, R40, R23, R253, R259: however the panel behaves, DISPLAY after SETUP ends OK with WARNING 0 or TIMEOUT
with WARNING 1. One that ends OK has sampled FULL and PREV from AT_UPDATE and then advanced it, and leaves PANEL_STATE SLEEPING
with DSBU = 1, else BUSY unless it was UNINITIALIZED or SLEEPING; one that ends TIMEOUT has done both or neither to FULL, PREV
and AT_UPDATE. It never writes FB, DSBU, SETUP_DONE or the line directions. -/
def Obligations.DisplayEndsOkOrTimeout : Prop :=
  ∀ s : State, s.setupDone = true → ∃ t,
    exec .display s = .next t
    ∧ ((t.resStatus = 0 ∧ t.warning = false) ∨ (t.resStatus = 1 ∧ t.warning = true))
    ∧ t.resValue = 0 ∧ t.fb = s.fb ∧ t.dsbu = s.dsbu ∧ t.setupDone = true ∧ t.dirDc = s.dirDc ∧ t.dirRst = s.dirRst
    ∧ t.dirBusy = s.dirBusy
    ∧ (t.resStatus = 0 → t.atUpdate = nextUpdate s.params.n s.atUpdate
        ∧ t.full = decide (s.atUpdate = 0) ∧ t.prev = decide (s.atUpdate = 1)
        ∧ t.panelState = if s.dsbu then .sleeping
          else if s.panelState = .uninitialized ∨ s.panelState = .sleeping then s.panelState else .busy)
    ∧ (t.resStatus = 1 → (t.atUpdate = s.atUpdate ∧ t.full = s.full ∧ t.prev = s.prev)
        ∨ (t.atUpdate = nextUpdate s.params.n s.atUpdate
          ∧ t.full = decide (s.atUpdate = 0) ∧ t.prev = decide (s.atUpdate = 1)))

/-- R266, R201: after a DISPLAY that ends OK, the abstract panel's RAM equals FB as streamed: the last black-plane
payload of the whole trace is plane 1, the last red-plane payload plane 2. -/
def Obligations.PanelRamEqualsTheFramebuffer : Prop :=
  ∀ s t : State, s.setupDone = true → exec .display s = .next t → t.resStatus = 0 →
    panelRam 0x24 t.tr = some (s.fb.readBytes 0 s.params.half)
    ∧ panelRam 0x26 t.tr = some (s.fb.readBytes s.params.half s.params.half)

/-! ## Cadence and warning -/

/-- R221, R223: `k` advances from `a < N` give `(a + k) mod N`: so `N` of them close the cycle and AT_UPDATE is 0 once in
it; with `N = 0` the counter is inert. -/
def Obligations.CadenceCountsModuloN : Prop :=
  ∀ (n a : U32) (k : Nat),
    (n ≠ 0 → a < n → ((nextUpdate n)^[k] a).toNat = (a.toNat + k) % n.toNat) ∧ (n = 0 → (nextUpdate n)^[k] a = a)

/-- R220, R222: after the mode is sampled a reload is due exactly when `N >= 1` and AT_UPDATE is 0 or 1, with the full
table at 0 and the partial table at 1. -/
def Obligations.LutIsReloadedAtTheModeChange : Prop :=
  ∀ s : State,
    (s.sampleMode.reloadDue = true ↔ s.params.n ≠ 0 ∧ (s.atUpdate = 0 ∨ s.atUpdate = 1))
    ∧ (s.atUpdate = 0 → s.sampleMode.lutTable = s.params.lutFull)
    ∧ (s.atUpdate = 1 → s.sampleMode.lutTable = s.params.lutPartial)

/-- R23, R32: no instruction but SETUP and DISPLAY writes WARNING. -/
def Obligations.OnlySetupAndDisplayWriteWarning : Prop :=
  ∀ (i : Instr) (s t : State), i ≠ .setup → i ≠ .display → exec i s = .next t → t.warning = s.warning

/-- R24: no instruction but SET_DSBU writes DSBU. -/
def Obligations.OnlySetDsbuWritesDsbu : Prop :=
  ∀ (i : Instr) (s t : State), (∀ b, i ≠ .setDsbu b) → exec i s = .next t → t.dsbu = s.dsbu

/-- R22: no instruction but DISPLAY writes AT_UPDATE. -/
def Obligations.OnlyDisplayWritesAtUpdate : Prop :=
  ∀ (i : Instr) (s t : State), i ≠ .display → exec i s = .next t → t.atUpdate = s.atUpdate

/-- R103, R178–R199: a panel command changes only the trace, DC_LVL, CS and PANEL_STATE. -/
def Obligations.PanelCommandsTouchOnlyTheLink : Prop :=
  ∀ (i : Instr) (s : State), i ∈ panelCommands → ∃ t,
    exec i s = .next t
    ∧ t = { s with tr := t.tr, dcLvl := t.dcLvl, cs := t.cs, panelState := t.panelState }
    ∧ ∃ b bs, opcodeOf s.params.opc i = some b ∧ commandsSent t.tr = commandsSent s.tr ++ [(b, bs)]

/-! ## Whole-machine rules -/

/-- The invariant holds at reset, of any valid instance. -/
def Obligations.InvariantAtReset : Prop := State.reset.Inv ∧ ∀ p : Params, (State.construct p).Inv

/-- R36, R61, R71, R176, R250, R28, R123, R124, R190: every step from a state that meets the invariant gives one that does. -/
def Obligations.EveryStepKeepsTheInvariant : Prop := ∀ s t : State, s.Inv → step s = .next t → t.Inv

/-- R88: no pixel holds the reserved code at reset, and from a state that meets the invariant no step writes one. Between
the two plane writes of a FILL or SET_PIXEL run statement by statement the pixel counts with the second (`settled`); at
READY, where every operation begins and ends, the state counts as it is. -/
def Obligations.NoStepWritesTheReservedCode : Prop :=
  (∀ p : Params, (State.construct p).noReservedCode)
  ∧ (∀ s t : State, s.Inv → s.settled.noReservedCode → step s = .next t → t.settled.noReservedCode)
  ∧ ∀ s : State, s.seq = .ready → s.settled = s

/-- R105: every command byte the block ever sends is one of the 21 opcodes: so at reset, and so after every step. -/
def Obligations.EveryCommandByteIsAnOpcode : Prop :=
  (∀ p : Params, (State.construct p).knownCommands)
  ∧ ∀ s t : State, s.knownCommands → step s = .next t → t.knownCommands

/-- R8: a step never changes the parameters. -/
def Obligations.ParametersAreFixed : Prop := ∀ s t : State, step s = .next t → t.params = s.params

/-- R33, R258: a step only appends to the trace. -/
def Obligations.TraceOnlyGrows : Prop := ∀ s t : State, step s = .next t → ∃ es, t.tr = s.tr ++ es

/-- R3, R12, R27, R262: a host operation, which `exec` runs whole, does what its statements do one step at a time. From
the entry of any of the seven operations, its frame latched, some number of steps of the machine leads to what `exec`
gives; and so it does from the first statement of SETUP's and DISPLAY's bodies that no `if` passes over. -/
def Obligations.StatementStepsReachTheWholeOperation : Prop :=
  (∀ (s : State) (op : HostOp) (i : Instr),
    s.seq = .entry op → s.done = false → decodeFrame s.opf = .ok i → hostOpOf i = some op →
    ∃ k, Host.Core.run core k s = exec i s)
  ∧ ∀ (s : State) (ps : List Seq) (p : Seq) (rest : List Seq),
    (ps = setupProgram ∨ ps = displayProgram) → ps.dropWhile (fun q => !seqEnabled q s) = p :: rest → s.seq = p →
    ∃ k, Host.Core.run core k s = (runList ps s).outcome
end

