-- ==== Sys2Proof/Laws/Geometry.lean ====
section
/-! SUPPORT. What a constructed instance's geometry gives (R8, R9, R63): the facts construction checked, the sizes of
the planes, and where a pixel lies. -/

namespace Sys2Proof

/-- The checks of R9 and R101 an instance has passed. -/
theorem Params.checked (p : Params) :
    p.geometryOk = true ∧ p.lutOk = true ∧ p.timingOk = true ∧ p.opc.distinct = true := by
  have h := p.ok
  simp only [ParamRecord.check, Bool.and_eq_true] at h
  exact ⟨h.1.1.1, h.1.1.2, h.1.2, h.2⟩

/-- R9: the geometry of an instance. -/
theorem Params.geometry (p : Params) :
    p.cw.toNat % 8 = 0 ∧ 8 ≤ p.cw.toNat ∧ p.cw.toNat ≤ 2048 ∧ 1 ≤ p.vw.toNat ∧ p.vw.toNat ≤ p.cw.toNat
      ∧ 1 ≤ p.h.toNat ∧ p.h.toNat ≤ 65536 := by
  have h := p.checked.1
  simp only [ParamRecord.geometryOk, Bool.and_eq_true, decide_eq_true_eq] at h
  omega

/-- R9: the timing bounds of an instance. -/
theorem Params.timing (p : Params) :
    1 ≤ p.pollMs.toNat ∧ p.idleTimeoutMs.toNat + p.pollMs.toNat < 2 ^ 31 := by
  have h := p.checked.2.2.1
  simpa only [ParamRecord.timingOk, Bool.and_eq_true, decide_eq_true_eq] using h

/-- R101: the 21 opcodes of an instance are pairwise distinct. -/
theorem Params.opcodes_nodup (p : Params) : p.opc.all.Nodup := by
  have h := p.checked.2.2.2
  simpa only [Opcodes.distinct, decide_eq_true_eq] using h

/-- R8: `HALF = ROWB * H`. -/
theorem Params.half_eq (p : Params) : p.half = p.rowb * p.h.toNat := by
  obtain ⟨h8, -⟩ := p.geometry
  obtain ⟨k, hk⟩ := Nat.dvd_of_mod_eq_zero h8
  simp only [ParamRecord.half, ParamRecord.rowb, hk, Nat.mul_assoc]
  rw [Nat.mul_div_cancel_left _ (by omega), Nat.mul_div_cancel_left _ (by omega)]

/-- R8: `L = 2 * HALF`. -/
theorem Params.bufLen_eq (p : Params) : p.bufLen = 2 * p.half := by
  obtain ⟨h8, -⟩ := p.geometry
  obtain ⟨k, hk⟩ := Nat.dvd_of_mod_eq_zero h8
  simp only [ParamRecord.half, ParamRecord.bufLen, hk, Nat.mul_assoc]
  omega

/-- R63: `off(x, y) = y * ROWB + x / 8`. -/
theorem Params.pixelOff_eq (p : Params) (x y : Nat) : p.pixelOff x y = y * p.rowb + x / 8 := by
  obtain ⟨h8, -⟩ := p.geometry
  obtain ⟨k, hk⟩ := Nat.dvd_of_mod_eq_zero h8
  simp only [ParamRecord.pixelOff, ParamRecord.rowb, hk]
  rw [Nat.mul_div_cancel_left _ (by omega), show x + y * (8 * k) = x + 8 * (y * k) by ring,
    Nat.add_mul_div_left _ _ (by omega)]
  omega

/-- R63: `0 <= off < HALF` for every pixel of the controller's area. -/
theorem Params.pixelOff_lt (p : Params) (x y : Nat) (hx : x < p.cw.toNat) (hy : y < p.h.toNat) :
    p.pixelOff x y < p.half := by
  obtain ⟨h8, -⟩ := p.geometry
  obtain ⟨k, hk⟩ := Nat.dvd_of_mod_eq_zero h8
  have hr : p.rowb = k := by simp only [ParamRecord.rowb, hk]; omega
  rw [p.pixelOff_eq, p.half_eq, hr]
  have hxk : x / 8 < k := by omega
  have hmul : (y + 1) * k ≤ p.h.toNat * k := Nat.mul_le_mul_right k hy
  have h1 : (y + 1) * k = y * k + k := by ring
  have h2 : k * p.h.toNat = p.h.toNat * k := Nat.mul_comm ..
  omega

/-- An in-range pixel has natural coordinates inside the visible area (R123). -/
theorem Params.inRange_iff (p : Params) (x y : Int) :
    p.inRange x y = true ↔ ∃ a b : Nat, x = a ∧ y = b ∧ a < p.vw.toNat ∧ b < p.h.toNat := by
  simp only [ParamRecord.inRange, Bool.and_eq_true, decide_eq_true_eq]
  constructor
  · rintro ⟨⟨⟨h1, h2⟩, h3⟩, h4⟩
    exact ⟨x.toNat, y.toNat, by omega, by omega, by omega, by omega⟩
  · rintro ⟨a, b, rfl, rfl, h1, h2⟩
    omega

/-- No in-range pixel forms an index outside `0 .. L-1` (R61). -/
theorem Params.pixel_inside (p : Params) (x y : Int) (h : p.inRange x y = true) :
    p.half + p.pixelOff x.toNat y.toNat < p.bufLen := by
  obtain ⟨a, b, rfl, rfl, hx, hy⟩ := (p.inRange_iff x y).mp h
  have hv := p.geometry.2.2.2.2.1
  have := p.pixelOff_lt a b (by omega) hy
  have := p.bufLen_eq
  simp only [Int.toNat_natCast]
  omega

end Sys2Proof
end

