-- ==== Sys2Proof/Laws/State.lean ====
section
/-! SUPPORT. For each named state update, one lemma per field (what it sets, what it leaves), so that no later proof
unfolds a record update. -/

namespace Sys2Proof.Machine

/-! ### s.emit es -/

@[simp] theorem State.emit_params (s : State) (es : List Event) : (s.emit es).params = s.params := rfl
@[simp] theorem State.emit_fb (s : State) (es : List Event) : (s.emit es).fb = s.fb := rfl
@[simp] theorem State.emit_atUpdate (s : State) (es : List Event) : (s.emit es).atUpdate = s.atUpdate := rfl
@[simp] theorem State.emit_warning (s : State) (es : List Event) : (s.emit es).warning = s.warning := rfl
@[simp] theorem State.emit_dsbu (s : State) (es : List Event) : (s.emit es).dsbu = s.dsbu := rfl
@[simp] theorem State.emit_panelState (s : State) (es : List Event) : (s.emit es).panelState = s.panelState := rfl
@[simp] theorem State.emit_setupDone (s : State) (es : List Event) : (s.emit es).setupDone = s.setupDone := rfl
@[simp] theorem State.emit_seq (s : State) (es : List Event) : (s.emit es).seq = s.seq := rfl
@[simp] theorem State.emit_opf (s : State) (es : List Event) : (s.emit es).opf = s.opf := rfl
@[simp] theorem State.emit_done (s : State) (es : List Event) : (s.emit es).done = s.done := rfl
@[simp] theorem State.emit_resStatus (s : State) (es : List Event) : (s.emit es).resStatus = s.resStatus := rfl
@[simp] theorem State.emit_resValue (s : State) (es : List Event) : (s.emit es).resValue = s.resValue := rfl
@[simp] theorem State.emit_dcLvl (s : State) (es : List Event) : (s.emit es).dcLvl = s.dcLvl := rfl
@[simp] theorem State.emit_rstLvl (s : State) (es : List Event) : (s.emit es).rstLvl = s.rstLvl := rfl
@[simp] theorem State.emit_cs (s : State) (es : List Event) : (s.emit es).cs = s.cs := rfl
@[simp] theorem State.emit_dirDc (s : State) (es : List Event) : (s.emit es).dirDc = s.dirDc := rfl
@[simp] theorem State.emit_dirRst (s : State) (es : List Event) : (s.emit es).dirRst = s.dirRst := rfl
@[simp] theorem State.emit_dirBusy (s : State) (es : List Event) : (s.emit es).dirBusy = s.dirBusy := rfl
@[simp] theorem State.emit_bgStart (s : State) (es : List Event) : (s.emit es).bgStart = s.bgStart := rfl
@[simp] theorem State.emit_full (s : State) (es : List Event) : (s.emit es).full = s.full := rfl
@[simp] theorem State.emit_prev (s : State) (es : List Event) : (s.emit es).prev = s.prev := rfl
@[simp] theorem State.emit_tr (s : State) (es : List Event) : (s.emit es).tr = s.tr ++ es := rfl
@[simp] theorem State.emit_hostIn (s : State) (es : List Event) : (s.emit es).hostIn = s.hostIn := rfl
@[simp] theorem State.emit_busyIn (s : State) (es : List Event) : (s.emit es).busyIn = s.busyIn := rfl
@[simp] theorem State.emit_timeIn (s : State) (es : List Event) : (s.emit es).timeIn = s.timeIn := rfl
@[simp] theorem State.emit_draws (s : State) (es : List Event) : (s.emit es).draws = s.draws := rfl
@[simp] theorem State.emit_lastNow (s : State) (es : List Event) : (s.emit es).lastNow = s.lastNow := rfl
@[simp] theorem State.emit_slept (s : State) (es : List Event) : (s.emit es).slept = s.slept := rfl

/-! ### s.setCs v -/

@[simp] theorem State.setCs_params (s : State) (v : Bool) : (s.setCs v).params = s.params := rfl
@[simp] theorem State.setCs_fb (s : State) (v : Bool) : (s.setCs v).fb = s.fb := rfl
@[simp] theorem State.setCs_atUpdate (s : State) (v : Bool) : (s.setCs v).atUpdate = s.atUpdate := rfl
@[simp] theorem State.setCs_warning (s : State) (v : Bool) : (s.setCs v).warning = s.warning := rfl
@[simp] theorem State.setCs_dsbu (s : State) (v : Bool) : (s.setCs v).dsbu = s.dsbu := rfl
@[simp] theorem State.setCs_panelState (s : State) (v : Bool) : (s.setCs v).panelState = s.panelState := rfl
@[simp] theorem State.setCs_setupDone (s : State) (v : Bool) : (s.setCs v).setupDone = s.setupDone := rfl
@[simp] theorem State.setCs_seq (s : State) (v : Bool) : (s.setCs v).seq = s.seq := rfl
@[simp] theorem State.setCs_opf (s : State) (v : Bool) : (s.setCs v).opf = s.opf := rfl
@[simp] theorem State.setCs_done (s : State) (v : Bool) : (s.setCs v).done = s.done := rfl
@[simp] theorem State.setCs_resStatus (s : State) (v : Bool) : (s.setCs v).resStatus = s.resStatus := rfl
@[simp] theorem State.setCs_resValue (s : State) (v : Bool) : (s.setCs v).resValue = s.resValue := rfl
@[simp] theorem State.setCs_dcLvl (s : State) (v : Bool) : (s.setCs v).dcLvl = s.dcLvl := rfl
@[simp] theorem State.setCs_rstLvl (s : State) (v : Bool) : (s.setCs v).rstLvl = s.rstLvl := rfl
@[simp] theorem State.setCs_cs (s : State) (v : Bool) : (s.setCs v).cs = v := rfl
@[simp] theorem State.setCs_dirDc (s : State) (v : Bool) : (s.setCs v).dirDc = s.dirDc := rfl
@[simp] theorem State.setCs_dirRst (s : State) (v : Bool) : (s.setCs v).dirRst = s.dirRst := rfl
@[simp] theorem State.setCs_dirBusy (s : State) (v : Bool) : (s.setCs v).dirBusy = s.dirBusy := rfl
@[simp] theorem State.setCs_bgStart (s : State) (v : Bool) : (s.setCs v).bgStart = s.bgStart := rfl
@[simp] theorem State.setCs_full (s : State) (v : Bool) : (s.setCs v).full = s.full := rfl
@[simp] theorem State.setCs_prev (s : State) (v : Bool) : (s.setCs v).prev = s.prev := rfl
@[simp] theorem State.setCs_tr (s : State) (v : Bool) : (s.setCs v).tr = s.tr ++ [.cs v] := rfl
@[simp] theorem State.setCs_hostIn (s : State) (v : Bool) : (s.setCs v).hostIn = s.hostIn := rfl
@[simp] theorem State.setCs_busyIn (s : State) (v : Bool) : (s.setCs v).busyIn = s.busyIn := rfl
@[simp] theorem State.setCs_timeIn (s : State) (v : Bool) : (s.setCs v).timeIn = s.timeIn := rfl
@[simp] theorem State.setCs_draws (s : State) (v : Bool) : (s.setCs v).draws = s.draws := rfl
@[simp] theorem State.setCs_lastNow (s : State) (v : Bool) : (s.setCs v).lastNow = s.lastNow := rfl
@[simp] theorem State.setCs_slept (s : State) (v : Bool) : (s.setCs v).slept = s.slept := rfl

/-! ### s.sendBytes bs -/

@[simp] theorem State.sendBytes_params (s : State) (bs : List Byte) : (s.sendBytes bs).params = s.params := rfl
@[simp] theorem State.sendBytes_fb (s : State) (bs : List Byte) : (s.sendBytes bs).fb = s.fb := rfl
@[simp] theorem State.sendBytes_atUpdate (s : State) (bs : List Byte) : (s.sendBytes bs).atUpdate = s.atUpdate := rfl
@[simp] theorem State.sendBytes_warning (s : State) (bs : List Byte) : (s.sendBytes bs).warning = s.warning := rfl
@[simp] theorem State.sendBytes_dsbu (s : State) (bs : List Byte) : (s.sendBytes bs).dsbu = s.dsbu := rfl
@[simp] theorem State.sendBytes_panelState (s : State) (bs : List Byte) : (s.sendBytes bs).panelState = s.panelState := rfl
@[simp] theorem State.sendBytes_setupDone (s : State) (bs : List Byte) : (s.sendBytes bs).setupDone = s.setupDone := rfl
@[simp] theorem State.sendBytes_seq (s : State) (bs : List Byte) : (s.sendBytes bs).seq = s.seq := rfl
@[simp] theorem State.sendBytes_opf (s : State) (bs : List Byte) : (s.sendBytes bs).opf = s.opf := rfl
@[simp] theorem State.sendBytes_done (s : State) (bs : List Byte) : (s.sendBytes bs).done = s.done := rfl
@[simp] theorem State.sendBytes_resStatus (s : State) (bs : List Byte) : (s.sendBytes bs).resStatus = s.resStatus := rfl
@[simp] theorem State.sendBytes_resValue (s : State) (bs : List Byte) : (s.sendBytes bs).resValue = s.resValue := rfl
@[simp] theorem State.sendBytes_dcLvl (s : State) (bs : List Byte) : (s.sendBytes bs).dcLvl = s.dcLvl := rfl
@[simp] theorem State.sendBytes_rstLvl (s : State) (bs : List Byte) : (s.sendBytes bs).rstLvl = s.rstLvl := rfl
@[simp] theorem State.sendBytes_cs (s : State) (bs : List Byte) : (s.sendBytes bs).cs = s.cs := rfl
@[simp] theorem State.sendBytes_dirDc (s : State) (bs : List Byte) : (s.sendBytes bs).dirDc = s.dirDc := rfl
@[simp] theorem State.sendBytes_dirRst (s : State) (bs : List Byte) : (s.sendBytes bs).dirRst = s.dirRst := rfl
@[simp] theorem State.sendBytes_dirBusy (s : State) (bs : List Byte) : (s.sendBytes bs).dirBusy = s.dirBusy := rfl
@[simp] theorem State.sendBytes_bgStart (s : State) (bs : List Byte) : (s.sendBytes bs).bgStart = s.bgStart := rfl
@[simp] theorem State.sendBytes_full (s : State) (bs : List Byte) : (s.sendBytes bs).full = s.full := rfl
@[simp] theorem State.sendBytes_prev (s : State) (bs : List Byte) : (s.sendBytes bs).prev = s.prev := rfl
@[simp] theorem State.sendBytes_tr (s : State) (bs : List Byte) : (s.sendBytes bs).tr = s.tr ++ bs.map Event.tx := rfl
@[simp] theorem State.sendBytes_hostIn (s : State) (bs : List Byte) : (s.sendBytes bs).hostIn = s.hostIn := rfl
@[simp] theorem State.sendBytes_busyIn (s : State) (bs : List Byte) : (s.sendBytes bs).busyIn = s.busyIn := rfl
@[simp] theorem State.sendBytes_timeIn (s : State) (bs : List Byte) : (s.sendBytes bs).timeIn = s.timeIn := rfl
@[simp] theorem State.sendBytes_draws (s : State) (bs : List Byte) : (s.sendBytes bs).draws = s.draws := rfl
@[simp] theorem State.sendBytes_lastNow (s : State) (bs : List Byte) : (s.sendBytes bs).lastNow = s.lastNow := rfl
@[simp] theorem State.sendBytes_slept (s : State) (bs : List Byte) : (s.sendBytes bs).slept = s.slept := rfl

/-! ### s.setLine .dc v -/

@[simp] theorem State.setDc_params (s : State) (v : Bool) : (s.setLine .dc v).params = s.params := rfl
@[simp] theorem State.setDc_fb (s : State) (v : Bool) : (s.setLine .dc v).fb = s.fb := rfl
@[simp] theorem State.setDc_atUpdate (s : State) (v : Bool) : (s.setLine .dc v).atUpdate = s.atUpdate := rfl
@[simp] theorem State.setDc_warning (s : State) (v : Bool) : (s.setLine .dc v).warning = s.warning := rfl
@[simp] theorem State.setDc_dsbu (s : State) (v : Bool) : (s.setLine .dc v).dsbu = s.dsbu := rfl
@[simp] theorem State.setDc_panelState (s : State) (v : Bool) : (s.setLine .dc v).panelState = s.panelState := rfl
@[simp] theorem State.setDc_setupDone (s : State) (v : Bool) : (s.setLine .dc v).setupDone = s.setupDone := rfl
@[simp] theorem State.setDc_seq (s : State) (v : Bool) : (s.setLine .dc v).seq = s.seq := rfl
@[simp] theorem State.setDc_opf (s : State) (v : Bool) : (s.setLine .dc v).opf = s.opf := rfl
@[simp] theorem State.setDc_done (s : State) (v : Bool) : (s.setLine .dc v).done = s.done := rfl
@[simp] theorem State.setDc_resStatus (s : State) (v : Bool) : (s.setLine .dc v).resStatus = s.resStatus := rfl
@[simp] theorem State.setDc_resValue (s : State) (v : Bool) : (s.setLine .dc v).resValue = s.resValue := rfl
@[simp] theorem State.setDc_dcLvl (s : State) (v : Bool) : (s.setLine .dc v).dcLvl = v := rfl
@[simp] theorem State.setDc_rstLvl (s : State) (v : Bool) : (s.setLine .dc v).rstLvl = s.rstLvl := rfl
@[simp] theorem State.setDc_cs (s : State) (v : Bool) : (s.setLine .dc v).cs = s.cs := rfl
@[simp] theorem State.setDc_dirDc (s : State) (v : Bool) : (s.setLine .dc v).dirDc = s.dirDc := rfl
@[simp] theorem State.setDc_dirRst (s : State) (v : Bool) : (s.setLine .dc v).dirRst = s.dirRst := rfl
@[simp] theorem State.setDc_dirBusy (s : State) (v : Bool) : (s.setLine .dc v).dirBusy = s.dirBusy := rfl
@[simp] theorem State.setDc_bgStart (s : State) (v : Bool) : (s.setLine .dc v).bgStart = s.bgStart := rfl
@[simp] theorem State.setDc_full (s : State) (v : Bool) : (s.setLine .dc v).full = s.full := rfl
@[simp] theorem State.setDc_prev (s : State) (v : Bool) : (s.setLine .dc v).prev = s.prev := rfl
@[simp] theorem State.setDc_tr (s : State) (v : Bool) : (s.setLine .dc v).tr = s.tr ++ [.line .dc v] := rfl
@[simp] theorem State.setDc_hostIn (s : State) (v : Bool) : (s.setLine .dc v).hostIn = s.hostIn := rfl
@[simp] theorem State.setDc_busyIn (s : State) (v : Bool) : (s.setLine .dc v).busyIn = s.busyIn := rfl
@[simp] theorem State.setDc_timeIn (s : State) (v : Bool) : (s.setLine .dc v).timeIn = s.timeIn := rfl
@[simp] theorem State.setDc_draws (s : State) (v : Bool) : (s.setLine .dc v).draws = s.draws := rfl
@[simp] theorem State.setDc_lastNow (s : State) (v : Bool) : (s.setLine .dc v).lastNow = s.lastNow := rfl
@[simp] theorem State.setDc_slept (s : State) (v : Bool) : (s.setLine .dc v).slept = s.slept := rfl

/-! ### s.setLine .rst v -/

@[simp] theorem State.setRst_params (s : State) (v : Bool) : (s.setLine .rst v).params = s.params := rfl
@[simp] theorem State.setRst_fb (s : State) (v : Bool) : (s.setLine .rst v).fb = s.fb := rfl
@[simp] theorem State.setRst_atUpdate (s : State) (v : Bool) : (s.setLine .rst v).atUpdate = s.atUpdate := rfl
@[simp] theorem State.setRst_warning (s : State) (v : Bool) : (s.setLine .rst v).warning = s.warning := rfl
@[simp] theorem State.setRst_dsbu (s : State) (v : Bool) : (s.setLine .rst v).dsbu = s.dsbu := rfl
@[simp] theorem State.setRst_panelState (s : State) (v : Bool) : (s.setLine .rst v).panelState = s.panelState := rfl
@[simp] theorem State.setRst_setupDone (s : State) (v : Bool) : (s.setLine .rst v).setupDone = s.setupDone := rfl
@[simp] theorem State.setRst_seq (s : State) (v : Bool) : (s.setLine .rst v).seq = s.seq := rfl
@[simp] theorem State.setRst_opf (s : State) (v : Bool) : (s.setLine .rst v).opf = s.opf := rfl
@[simp] theorem State.setRst_done (s : State) (v : Bool) : (s.setLine .rst v).done = s.done := rfl
@[simp] theorem State.setRst_resStatus (s : State) (v : Bool) : (s.setLine .rst v).resStatus = s.resStatus := rfl
@[simp] theorem State.setRst_resValue (s : State) (v : Bool) : (s.setLine .rst v).resValue = s.resValue := rfl
@[simp] theorem State.setRst_dcLvl (s : State) (v : Bool) : (s.setLine .rst v).dcLvl = s.dcLvl := rfl
@[simp] theorem State.setRst_rstLvl (s : State) (v : Bool) : (s.setLine .rst v).rstLvl = v := rfl
@[simp] theorem State.setRst_cs (s : State) (v : Bool) : (s.setLine .rst v).cs = s.cs := rfl
@[simp] theorem State.setRst_dirDc (s : State) (v : Bool) : (s.setLine .rst v).dirDc = s.dirDc := rfl
@[simp] theorem State.setRst_dirRst (s : State) (v : Bool) : (s.setLine .rst v).dirRst = s.dirRst := rfl
@[simp] theorem State.setRst_dirBusy (s : State) (v : Bool) : (s.setLine .rst v).dirBusy = s.dirBusy := rfl
@[simp] theorem State.setRst_bgStart (s : State) (v : Bool) : (s.setLine .rst v).bgStart = s.bgStart := rfl
@[simp] theorem State.setRst_full (s : State) (v : Bool) : (s.setLine .rst v).full = s.full := rfl
@[simp] theorem State.setRst_prev (s : State) (v : Bool) : (s.setLine .rst v).prev = s.prev := rfl
@[simp] theorem State.setRst_tr (s : State) (v : Bool) : (s.setLine .rst v).tr = s.tr ++ [.line .rst v] := rfl
@[simp] theorem State.setRst_hostIn (s : State) (v : Bool) : (s.setLine .rst v).hostIn = s.hostIn := rfl
@[simp] theorem State.setRst_busyIn (s : State) (v : Bool) : (s.setLine .rst v).busyIn = s.busyIn := rfl
@[simp] theorem State.setRst_timeIn (s : State) (v : Bool) : (s.setLine .rst v).timeIn = s.timeIn := rfl
@[simp] theorem State.setRst_draws (s : State) (v : Bool) : (s.setLine .rst v).draws = s.draws := rfl
@[simp] theorem State.setRst_lastNow (s : State) (v : Bool) : (s.setLine .rst v).lastNow = s.lastNow := rfl
@[simp] theorem State.setRst_slept (s : State) (v : Bool) : (s.setLine .rst v).slept = s.slept := rfl

/-! ### s.cfgLine .dc d -/

@[simp] theorem State.cfgDc_params (s : State) (d : Dir) : (s.cfgLine .dc d).params = s.params := rfl
@[simp] theorem State.cfgDc_fb (s : State) (d : Dir) : (s.cfgLine .dc d).fb = s.fb := rfl
@[simp] theorem State.cfgDc_atUpdate (s : State) (d : Dir) : (s.cfgLine .dc d).atUpdate = s.atUpdate := rfl
@[simp] theorem State.cfgDc_warning (s : State) (d : Dir) : (s.cfgLine .dc d).warning = s.warning := rfl
@[simp] theorem State.cfgDc_dsbu (s : State) (d : Dir) : (s.cfgLine .dc d).dsbu = s.dsbu := rfl
@[simp] theorem State.cfgDc_panelState (s : State) (d : Dir) : (s.cfgLine .dc d).panelState = s.panelState := rfl
@[simp] theorem State.cfgDc_setupDone (s : State) (d : Dir) : (s.cfgLine .dc d).setupDone = s.setupDone := rfl
@[simp] theorem State.cfgDc_seq (s : State) (d : Dir) : (s.cfgLine .dc d).seq = s.seq := rfl
@[simp] theorem State.cfgDc_opf (s : State) (d : Dir) : (s.cfgLine .dc d).opf = s.opf := rfl
@[simp] theorem State.cfgDc_done (s : State) (d : Dir) : (s.cfgLine .dc d).done = s.done := rfl
@[simp] theorem State.cfgDc_resStatus (s : State) (d : Dir) : (s.cfgLine .dc d).resStatus = s.resStatus := rfl
@[simp] theorem State.cfgDc_resValue (s : State) (d : Dir) : (s.cfgLine .dc d).resValue = s.resValue := rfl
@[simp] theorem State.cfgDc_dcLvl (s : State) (d : Dir) : (s.cfgLine .dc d).dcLvl = s.dcLvl := rfl
@[simp] theorem State.cfgDc_rstLvl (s : State) (d : Dir) : (s.cfgLine .dc d).rstLvl = s.rstLvl := rfl
@[simp] theorem State.cfgDc_cs (s : State) (d : Dir) : (s.cfgLine .dc d).cs = s.cs := rfl
@[simp] theorem State.cfgDc_dirDc (s : State) (d : Dir) : (s.cfgLine .dc d).dirDc = d := rfl
@[simp] theorem State.cfgDc_dirRst (s : State) (d : Dir) : (s.cfgLine .dc d).dirRst = s.dirRst := rfl
@[simp] theorem State.cfgDc_dirBusy (s : State) (d : Dir) : (s.cfgLine .dc d).dirBusy = s.dirBusy := rfl
@[simp] theorem State.cfgDc_bgStart (s : State) (d : Dir) : (s.cfgLine .dc d).bgStart = s.bgStart := rfl
@[simp] theorem State.cfgDc_full (s : State) (d : Dir) : (s.cfgLine .dc d).full = s.full := rfl
@[simp] theorem State.cfgDc_prev (s : State) (d : Dir) : (s.cfgLine .dc d).prev = s.prev := rfl
@[simp] theorem State.cfgDc_tr (s : State) (d : Dir) : (s.cfgLine .dc d).tr = s.tr ++ [.cfg .dc d] := rfl
@[simp] theorem State.cfgDc_hostIn (s : State) (d : Dir) : (s.cfgLine .dc d).hostIn = s.hostIn := rfl
@[simp] theorem State.cfgDc_busyIn (s : State) (d : Dir) : (s.cfgLine .dc d).busyIn = s.busyIn := rfl
@[simp] theorem State.cfgDc_timeIn (s : State) (d : Dir) : (s.cfgLine .dc d).timeIn = s.timeIn := rfl
@[simp] theorem State.cfgDc_draws (s : State) (d : Dir) : (s.cfgLine .dc d).draws = s.draws := rfl
@[simp] theorem State.cfgDc_lastNow (s : State) (d : Dir) : (s.cfgLine .dc d).lastNow = s.lastNow := rfl
@[simp] theorem State.cfgDc_slept (s : State) (d : Dir) : (s.cfgLine .dc d).slept = s.slept := rfl

/-! ### s.cfgLine .rst d -/

@[simp] theorem State.cfgRst_params (s : State) (d : Dir) : (s.cfgLine .rst d).params = s.params := rfl
@[simp] theorem State.cfgRst_fb (s : State) (d : Dir) : (s.cfgLine .rst d).fb = s.fb := rfl
@[simp] theorem State.cfgRst_atUpdate (s : State) (d : Dir) : (s.cfgLine .rst d).atUpdate = s.atUpdate := rfl
@[simp] theorem State.cfgRst_warning (s : State) (d : Dir) : (s.cfgLine .rst d).warning = s.warning := rfl
@[simp] theorem State.cfgRst_dsbu (s : State) (d : Dir) : (s.cfgLine .rst d).dsbu = s.dsbu := rfl
@[simp] theorem State.cfgRst_panelState (s : State) (d : Dir) : (s.cfgLine .rst d).panelState = s.panelState := rfl
@[simp] theorem State.cfgRst_setupDone (s : State) (d : Dir) : (s.cfgLine .rst d).setupDone = s.setupDone := rfl
@[simp] theorem State.cfgRst_seq (s : State) (d : Dir) : (s.cfgLine .rst d).seq = s.seq := rfl
@[simp] theorem State.cfgRst_opf (s : State) (d : Dir) : (s.cfgLine .rst d).opf = s.opf := rfl
@[simp] theorem State.cfgRst_done (s : State) (d : Dir) : (s.cfgLine .rst d).done = s.done := rfl
@[simp] theorem State.cfgRst_resStatus (s : State) (d : Dir) : (s.cfgLine .rst d).resStatus = s.resStatus := rfl
@[simp] theorem State.cfgRst_resValue (s : State) (d : Dir) : (s.cfgLine .rst d).resValue = s.resValue := rfl
@[simp] theorem State.cfgRst_dcLvl (s : State) (d : Dir) : (s.cfgLine .rst d).dcLvl = s.dcLvl := rfl
@[simp] theorem State.cfgRst_rstLvl (s : State) (d : Dir) : (s.cfgLine .rst d).rstLvl = s.rstLvl := rfl
@[simp] theorem State.cfgRst_cs (s : State) (d : Dir) : (s.cfgLine .rst d).cs = s.cs := rfl
@[simp] theorem State.cfgRst_dirDc (s : State) (d : Dir) : (s.cfgLine .rst d).dirDc = s.dirDc := rfl
@[simp] theorem State.cfgRst_dirRst (s : State) (d : Dir) : (s.cfgLine .rst d).dirRst = d := rfl
@[simp] theorem State.cfgRst_dirBusy (s : State) (d : Dir) : (s.cfgLine .rst d).dirBusy = s.dirBusy := rfl
@[simp] theorem State.cfgRst_bgStart (s : State) (d : Dir) : (s.cfgLine .rst d).bgStart = s.bgStart := rfl
@[simp] theorem State.cfgRst_full (s : State) (d : Dir) : (s.cfgLine .rst d).full = s.full := rfl
@[simp] theorem State.cfgRst_prev (s : State) (d : Dir) : (s.cfgLine .rst d).prev = s.prev := rfl
@[simp] theorem State.cfgRst_tr (s : State) (d : Dir) : (s.cfgLine .rst d).tr = s.tr ++ [.cfg .rst d] := rfl
@[simp] theorem State.cfgRst_hostIn (s : State) (d : Dir) : (s.cfgLine .rst d).hostIn = s.hostIn := rfl
@[simp] theorem State.cfgRst_busyIn (s : State) (d : Dir) : (s.cfgLine .rst d).busyIn = s.busyIn := rfl
@[simp] theorem State.cfgRst_timeIn (s : State) (d : Dir) : (s.cfgLine .rst d).timeIn = s.timeIn := rfl
@[simp] theorem State.cfgRst_draws (s : State) (d : Dir) : (s.cfgLine .rst d).draws = s.draws := rfl
@[simp] theorem State.cfgRst_lastNow (s : State) (d : Dir) : (s.cfgLine .rst d).lastNow = s.lastNow := rfl
@[simp] theorem State.cfgRst_slept (s : State) (d : Dir) : (s.cfgLine .rst d).slept = s.slept := rfl

/-! ### s.cfgLine .busy d -/

@[simp] theorem State.cfgBusy_params (s : State) (d : Dir) : (s.cfgLine .busy d).params = s.params := rfl
@[simp] theorem State.cfgBusy_fb (s : State) (d : Dir) : (s.cfgLine .busy d).fb = s.fb := rfl
@[simp] theorem State.cfgBusy_atUpdate (s : State) (d : Dir) : (s.cfgLine .busy d).atUpdate = s.atUpdate := rfl
@[simp] theorem State.cfgBusy_warning (s : State) (d : Dir) : (s.cfgLine .busy d).warning = s.warning := rfl
@[simp] theorem State.cfgBusy_dsbu (s : State) (d : Dir) : (s.cfgLine .busy d).dsbu = s.dsbu := rfl
@[simp] theorem State.cfgBusy_panelState (s : State) (d : Dir) : (s.cfgLine .busy d).panelState = s.panelState := rfl
@[simp] theorem State.cfgBusy_setupDone (s : State) (d : Dir) : (s.cfgLine .busy d).setupDone = s.setupDone := rfl
@[simp] theorem State.cfgBusy_seq (s : State) (d : Dir) : (s.cfgLine .busy d).seq = s.seq := rfl
@[simp] theorem State.cfgBusy_opf (s : State) (d : Dir) : (s.cfgLine .busy d).opf = s.opf := rfl
@[simp] theorem State.cfgBusy_done (s : State) (d : Dir) : (s.cfgLine .busy d).done = s.done := rfl
@[simp] theorem State.cfgBusy_resStatus (s : State) (d : Dir) : (s.cfgLine .busy d).resStatus = s.resStatus := rfl
@[simp] theorem State.cfgBusy_resValue (s : State) (d : Dir) : (s.cfgLine .busy d).resValue = s.resValue := rfl
@[simp] theorem State.cfgBusy_dcLvl (s : State) (d : Dir) : (s.cfgLine .busy d).dcLvl = s.dcLvl := rfl
@[simp] theorem State.cfgBusy_rstLvl (s : State) (d : Dir) : (s.cfgLine .busy d).rstLvl = s.rstLvl := rfl
@[simp] theorem State.cfgBusy_cs (s : State) (d : Dir) : (s.cfgLine .busy d).cs = s.cs := rfl
@[simp] theorem State.cfgBusy_dirDc (s : State) (d : Dir) : (s.cfgLine .busy d).dirDc = s.dirDc := rfl
@[simp] theorem State.cfgBusy_dirRst (s : State) (d : Dir) : (s.cfgLine .busy d).dirRst = s.dirRst := rfl
@[simp] theorem State.cfgBusy_dirBusy (s : State) (d : Dir) : (s.cfgLine .busy d).dirBusy = d := rfl
@[simp] theorem State.cfgBusy_bgStart (s : State) (d : Dir) : (s.cfgLine .busy d).bgStart = s.bgStart := rfl
@[simp] theorem State.cfgBusy_full (s : State) (d : Dir) : (s.cfgLine .busy d).full = s.full := rfl
@[simp] theorem State.cfgBusy_prev (s : State) (d : Dir) : (s.cfgLine .busy d).prev = s.prev := rfl
@[simp] theorem State.cfgBusy_tr (s : State) (d : Dir) : (s.cfgLine .busy d).tr = s.tr ++ [.cfg .busy d] := rfl
@[simp] theorem State.cfgBusy_hostIn (s : State) (d : Dir) : (s.cfgLine .busy d).hostIn = s.hostIn := rfl
@[simp] theorem State.cfgBusy_busyIn (s : State) (d : Dir) : (s.cfgLine .busy d).busyIn = s.busyIn := rfl
@[simp] theorem State.cfgBusy_timeIn (s : State) (d : Dir) : (s.cfgLine .busy d).timeIn = s.timeIn := rfl
@[simp] theorem State.cfgBusy_draws (s : State) (d : Dir) : (s.cfgLine .busy d).draws = s.draws := rfl
@[simp] theorem State.cfgBusy_lastNow (s : State) (d : Dir) : (s.cfgLine .busy d).lastNow = s.lastNow := rfl
@[simp] theorem State.cfgBusy_slept (s : State) (d : Dir) : (s.cfgLine .busy d).slept = s.slept := rfl

/-! ### s.cmd b -/

@[simp] theorem State.cmd_params (s : State) (b : Byte) : (s.cmd b).params = s.params := by simp [State.cmd]
@[simp] theorem State.cmd_fb (s : State) (b : Byte) : (s.cmd b).fb = s.fb := by simp [State.cmd]
@[simp] theorem State.cmd_atUpdate (s : State) (b : Byte) : (s.cmd b).atUpdate = s.atUpdate := by simp [State.cmd]
@[simp] theorem State.cmd_warning (s : State) (b : Byte) : (s.cmd b).warning = s.warning := by simp [State.cmd]
@[simp] theorem State.cmd_dsbu (s : State) (b : Byte) : (s.cmd b).dsbu = s.dsbu := by simp [State.cmd]
@[simp] theorem State.cmd_panelState (s : State) (b : Byte) : (s.cmd b).panelState = s.panelState := by simp [State.cmd]
@[simp] theorem State.cmd_setupDone (s : State) (b : Byte) : (s.cmd b).setupDone = s.setupDone := by simp [State.cmd]
@[simp] theorem State.cmd_seq (s : State) (b : Byte) : (s.cmd b).seq = s.seq := by simp [State.cmd]
@[simp] theorem State.cmd_opf (s : State) (b : Byte) : (s.cmd b).opf = s.opf := by simp [State.cmd]
@[simp] theorem State.cmd_done (s : State) (b : Byte) : (s.cmd b).done = s.done := by simp [State.cmd]
@[simp] theorem State.cmd_resStatus (s : State) (b : Byte) : (s.cmd b).resStatus = s.resStatus := by simp [State.cmd]
@[simp] theorem State.cmd_resValue (s : State) (b : Byte) : (s.cmd b).resValue = s.resValue := by simp [State.cmd]
@[simp] theorem State.cmd_dcLvl (s : State) (b : Byte) : (s.cmd b).dcLvl = false := by simp [State.cmd]
@[simp] theorem State.cmd_rstLvl (s : State) (b : Byte) : (s.cmd b).rstLvl = s.rstLvl := by simp [State.cmd]
@[simp] theorem State.cmd_cs (s : State) (b : Byte) : (s.cmd b).cs = false := by simp [State.cmd]
@[simp] theorem State.cmd_dirDc (s : State) (b : Byte) : (s.cmd b).dirDc = s.dirDc := by simp [State.cmd]
@[simp] theorem State.cmd_dirRst (s : State) (b : Byte) : (s.cmd b).dirRst = s.dirRst := by simp [State.cmd]
@[simp] theorem State.cmd_dirBusy (s : State) (b : Byte) : (s.cmd b).dirBusy = s.dirBusy := by simp [State.cmd]
@[simp] theorem State.cmd_bgStart (s : State) (b : Byte) : (s.cmd b).bgStart = s.bgStart := by simp [State.cmd]
@[simp] theorem State.cmd_full (s : State) (b : Byte) : (s.cmd b).full = s.full := by simp [State.cmd]
@[simp] theorem State.cmd_prev (s : State) (b : Byte) : (s.cmd b).prev = s.prev := by simp [State.cmd]
@[simp] theorem State.cmd_tr (s : State) (b : Byte) : (s.cmd b).tr = s.tr ++ evCmd b := by
  simp [State.cmd, evCmd, State.setLine, State.setCs, State.sendBytes, State.emit, List.append_assoc]
@[simp] theorem State.cmd_hostIn (s : State) (b : Byte) : (s.cmd b).hostIn = s.hostIn := by simp [State.cmd]
@[simp] theorem State.cmd_busyIn (s : State) (b : Byte) : (s.cmd b).busyIn = s.busyIn := by simp [State.cmd]
@[simp] theorem State.cmd_timeIn (s : State) (b : Byte) : (s.cmd b).timeIn = s.timeIn := by simp [State.cmd]
@[simp] theorem State.cmd_draws (s : State) (b : Byte) : (s.cmd b).draws = s.draws := by simp [State.cmd]
@[simp] theorem State.cmd_lastNow (s : State) (b : Byte) : (s.cmd b).lastNow = s.lastNow := by simp [State.cmd]
@[simp] theorem State.cmd_slept (s : State) (b : Byte) : (s.cmd b).slept = s.slept := by simp [State.cmd]

/-! ### s.dat bs -/

@[simp] theorem State.dat_params (s : State) (bs : List Byte) : (s.dat bs).params = s.params := by simp [State.dat]
@[simp] theorem State.dat_fb (s : State) (bs : List Byte) : (s.dat bs).fb = s.fb := by simp [State.dat]
@[simp] theorem State.dat_atUpdate (s : State) (bs : List Byte) : (s.dat bs).atUpdate = s.atUpdate := by simp [State.dat]
@[simp] theorem State.dat_warning (s : State) (bs : List Byte) : (s.dat bs).warning = s.warning := by simp [State.dat]
@[simp] theorem State.dat_dsbu (s : State) (bs : List Byte) : (s.dat bs).dsbu = s.dsbu := by simp [State.dat]
@[simp] theorem State.dat_panelState (s : State) (bs : List Byte) : (s.dat bs).panelState = s.panelState := by simp [State.dat]
@[simp] theorem State.dat_setupDone (s : State) (bs : List Byte) : (s.dat bs).setupDone = s.setupDone := by simp [State.dat]
@[simp] theorem State.dat_seq (s : State) (bs : List Byte) : (s.dat bs).seq = s.seq := by simp [State.dat]
@[simp] theorem State.dat_opf (s : State) (bs : List Byte) : (s.dat bs).opf = s.opf := by simp [State.dat]
@[simp] theorem State.dat_done (s : State) (bs : List Byte) : (s.dat bs).done = s.done := by simp [State.dat]
@[simp] theorem State.dat_resStatus (s : State) (bs : List Byte) : (s.dat bs).resStatus = s.resStatus := by simp [State.dat]
@[simp] theorem State.dat_resValue (s : State) (bs : List Byte) : (s.dat bs).resValue = s.resValue := by simp [State.dat]
@[simp] theorem State.dat_dcLvl (s : State) (bs : List Byte) : (s.dat bs).dcLvl = true := by simp [State.dat]
@[simp] theorem State.dat_rstLvl (s : State) (bs : List Byte) : (s.dat bs).rstLvl = s.rstLvl := by simp [State.dat]
@[simp] theorem State.dat_cs (s : State) (bs : List Byte) : (s.dat bs).cs = false := by simp [State.dat]
@[simp] theorem State.dat_dirDc (s : State) (bs : List Byte) : (s.dat bs).dirDc = s.dirDc := by simp [State.dat]
@[simp] theorem State.dat_dirRst (s : State) (bs : List Byte) : (s.dat bs).dirRst = s.dirRst := by simp [State.dat]
@[simp] theorem State.dat_dirBusy (s : State) (bs : List Byte) : (s.dat bs).dirBusy = s.dirBusy := by simp [State.dat]
@[simp] theorem State.dat_bgStart (s : State) (bs : List Byte) : (s.dat bs).bgStart = s.bgStart := by simp [State.dat]
@[simp] theorem State.dat_full (s : State) (bs : List Byte) : (s.dat bs).full = s.full := by simp [State.dat]
@[simp] theorem State.dat_prev (s : State) (bs : List Byte) : (s.dat bs).prev = s.prev := by simp [State.dat]
@[simp] theorem State.dat_tr (s : State) (bs : List Byte) : (s.dat bs).tr = s.tr ++ evDat bs := by
  simp [State.dat, evDat, State.setLine, State.setCs, State.sendBytes, State.emit, List.append_assoc]
@[simp] theorem State.dat_hostIn (s : State) (bs : List Byte) : (s.dat bs).hostIn = s.hostIn := by simp [State.dat]
@[simp] theorem State.dat_busyIn (s : State) (bs : List Byte) : (s.dat bs).busyIn = s.busyIn := by simp [State.dat]
@[simp] theorem State.dat_timeIn (s : State) (bs : List Byte) : (s.dat bs).timeIn = s.timeIn := by simp [State.dat]
@[simp] theorem State.dat_draws (s : State) (bs : List Byte) : (s.dat bs).draws = s.draws := by simp [State.dat]
@[simp] theorem State.dat_lastNow (s : State) (bs : List Byte) : (s.dat bs).lastNow = s.lastNow := by simp [State.dat]
@[simp] theorem State.dat_slept (s : State) (bs : List Byte) : (s.dat bs).slept = s.slept := by simp [State.dat]

/-! ### s.cmdDat b bs -/

@[simp] theorem State.cmdDat_params (s : State) (b : Byte) (bs : List Byte) : (s.cmdDat b bs).params = s.params := by simp [State.cmdDat]
@[simp] theorem State.cmdDat_fb (s : State) (b : Byte) (bs : List Byte) : (s.cmdDat b bs).fb = s.fb := by simp [State.cmdDat]
@[simp] theorem State.cmdDat_atUpdate (s : State) (b : Byte) (bs : List Byte) : (s.cmdDat b bs).atUpdate = s.atUpdate := by simp [State.cmdDat]
@[simp] theorem State.cmdDat_warning (s : State) (b : Byte) (bs : List Byte) : (s.cmdDat b bs).warning = s.warning := by simp [State.cmdDat]
@[simp] theorem State.cmdDat_dsbu (s : State) (b : Byte) (bs : List Byte) : (s.cmdDat b bs).dsbu = s.dsbu := by simp [State.cmdDat]
@[simp] theorem State.cmdDat_panelState (s : State) (b : Byte) (bs : List Byte) : (s.cmdDat b bs).panelState = s.panelState := by simp [State.cmdDat]
@[simp] theorem State.cmdDat_setupDone (s : State) (b : Byte) (bs : List Byte) : (s.cmdDat b bs).setupDone = s.setupDone := by simp [State.cmdDat]
@[simp] theorem State.cmdDat_seq (s : State) (b : Byte) (bs : List Byte) : (s.cmdDat b bs).seq = s.seq := by simp [State.cmdDat]
@[simp] theorem State.cmdDat_opf (s : State) (b : Byte) (bs : List Byte) : (s.cmdDat b bs).opf = s.opf := by simp [State.cmdDat]
@[simp] theorem State.cmdDat_done (s : State) (b : Byte) (bs : List Byte) : (s.cmdDat b bs).done = s.done := by simp [State.cmdDat]
@[simp] theorem State.cmdDat_resStatus (s : State) (b : Byte) (bs : List Byte) : (s.cmdDat b bs).resStatus = s.resStatus := by simp [State.cmdDat]
@[simp] theorem State.cmdDat_resValue (s : State) (b : Byte) (bs : List Byte) : (s.cmdDat b bs).resValue = s.resValue := by simp [State.cmdDat]
@[simp] theorem State.cmdDat_dcLvl (s : State) (b : Byte) (bs : List Byte) : (s.cmdDat b bs).dcLvl = true := by simp [State.cmdDat]
@[simp] theorem State.cmdDat_rstLvl (s : State) (b : Byte) (bs : List Byte) : (s.cmdDat b bs).rstLvl = s.rstLvl := by simp [State.cmdDat]
@[simp] theorem State.cmdDat_cs (s : State) (b : Byte) (bs : List Byte) : (s.cmdDat b bs).cs = false := by simp [State.cmdDat]
@[simp] theorem State.cmdDat_dirDc (s : State) (b : Byte) (bs : List Byte) : (s.cmdDat b bs).dirDc = s.dirDc := by simp [State.cmdDat]
@[simp] theorem State.cmdDat_dirRst (s : State) (b : Byte) (bs : List Byte) : (s.cmdDat b bs).dirRst = s.dirRst := by simp [State.cmdDat]
@[simp] theorem State.cmdDat_dirBusy (s : State) (b : Byte) (bs : List Byte) : (s.cmdDat b bs).dirBusy = s.dirBusy := by simp [State.cmdDat]
@[simp] theorem State.cmdDat_bgStart (s : State) (b : Byte) (bs : List Byte) : (s.cmdDat b bs).bgStart = s.bgStart := by simp [State.cmdDat]
@[simp] theorem State.cmdDat_full (s : State) (b : Byte) (bs : List Byte) : (s.cmdDat b bs).full = s.full := by simp [State.cmdDat]
@[simp] theorem State.cmdDat_prev (s : State) (b : Byte) (bs : List Byte) : (s.cmdDat b bs).prev = s.prev := by simp [State.cmdDat]
@[simp] theorem State.cmdDat_tr (s : State) (b : Byte) (bs : List Byte) : (s.cmdDat b bs).tr = s.tr ++ evCmdDat b bs := by
  simp [State.cmdDat, evCmdDat, State.setLine, State.setCs, State.sendBytes, State.emit, List.append_assoc]
@[simp] theorem State.cmdDat_hostIn (s : State) (b : Byte) (bs : List Byte) : (s.cmdDat b bs).hostIn = s.hostIn := by simp [State.cmdDat]
@[simp] theorem State.cmdDat_busyIn (s : State) (b : Byte) (bs : List Byte) : (s.cmdDat b bs).busyIn = s.busyIn := by simp [State.cmdDat]
@[simp] theorem State.cmdDat_timeIn (s : State) (b : Byte) (bs : List Byte) : (s.cmdDat b bs).timeIn = s.timeIn := by simp [State.cmdDat]
@[simp] theorem State.cmdDat_draws (s : State) (b : Byte) (bs : List Byte) : (s.cmdDat b bs).draws = s.draws := by simp [State.cmdDat]
@[simp] theorem State.cmdDat_lastNow (s : State) (b : Byte) (bs : List Byte) : (s.cmdDat b bs).lastNow = s.lastNow := by simp [State.cmdDat]
@[simp] theorem State.cmdDat_slept (s : State) (b : Byte) (bs : List Byte) : (s.cmdDat b bs).slept = s.slept := by simp [State.cmdDat]

/-! ### s.sleepMs d -/

@[simp] theorem State.sleepMs_params (s : State) (d : U32) : (s.sleepMs d).params = s.params := rfl
@[simp] theorem State.sleepMs_fb (s : State) (d : U32) : (s.sleepMs d).fb = s.fb := rfl
@[simp] theorem State.sleepMs_atUpdate (s : State) (d : U32) : (s.sleepMs d).atUpdate = s.atUpdate := rfl
@[simp] theorem State.sleepMs_warning (s : State) (d : U32) : (s.sleepMs d).warning = s.warning := rfl
@[simp] theorem State.sleepMs_dsbu (s : State) (d : U32) : (s.sleepMs d).dsbu = s.dsbu := rfl
@[simp] theorem State.sleepMs_panelState (s : State) (d : U32) : (s.sleepMs d).panelState = s.panelState := rfl
@[simp] theorem State.sleepMs_setupDone (s : State) (d : U32) : (s.sleepMs d).setupDone = s.setupDone := rfl
@[simp] theorem State.sleepMs_seq (s : State) (d : U32) : (s.sleepMs d).seq = s.seq := rfl
@[simp] theorem State.sleepMs_opf (s : State) (d : U32) : (s.sleepMs d).opf = s.opf := rfl
@[simp] theorem State.sleepMs_done (s : State) (d : U32) : (s.sleepMs d).done = s.done := rfl
@[simp] theorem State.sleepMs_resStatus (s : State) (d : U32) : (s.sleepMs d).resStatus = s.resStatus := rfl
@[simp] theorem State.sleepMs_resValue (s : State) (d : U32) : (s.sleepMs d).resValue = s.resValue := rfl
@[simp] theorem State.sleepMs_dcLvl (s : State) (d : U32) : (s.sleepMs d).dcLvl = s.dcLvl := rfl
@[simp] theorem State.sleepMs_rstLvl (s : State) (d : U32) : (s.sleepMs d).rstLvl = s.rstLvl := rfl
@[simp] theorem State.sleepMs_cs (s : State) (d : U32) : (s.sleepMs d).cs = s.cs := rfl
@[simp] theorem State.sleepMs_dirDc (s : State) (d : U32) : (s.sleepMs d).dirDc = s.dirDc := rfl
@[simp] theorem State.sleepMs_dirRst (s : State) (d : U32) : (s.sleepMs d).dirRst = s.dirRst := rfl
@[simp] theorem State.sleepMs_dirBusy (s : State) (d : U32) : (s.sleepMs d).dirBusy = s.dirBusy := rfl
@[simp] theorem State.sleepMs_bgStart (s : State) (d : U32) : (s.sleepMs d).bgStart = s.bgStart := rfl
@[simp] theorem State.sleepMs_full (s : State) (d : U32) : (s.sleepMs d).full = s.full := rfl
@[simp] theorem State.sleepMs_prev (s : State) (d : U32) : (s.sleepMs d).prev = s.prev := rfl
@[simp] theorem State.sleepMs_tr (s : State) (d : U32) : (s.sleepMs d).tr = s.tr ++ [.sleep d] := rfl
@[simp] theorem State.sleepMs_hostIn (s : State) (d : U32) : (s.sleepMs d).hostIn = s.hostIn := rfl
@[simp] theorem State.sleepMs_busyIn (s : State) (d : U32) : (s.sleepMs d).busyIn = s.busyIn := rfl
@[simp] theorem State.sleepMs_timeIn (s : State) (d : U32) : (s.sleepMs d).timeIn = s.timeIn := rfl
@[simp] theorem State.sleepMs_draws (s : State) (d : U32) : (s.sleepMs d).draws = s.draws := rfl
@[simp] theorem State.sleepMs_lastNow (s : State) (d : U32) : (s.sleepMs d).lastNow = s.lastNow := rfl
@[simp] theorem State.sleepMs_slept (s : State) (d : U32) : (s.sleepMs d).slept = s.slept + d.toNat := rfl

/-! ### s.gatePassed -/

@[simp] theorem State.gatePassed_params (s : State) : (s.gatePassed).params = s.params := rfl
@[simp] theorem State.gatePassed_fb (s : State) : (s.gatePassed).fb = s.fb := rfl
@[simp] theorem State.gatePassed_atUpdate (s : State) : (s.gatePassed).atUpdate = s.atUpdate := rfl
@[simp] theorem State.gatePassed_warning (s : State) : (s.gatePassed).warning = s.warning := rfl
@[simp] theorem State.gatePassed_dsbu (s : State) : (s.gatePassed).dsbu = s.dsbu := rfl
@[simp] theorem State.gatePassed_panelState (s : State) : (s.gatePassed).panelState = if s.panelState = .busy then .idle else s.panelState := rfl
@[simp] theorem State.gatePassed_setupDone (s : State) : (s.gatePassed).setupDone = s.setupDone := rfl
@[simp] theorem State.gatePassed_seq (s : State) : (s.gatePassed).seq = s.seq := rfl
@[simp] theorem State.gatePassed_opf (s : State) : (s.gatePassed).opf = s.opf := rfl
@[simp] theorem State.gatePassed_done (s : State) : (s.gatePassed).done = s.done := rfl
@[simp] theorem State.gatePassed_resStatus (s : State) : (s.gatePassed).resStatus = s.resStatus := rfl
@[simp] theorem State.gatePassed_resValue (s : State) : (s.gatePassed).resValue = s.resValue := rfl
@[simp] theorem State.gatePassed_dcLvl (s : State) : (s.gatePassed).dcLvl = s.dcLvl := rfl
@[simp] theorem State.gatePassed_rstLvl (s : State) : (s.gatePassed).rstLvl = s.rstLvl := rfl
@[simp] theorem State.gatePassed_cs (s : State) : (s.gatePassed).cs = s.cs := rfl
@[simp] theorem State.gatePassed_dirDc (s : State) : (s.gatePassed).dirDc = s.dirDc := rfl
@[simp] theorem State.gatePassed_dirRst (s : State) : (s.gatePassed).dirRst = s.dirRst := rfl
@[simp] theorem State.gatePassed_dirBusy (s : State) : (s.gatePassed).dirBusy = s.dirBusy := rfl
@[simp] theorem State.gatePassed_bgStart (s : State) : (s.gatePassed).bgStart = s.bgStart := rfl
@[simp] theorem State.gatePassed_full (s : State) : (s.gatePassed).full = s.full := rfl
@[simp] theorem State.gatePassed_prev (s : State) : (s.gatePassed).prev = s.prev := rfl
@[simp] theorem State.gatePassed_tr (s : State) : (s.gatePassed).tr = s.tr := rfl
@[simp] theorem State.gatePassed_hostIn (s : State) : (s.gatePassed).hostIn = s.hostIn := rfl
@[simp] theorem State.gatePassed_busyIn (s : State) : (s.gatePassed).busyIn = s.busyIn := rfl
@[simp] theorem State.gatePassed_timeIn (s : State) : (s.gatePassed).timeIn = s.timeIn := rfl
@[simp] theorem State.gatePassed_draws (s : State) : (s.gatePassed).draws = s.draws := rfl
@[simp] theorem State.gatePassed_lastNow (s : State) : (s.gatePassed).lastNow = s.lastNow := rfl
@[simp] theorem State.gatePassed_slept (s : State) : (s.gatePassed).slept = s.slept := rfl

/-! ### s.markBusy -/

@[simp] theorem State.markBusy_params (s : State) : (s.markBusy).params = s.params := rfl
@[simp] theorem State.markBusy_fb (s : State) : (s.markBusy).fb = s.fb := rfl
@[simp] theorem State.markBusy_atUpdate (s : State) : (s.markBusy).atUpdate = s.atUpdate := rfl
@[simp] theorem State.markBusy_warning (s : State) : (s.markBusy).warning = s.warning := rfl
@[simp] theorem State.markBusy_dsbu (s : State) : (s.markBusy).dsbu = s.dsbu := rfl
@[simp] theorem State.markBusy_panelState (s : State) : (s.markBusy).panelState = if s.panelState = .uninitialized ∨ s.panelState = .sleeping then s.panelState else .busy := rfl
@[simp] theorem State.markBusy_setupDone (s : State) : (s.markBusy).setupDone = s.setupDone := rfl
@[simp] theorem State.markBusy_seq (s : State) : (s.markBusy).seq = s.seq := rfl
@[simp] theorem State.markBusy_opf (s : State) : (s.markBusy).opf = s.opf := rfl
@[simp] theorem State.markBusy_done (s : State) : (s.markBusy).done = s.done := rfl
@[simp] theorem State.markBusy_resStatus (s : State) : (s.markBusy).resStatus = s.resStatus := rfl
@[simp] theorem State.markBusy_resValue (s : State) : (s.markBusy).resValue = s.resValue := rfl
@[simp] theorem State.markBusy_dcLvl (s : State) : (s.markBusy).dcLvl = s.dcLvl := rfl
@[simp] theorem State.markBusy_rstLvl (s : State) : (s.markBusy).rstLvl = s.rstLvl := rfl
@[simp] theorem State.markBusy_cs (s : State) : (s.markBusy).cs = s.cs := rfl
@[simp] theorem State.markBusy_dirDc (s : State) : (s.markBusy).dirDc = s.dirDc := rfl
@[simp] theorem State.markBusy_dirRst (s : State) : (s.markBusy).dirRst = s.dirRst := rfl
@[simp] theorem State.markBusy_dirBusy (s : State) : (s.markBusy).dirBusy = s.dirBusy := rfl
@[simp] theorem State.markBusy_bgStart (s : State) : (s.markBusy).bgStart = s.bgStart := rfl
@[simp] theorem State.markBusy_full (s : State) : (s.markBusy).full = s.full := rfl
@[simp] theorem State.markBusy_prev (s : State) : (s.markBusy).prev = s.prev := rfl
@[simp] theorem State.markBusy_tr (s : State) : (s.markBusy).tr = s.tr := rfl
@[simp] theorem State.markBusy_hostIn (s : State) : (s.markBusy).hostIn = s.hostIn := rfl
@[simp] theorem State.markBusy_busyIn (s : State) : (s.markBusy).busyIn = s.busyIn := rfl
@[simp] theorem State.markBusy_timeIn (s : State) : (s.markBusy).timeIn = s.timeIn := rfl
@[simp] theorem State.markBusy_draws (s : State) : (s.markBusy).draws = s.draws := rfl
@[simp] theorem State.markBusy_lastNow (s : State) : (s.markBusy).lastNow = s.lastNow := rfl
@[simp] theorem State.markBusy_slept (s : State) : (s.markBusy).slept = s.slept := rfl

/-! ### s.start op -/

@[simp] theorem State.start_params (s : State) (op : HostOp) : (s.start op).params = s.params := rfl
@[simp] theorem State.start_fb (s : State) (op : HostOp) : (s.start op).fb = s.fb := rfl
@[simp] theorem State.start_atUpdate (s : State) (op : HostOp) : (s.start op).atUpdate = s.atUpdate := rfl
@[simp] theorem State.start_warning (s : State) (op : HostOp) : (s.start op).warning = s.warning := rfl
@[simp] theorem State.start_dsbu (s : State) (op : HostOp) : (s.start op).dsbu = s.dsbu := rfl
@[simp] theorem State.start_panelState (s : State) (op : HostOp) : (s.start op).panelState = s.panelState := rfl
@[simp] theorem State.start_setupDone (s : State) (op : HostOp) : (s.start op).setupDone = s.setupDone := rfl
@[simp] theorem State.start_seq (s : State) (op : HostOp) : (s.start op).seq = .entry op := rfl
@[simp] theorem State.start_opf (s : State) (op : HostOp) : (s.start op).opf = s.opf := rfl
@[simp] theorem State.start_done (s : State) (op : HostOp) : (s.start op).done = false := rfl
@[simp] theorem State.start_resStatus (s : State) (op : HostOp) : (s.start op).resStatus = s.resStatus := rfl
@[simp] theorem State.start_resValue (s : State) (op : HostOp) : (s.start op).resValue = s.resValue := rfl
@[simp] theorem State.start_dcLvl (s : State) (op : HostOp) : (s.start op).dcLvl = s.dcLvl := rfl
@[simp] theorem State.start_rstLvl (s : State) (op : HostOp) : (s.start op).rstLvl = s.rstLvl := rfl
@[simp] theorem State.start_cs (s : State) (op : HostOp) : (s.start op).cs = s.cs := rfl
@[simp] theorem State.start_dirDc (s : State) (op : HostOp) : (s.start op).dirDc = s.dirDc := rfl
@[simp] theorem State.start_dirRst (s : State) (op : HostOp) : (s.start op).dirRst = s.dirRst := rfl
@[simp] theorem State.start_dirBusy (s : State) (op : HostOp) : (s.start op).dirBusy = s.dirBusy := rfl
@[simp] theorem State.start_bgStart (s : State) (op : HostOp) : (s.start op).bgStart = s.bgStart := rfl
@[simp] theorem State.start_full (s : State) (op : HostOp) : (s.start op).full = s.full := rfl
@[simp] theorem State.start_prev (s : State) (op : HostOp) : (s.start op).prev = s.prev := rfl
@[simp] theorem State.start_tr (s : State) (op : HostOp) : (s.start op).tr = s.tr := rfl
@[simp] theorem State.start_hostIn (s : State) (op : HostOp) : (s.start op).hostIn = s.hostIn := rfl
@[simp] theorem State.start_busyIn (s : State) (op : HostOp) : (s.start op).busyIn = s.busyIn := rfl
@[simp] theorem State.start_timeIn (s : State) (op : HostOp) : (s.start op).timeIn = s.timeIn := rfl
@[simp] theorem State.start_draws (s : State) (op : HostOp) : (s.start op).draws = s.draws := rfl
@[simp] theorem State.start_lastNow (s : State) (op : HostOp) : (s.start op).lastNow = s.lastNow := rfl
@[simp] theorem State.start_slept (s : State) (op : HostOp) : (s.start op).slept = s.slept := rfl

/-! ### s.finish st v -/

@[simp] theorem State.finish_params (s : State) (st : Status) (v : U32) : (s.finish st v).params = s.params := rfl
@[simp] theorem State.finish_fb (s : State) (st : Status) (v : U32) : (s.finish st v).fb = s.fb := rfl
@[simp] theorem State.finish_atUpdate (s : State) (st : Status) (v : U32) : (s.finish st v).atUpdate = s.atUpdate := rfl
@[simp] theorem State.finish_warning (s : State) (st : Status) (v : U32) : (s.finish st v).warning = s.warning := rfl
@[simp] theorem State.finish_dsbu (s : State) (st : Status) (v : U32) : (s.finish st v).dsbu = s.dsbu := rfl
@[simp] theorem State.finish_panelState (s : State) (st : Status) (v : U32) : (s.finish st v).panelState = s.panelState := rfl
@[simp] theorem State.finish_setupDone (s : State) (st : Status) (v : U32) : (s.finish st v).setupDone = s.setupDone := rfl
@[simp] theorem State.finish_seq (s : State) (st : Status) (v : U32) : (s.finish st v).seq = .ready := rfl
@[simp] theorem State.finish_opf (s : State) (st : Status) (v : U32) : (s.finish st v).opf = s.opf := rfl
@[simp] theorem State.finish_done (s : State) (st : Status) (v : U32) : (s.finish st v).done = true := rfl
@[simp] theorem State.finish_resStatus (s : State) (st : Status) (v : U32) : (s.finish st v).resStatus = st.code := rfl
@[simp] theorem State.finish_resValue (s : State) (st : Status) (v : U32) : (s.finish st v).resValue = v := rfl
@[simp] theorem State.finish_dcLvl (s : State) (st : Status) (v : U32) : (s.finish st v).dcLvl = s.dcLvl := rfl
@[simp] theorem State.finish_rstLvl (s : State) (st : Status) (v : U32) : (s.finish st v).rstLvl = s.rstLvl := rfl
@[simp] theorem State.finish_cs (s : State) (st : Status) (v : U32) : (s.finish st v).cs = s.cs := rfl
@[simp] theorem State.finish_dirDc (s : State) (st : Status) (v : U32) : (s.finish st v).dirDc = s.dirDc := rfl
@[simp] theorem State.finish_dirRst (s : State) (st : Status) (v : U32) : (s.finish st v).dirRst = s.dirRst := rfl
@[simp] theorem State.finish_dirBusy (s : State) (st : Status) (v : U32) : (s.finish st v).dirBusy = s.dirBusy := rfl
@[simp] theorem State.finish_bgStart (s : State) (st : Status) (v : U32) : (s.finish st v).bgStart = s.bgStart := rfl
@[simp] theorem State.finish_full (s : State) (st : Status) (v : U32) : (s.finish st v).full = s.full := rfl
@[simp] theorem State.finish_prev (s : State) (st : Status) (v : U32) : (s.finish st v).prev = s.prev := rfl
@[simp] theorem State.finish_tr (s : State) (st : Status) (v : U32) : (s.finish st v).tr = s.tr := rfl
@[simp] theorem State.finish_hostIn (s : State) (st : Status) (v : U32) : (s.finish st v).hostIn = s.hostIn := rfl
@[simp] theorem State.finish_busyIn (s : State) (st : Status) (v : U32) : (s.finish st v).busyIn = s.busyIn := rfl
@[simp] theorem State.finish_timeIn (s : State) (st : Status) (v : U32) : (s.finish st v).timeIn = s.timeIn := rfl
@[simp] theorem State.finish_draws (s : State) (st : Status) (v : U32) : (s.finish st v).draws = s.draws := rfl
@[simp] theorem State.finish_lastNow (s : State) (st : Status) (v : U32) : (s.finish st v).lastNow = s.lastNow := rfl
@[simp] theorem State.finish_slept (s : State) (st : Status) (v : U32) : (s.finish st v).slept = s.slept := rfl

/-! ### s.raiseIdleTimeout g -/

@[simp] theorem State.raiseIdleTimeout_params (s : State) (g : GateSite) : (s.raiseIdleTimeout g).params = s.params := rfl
@[simp] theorem State.raiseIdleTimeout_fb (s : State) (g : GateSite) : (s.raiseIdleTimeout g).fb = s.fb := rfl
@[simp] theorem State.raiseIdleTimeout_atUpdate (s : State) (g : GateSite) : (s.raiseIdleTimeout g).atUpdate = s.atUpdate := rfl
@[simp] theorem State.raiseIdleTimeout_warning (s : State) (g : GateSite) : (s.raiseIdleTimeout g).warning = true := rfl
@[simp] theorem State.raiseIdleTimeout_dsbu (s : State) (g : GateSite) : (s.raiseIdleTimeout g).dsbu = s.dsbu := rfl
@[simp] theorem State.raiseIdleTimeout_panelState (s : State) (g : GateSite) : (s.raiseIdleTimeout g).panelState = s.panelState := rfl
@[simp] theorem State.raiseIdleTimeout_setupDone (s : State) (g : GateSite) : (s.raiseIdleTimeout g).setupDone = s.setupDone := rfl
@[simp] theorem State.raiseIdleTimeout_seq (s : State) (g : GateSite) : (s.raiseIdleTimeout g).seq = .ready := rfl
@[simp] theorem State.raiseIdleTimeout_opf (s : State) (g : GateSite) : (s.raiseIdleTimeout g).opf = s.opf := rfl
@[simp] theorem State.raiseIdleTimeout_done (s : State) (g : GateSite) : (s.raiseIdleTimeout g).done = true := rfl
@[simp] theorem State.raiseIdleTimeout_resStatus (s : State) (g : GateSite) : (s.raiseIdleTimeout g).resStatus = 1 := rfl
@[simp] theorem State.raiseIdleTimeout_resValue (s : State) (g : GateSite) : (s.raiseIdleTimeout g).resValue = 0 := rfl
@[simp] theorem State.raiseIdleTimeout_dcLvl (s : State) (g : GateSite) : (s.raiseIdleTimeout g).dcLvl = s.dcLvl := rfl
@[simp] theorem State.raiseIdleTimeout_rstLvl (s : State) (g : GateSite) : (s.raiseIdleTimeout g).rstLvl = s.rstLvl := rfl
@[simp] theorem State.raiseIdleTimeout_cs (s : State) (g : GateSite) : (s.raiseIdleTimeout g).cs = s.cs := rfl
@[simp] theorem State.raiseIdleTimeout_dirDc (s : State) (g : GateSite) : (s.raiseIdleTimeout g).dirDc = s.dirDc := rfl
@[simp] theorem State.raiseIdleTimeout_dirRst (s : State) (g : GateSite) : (s.raiseIdleTimeout g).dirRst = s.dirRst := rfl
@[simp] theorem State.raiseIdleTimeout_dirBusy (s : State) (g : GateSite) : (s.raiseIdleTimeout g).dirBusy = s.dirBusy := rfl
@[simp] theorem State.raiseIdleTimeout_bgStart (s : State) (g : GateSite) : (s.raiseIdleTimeout g).bgStart = s.bgStart := rfl
@[simp] theorem State.raiseIdleTimeout_full (s : State) (g : GateSite) : (s.raiseIdleTimeout g).full = s.full := rfl
@[simp] theorem State.raiseIdleTimeout_prev (s : State) (g : GateSite) : (s.raiseIdleTimeout g).prev = s.prev := rfl
@[simp] theorem State.raiseIdleTimeout_tr (s : State) (g : GateSite) : (s.raiseIdleTimeout g).tr = s.tr := rfl
@[simp] theorem State.raiseIdleTimeout_hostIn (s : State) (g : GateSite) : (s.raiseIdleTimeout g).hostIn = s.hostIn := rfl
@[simp] theorem State.raiseIdleTimeout_busyIn (s : State) (g : GateSite) : (s.raiseIdleTimeout g).busyIn = s.busyIn := rfl
@[simp] theorem State.raiseIdleTimeout_timeIn (s : State) (g : GateSite) : (s.raiseIdleTimeout g).timeIn = s.timeIn := rfl
@[simp] theorem State.raiseIdleTimeout_draws (s : State) (g : GateSite) : (s.raiseIdleTimeout g).draws = s.draws := rfl
@[simp] theorem State.raiseIdleTimeout_lastNow (s : State) (g : GateSite) : (s.raiseIdleTimeout g).lastNow = s.lastNow := rfl
@[simp] theorem State.raiseIdleTimeout_slept (s : State) (g : GateSite) : (s.raiseIdleTimeout g).slept = s.slept := rfl

/-! ### s.sampleMode -/

@[simp] theorem State.sampleMode_params (s : State) : (s.sampleMode).params = s.params := rfl
@[simp] theorem State.sampleMode_fb (s : State) : (s.sampleMode).fb = s.fb := rfl
@[simp] theorem State.sampleMode_atUpdate (s : State) : (s.sampleMode).atUpdate = s.atUpdate := rfl
@[simp] theorem State.sampleMode_warning (s : State) : (s.sampleMode).warning = s.warning := rfl
@[simp] theorem State.sampleMode_dsbu (s : State) : (s.sampleMode).dsbu = s.dsbu := rfl
@[simp] theorem State.sampleMode_panelState (s : State) : (s.sampleMode).panelState = s.panelState := rfl
@[simp] theorem State.sampleMode_setupDone (s : State) : (s.sampleMode).setupDone = s.setupDone := rfl
@[simp] theorem State.sampleMode_seq (s : State) : (s.sampleMode).seq = s.seq := rfl
@[simp] theorem State.sampleMode_opf (s : State) : (s.sampleMode).opf = s.opf := rfl
@[simp] theorem State.sampleMode_done (s : State) : (s.sampleMode).done = s.done := rfl
@[simp] theorem State.sampleMode_resStatus (s : State) : (s.sampleMode).resStatus = s.resStatus := rfl
@[simp] theorem State.sampleMode_resValue (s : State) : (s.sampleMode).resValue = s.resValue := rfl
@[simp] theorem State.sampleMode_dcLvl (s : State) : (s.sampleMode).dcLvl = s.dcLvl := rfl
@[simp] theorem State.sampleMode_rstLvl (s : State) : (s.sampleMode).rstLvl = s.rstLvl := rfl
@[simp] theorem State.sampleMode_cs (s : State) : (s.sampleMode).cs = s.cs := rfl
@[simp] theorem State.sampleMode_dirDc (s : State) : (s.sampleMode).dirDc = s.dirDc := rfl
@[simp] theorem State.sampleMode_dirRst (s : State) : (s.sampleMode).dirRst = s.dirRst := rfl
@[simp] theorem State.sampleMode_dirBusy (s : State) : (s.sampleMode).dirBusy = s.dirBusy := rfl
@[simp] theorem State.sampleMode_bgStart (s : State) : (s.sampleMode).bgStart = s.bgStart := rfl
@[simp] theorem State.sampleMode_full (s : State) : (s.sampleMode).full = decide (s.atUpdate = 0) := rfl
@[simp] theorem State.sampleMode_prev (s : State) : (s.sampleMode).prev = decide (s.atUpdate = 1) := rfl
@[simp] theorem State.sampleMode_tr (s : State) : (s.sampleMode).tr = s.tr := rfl
@[simp] theorem State.sampleMode_hostIn (s : State) : (s.sampleMode).hostIn = s.hostIn := rfl
@[simp] theorem State.sampleMode_busyIn (s : State) : (s.sampleMode).busyIn = s.busyIn := rfl
@[simp] theorem State.sampleMode_timeIn (s : State) : (s.sampleMode).timeIn = s.timeIn := rfl
@[simp] theorem State.sampleMode_draws (s : State) : (s.sampleMode).draws = s.draws := rfl
@[simp] theorem State.sampleMode_lastNow (s : State) : (s.sampleMode).lastNow = s.lastNow := rfl
@[simp] theorem State.sampleMode_slept (s : State) : (s.sampleMode).slept = s.slept := rfl

/-! ### s.advanceCadence -/

@[simp] theorem State.advanceCadence_params (s : State) : (s.advanceCadence).params = s.params := rfl
@[simp] theorem State.advanceCadence_fb (s : State) : (s.advanceCadence).fb = s.fb := rfl
@[simp] theorem State.advanceCadence_atUpdate (s : State) : (s.advanceCadence).atUpdate = nextUpdate s.params.n s.atUpdate := rfl
@[simp] theorem State.advanceCadence_warning (s : State) : (s.advanceCadence).warning = s.warning := rfl
@[simp] theorem State.advanceCadence_dsbu (s : State) : (s.advanceCadence).dsbu = s.dsbu := rfl
@[simp] theorem State.advanceCadence_panelState (s : State) : (s.advanceCadence).panelState = s.panelState := rfl
@[simp] theorem State.advanceCadence_setupDone (s : State) : (s.advanceCadence).setupDone = s.setupDone := rfl
@[simp] theorem State.advanceCadence_seq (s : State) : (s.advanceCadence).seq = s.seq := rfl
@[simp] theorem State.advanceCadence_opf (s : State) : (s.advanceCadence).opf = s.opf := rfl
@[simp] theorem State.advanceCadence_done (s : State) : (s.advanceCadence).done = s.done := rfl
@[simp] theorem State.advanceCadence_resStatus (s : State) : (s.advanceCadence).resStatus = s.resStatus := rfl
@[simp] theorem State.advanceCadence_resValue (s : State) : (s.advanceCadence).resValue = s.resValue := rfl
@[simp] theorem State.advanceCadence_dcLvl (s : State) : (s.advanceCadence).dcLvl = s.dcLvl := rfl
@[simp] theorem State.advanceCadence_rstLvl (s : State) : (s.advanceCadence).rstLvl = s.rstLvl := rfl
@[simp] theorem State.advanceCadence_cs (s : State) : (s.advanceCadence).cs = s.cs := rfl
@[simp] theorem State.advanceCadence_dirDc (s : State) : (s.advanceCadence).dirDc = s.dirDc := rfl
@[simp] theorem State.advanceCadence_dirRst (s : State) : (s.advanceCadence).dirRst = s.dirRst := rfl
@[simp] theorem State.advanceCadence_dirBusy (s : State) : (s.advanceCadence).dirBusy = s.dirBusy := rfl
@[simp] theorem State.advanceCadence_bgStart (s : State) : (s.advanceCadence).bgStart = s.bgStart := rfl
@[simp] theorem State.advanceCadence_full (s : State) : (s.advanceCadence).full = s.full := rfl
@[simp] theorem State.advanceCadence_prev (s : State) : (s.advanceCadence).prev = s.prev := rfl
@[simp] theorem State.advanceCadence_tr (s : State) : (s.advanceCadence).tr = s.tr := rfl
@[simp] theorem State.advanceCadence_hostIn (s : State) : (s.advanceCadence).hostIn = s.hostIn := rfl
@[simp] theorem State.advanceCadence_busyIn (s : State) : (s.advanceCadence).busyIn = s.busyIn := rfl
@[simp] theorem State.advanceCadence_timeIn (s : State) : (s.advanceCadence).timeIn = s.timeIn := rfl
@[simp] theorem State.advanceCadence_draws (s : State) : (s.advanceCadence).draws = s.draws := rfl
@[simp] theorem State.advanceCadence_lastNow (s : State) : (s.advanceCadence).lastNow = s.lastNow := rfl
@[simp] theorem State.advanceCadence_slept (s : State) : (s.advanceCadence).slept = s.slept := rfl

/-! ### s.clearWarning -/

@[simp] theorem State.clearWarning_params (s : State) : (s.clearWarning).params = s.params := rfl
@[simp] theorem State.clearWarning_fb (s : State) : (s.clearWarning).fb = s.fb := rfl
@[simp] theorem State.clearWarning_atUpdate (s : State) : (s.clearWarning).atUpdate = s.atUpdate := rfl
@[simp] theorem State.clearWarning_warning (s : State) : (s.clearWarning).warning = false := rfl
@[simp] theorem State.clearWarning_dsbu (s : State) : (s.clearWarning).dsbu = s.dsbu := rfl
@[simp] theorem State.clearWarning_panelState (s : State) : (s.clearWarning).panelState = s.panelState := rfl
@[simp] theorem State.clearWarning_setupDone (s : State) : (s.clearWarning).setupDone = s.setupDone := rfl
@[simp] theorem State.clearWarning_seq (s : State) : (s.clearWarning).seq = s.seq := rfl
@[simp] theorem State.clearWarning_opf (s : State) : (s.clearWarning).opf = s.opf := rfl
@[simp] theorem State.clearWarning_done (s : State) : (s.clearWarning).done = s.done := rfl
@[simp] theorem State.clearWarning_resStatus (s : State) : (s.clearWarning).resStatus = s.resStatus := rfl
@[simp] theorem State.clearWarning_resValue (s : State) : (s.clearWarning).resValue = s.resValue := rfl
@[simp] theorem State.clearWarning_dcLvl (s : State) : (s.clearWarning).dcLvl = s.dcLvl := rfl
@[simp] theorem State.clearWarning_rstLvl (s : State) : (s.clearWarning).rstLvl = s.rstLvl := rfl
@[simp] theorem State.clearWarning_cs (s : State) : (s.clearWarning).cs = s.cs := rfl
@[simp] theorem State.clearWarning_dirDc (s : State) : (s.clearWarning).dirDc = s.dirDc := rfl
@[simp] theorem State.clearWarning_dirRst (s : State) : (s.clearWarning).dirRst = s.dirRst := rfl
@[simp] theorem State.clearWarning_dirBusy (s : State) : (s.clearWarning).dirBusy = s.dirBusy := rfl
@[simp] theorem State.clearWarning_bgStart (s : State) : (s.clearWarning).bgStart = s.bgStart := rfl
@[simp] theorem State.clearWarning_full (s : State) : (s.clearWarning).full = s.full := rfl
@[simp] theorem State.clearWarning_prev (s : State) : (s.clearWarning).prev = s.prev := rfl
@[simp] theorem State.clearWarning_tr (s : State) : (s.clearWarning).tr = s.tr := rfl
@[simp] theorem State.clearWarning_hostIn (s : State) : (s.clearWarning).hostIn = s.hostIn := rfl
@[simp] theorem State.clearWarning_busyIn (s : State) : (s.clearWarning).busyIn = s.busyIn := rfl
@[simp] theorem State.clearWarning_timeIn (s : State) : (s.clearWarning).timeIn = s.timeIn := rfl
@[simp] theorem State.clearWarning_draws (s : State) : (s.clearWarning).draws = s.draws := rfl
@[simp] theorem State.clearWarning_lastNow (s : State) : (s.clearWarning).lastNow = s.lastNow := rfl
@[simp] theorem State.clearWarning_slept (s : State) : (s.clearWarning).slept = s.slept := rfl

/-! ### s.fillPlane i p -/

@[simp] theorem State.fillPlane_params (s : State) (i : Nat) (p : Bool) : (s.fillPlane i p).params = s.params := rfl
@[simp] theorem State.fillPlane_fb (s : State) (i : Nat) (p : Bool) : (s.fillPlane i p).fb = s.fb.writeBytes i (List.replicate s.params.half (fillByte p)) := rfl
@[simp] theorem State.fillPlane_atUpdate (s : State) (i : Nat) (p : Bool) : (s.fillPlane i p).atUpdate = s.atUpdate := rfl
@[simp] theorem State.fillPlane_warning (s : State) (i : Nat) (p : Bool) : (s.fillPlane i p).warning = s.warning := rfl
@[simp] theorem State.fillPlane_dsbu (s : State) (i : Nat) (p : Bool) : (s.fillPlane i p).dsbu = s.dsbu := rfl
@[simp] theorem State.fillPlane_panelState (s : State) (i : Nat) (p : Bool) : (s.fillPlane i p).panelState = s.panelState := rfl
@[simp] theorem State.fillPlane_setupDone (s : State) (i : Nat) (p : Bool) : (s.fillPlane i p).setupDone = s.setupDone := rfl
@[simp] theorem State.fillPlane_seq (s : State) (i : Nat) (p : Bool) : (s.fillPlane i p).seq = s.seq := rfl
@[simp] theorem State.fillPlane_opf (s : State) (i : Nat) (p : Bool) : (s.fillPlane i p).opf = s.opf := rfl
@[simp] theorem State.fillPlane_done (s : State) (i : Nat) (p : Bool) : (s.fillPlane i p).done = s.done := rfl
@[simp] theorem State.fillPlane_resStatus (s : State) (i : Nat) (p : Bool) : (s.fillPlane i p).resStatus = s.resStatus := rfl
@[simp] theorem State.fillPlane_resValue (s : State) (i : Nat) (p : Bool) : (s.fillPlane i p).resValue = s.resValue := rfl
@[simp] theorem State.fillPlane_dcLvl (s : State) (i : Nat) (p : Bool) : (s.fillPlane i p).dcLvl = s.dcLvl := rfl
@[simp] theorem State.fillPlane_rstLvl (s : State) (i : Nat) (p : Bool) : (s.fillPlane i p).rstLvl = s.rstLvl := rfl
@[simp] theorem State.fillPlane_cs (s : State) (i : Nat) (p : Bool) : (s.fillPlane i p).cs = s.cs := rfl
@[simp] theorem State.fillPlane_dirDc (s : State) (i : Nat) (p : Bool) : (s.fillPlane i p).dirDc = s.dirDc := rfl
@[simp] theorem State.fillPlane_dirRst (s : State) (i : Nat) (p : Bool) : (s.fillPlane i p).dirRst = s.dirRst := rfl
@[simp] theorem State.fillPlane_dirBusy (s : State) (i : Nat) (p : Bool) : (s.fillPlane i p).dirBusy = s.dirBusy := rfl
@[simp] theorem State.fillPlane_bgStart (s : State) (i : Nat) (p : Bool) : (s.fillPlane i p).bgStart = s.bgStart := rfl
@[simp] theorem State.fillPlane_full (s : State) (i : Nat) (p : Bool) : (s.fillPlane i p).full = s.full := rfl
@[simp] theorem State.fillPlane_prev (s : State) (i : Nat) (p : Bool) : (s.fillPlane i p).prev = s.prev := rfl
@[simp] theorem State.fillPlane_tr (s : State) (i : Nat) (p : Bool) : (s.fillPlane i p).tr = s.tr := rfl
@[simp] theorem State.fillPlane_hostIn (s : State) (i : Nat) (p : Bool) : (s.fillPlane i p).hostIn = s.hostIn := rfl
@[simp] theorem State.fillPlane_busyIn (s : State) (i : Nat) (p : Bool) : (s.fillPlane i p).busyIn = s.busyIn := rfl
@[simp] theorem State.fillPlane_timeIn (s : State) (i : Nat) (p : Bool) : (s.fillPlane i p).timeIn = s.timeIn := rfl
@[simp] theorem State.fillPlane_draws (s : State) (i : Nat) (p : Bool) : (s.fillPlane i p).draws = s.draws := rfl
@[simp] theorem State.fillPlane_lastNow (s : State) (i : Nat) (p : Bool) : (s.fillPlane i p).lastNow = s.lastNow := rfl
@[simp] theorem State.fillPlane_slept (s : State) (i : Nat) (p : Bool) : (s.fillPlane i p).slept = s.slept := rfl

/-! ### s.plotPlane i x p -/

@[simp] theorem State.plotPlane_params (s : State) (i x : Nat) (p : Bool) : (s.plotPlane i x p).params = s.params := rfl
@[simp] theorem State.plotPlane_fb (s : State) (i x : Nat) (p : Bool) : (s.plotPlane i x p).fb = s.fb.write i (plotBits (s.fb.read i) (pixelMask x) p) := rfl
@[simp] theorem State.plotPlane_atUpdate (s : State) (i x : Nat) (p : Bool) : (s.plotPlane i x p).atUpdate = s.atUpdate := rfl
@[simp] theorem State.plotPlane_warning (s : State) (i x : Nat) (p : Bool) : (s.plotPlane i x p).warning = s.warning := rfl
@[simp] theorem State.plotPlane_dsbu (s : State) (i x : Nat) (p : Bool) : (s.plotPlane i x p).dsbu = s.dsbu := rfl
@[simp] theorem State.plotPlane_panelState (s : State) (i x : Nat) (p : Bool) : (s.plotPlane i x p).panelState = s.panelState := rfl
@[simp] theorem State.plotPlane_setupDone (s : State) (i x : Nat) (p : Bool) : (s.plotPlane i x p).setupDone = s.setupDone := rfl
@[simp] theorem State.plotPlane_seq (s : State) (i x : Nat) (p : Bool) : (s.plotPlane i x p).seq = s.seq := rfl
@[simp] theorem State.plotPlane_opf (s : State) (i x : Nat) (p : Bool) : (s.plotPlane i x p).opf = s.opf := rfl
@[simp] theorem State.plotPlane_done (s : State) (i x : Nat) (p : Bool) : (s.plotPlane i x p).done = s.done := rfl
@[simp] theorem State.plotPlane_resStatus (s : State) (i x : Nat) (p : Bool) : (s.plotPlane i x p).resStatus = s.resStatus := rfl
@[simp] theorem State.plotPlane_resValue (s : State) (i x : Nat) (p : Bool) : (s.plotPlane i x p).resValue = s.resValue := rfl
@[simp] theorem State.plotPlane_dcLvl (s : State) (i x : Nat) (p : Bool) : (s.plotPlane i x p).dcLvl = s.dcLvl := rfl
@[simp] theorem State.plotPlane_rstLvl (s : State) (i x : Nat) (p : Bool) : (s.plotPlane i x p).rstLvl = s.rstLvl := rfl
@[simp] theorem State.plotPlane_cs (s : State) (i x : Nat) (p : Bool) : (s.plotPlane i x p).cs = s.cs := rfl
@[simp] theorem State.plotPlane_dirDc (s : State) (i x : Nat) (p : Bool) : (s.plotPlane i x p).dirDc = s.dirDc := rfl
@[simp] theorem State.plotPlane_dirRst (s : State) (i x : Nat) (p : Bool) : (s.plotPlane i x p).dirRst = s.dirRst := rfl
@[simp] theorem State.plotPlane_dirBusy (s : State) (i x : Nat) (p : Bool) : (s.plotPlane i x p).dirBusy = s.dirBusy := rfl
@[simp] theorem State.plotPlane_bgStart (s : State) (i x : Nat) (p : Bool) : (s.plotPlane i x p).bgStart = s.bgStart := rfl
@[simp] theorem State.plotPlane_full (s : State) (i x : Nat) (p : Bool) : (s.plotPlane i x p).full = s.full := rfl
@[simp] theorem State.plotPlane_prev (s : State) (i x : Nat) (p : Bool) : (s.plotPlane i x p).prev = s.prev := rfl
@[simp] theorem State.plotPlane_tr (s : State) (i x : Nat) (p : Bool) : (s.plotPlane i x p).tr = s.tr := rfl
@[simp] theorem State.plotPlane_hostIn (s : State) (i x : Nat) (p : Bool) : (s.plotPlane i x p).hostIn = s.hostIn := rfl
@[simp] theorem State.plotPlane_busyIn (s : State) (i x : Nat) (p : Bool) : (s.plotPlane i x p).busyIn = s.busyIn := rfl
@[simp] theorem State.plotPlane_timeIn (s : State) (i x : Nat) (p : Bool) : (s.plotPlane i x p).timeIn = s.timeIn := rfl
@[simp] theorem State.plotPlane_draws (s : State) (i x : Nat) (p : Bool) : (s.plotPlane i x p).draws = s.draws := rfl
@[simp] theorem State.plotPlane_lastNow (s : State) (i x : Nat) (p : Bool) : (s.plotPlane i x p).lastNow = s.lastNow := rfl
@[simp] theorem State.plotPlane_slept (s : State) (i x : Nat) (p : Bool) : (s.plotPlane i x p).slept = s.slept := rfl

/-! ### s.writeDsbu b -/

@[simp] theorem State.writeDsbu_params (s : State) (b : Bool) : (s.writeDsbu b).params = s.params := rfl
@[simp] theorem State.writeDsbu_fb (s : State) (b : Bool) : (s.writeDsbu b).fb = s.fb := rfl
@[simp] theorem State.writeDsbu_atUpdate (s : State) (b : Bool) : (s.writeDsbu b).atUpdate = s.atUpdate := rfl
@[simp] theorem State.writeDsbu_warning (s : State) (b : Bool) : (s.writeDsbu b).warning = s.warning := rfl
@[simp] theorem State.writeDsbu_dsbu (s : State) (b : Bool) : (s.writeDsbu b).dsbu = b := rfl
@[simp] theorem State.writeDsbu_panelState (s : State) (b : Bool) : (s.writeDsbu b).panelState = s.panelState := rfl
@[simp] theorem State.writeDsbu_setupDone (s : State) (b : Bool) : (s.writeDsbu b).setupDone = s.setupDone := rfl
@[simp] theorem State.writeDsbu_seq (s : State) (b : Bool) : (s.writeDsbu b).seq = s.seq := rfl
@[simp] theorem State.writeDsbu_opf (s : State) (b : Bool) : (s.writeDsbu b).opf = s.opf := rfl
@[simp] theorem State.writeDsbu_done (s : State) (b : Bool) : (s.writeDsbu b).done = s.done := rfl
@[simp] theorem State.writeDsbu_resStatus (s : State) (b : Bool) : (s.writeDsbu b).resStatus = s.resStatus := rfl
@[simp] theorem State.writeDsbu_resValue (s : State) (b : Bool) : (s.writeDsbu b).resValue = s.resValue := rfl
@[simp] theorem State.writeDsbu_dcLvl (s : State) (b : Bool) : (s.writeDsbu b).dcLvl = s.dcLvl := rfl
@[simp] theorem State.writeDsbu_rstLvl (s : State) (b : Bool) : (s.writeDsbu b).rstLvl = s.rstLvl := rfl
@[simp] theorem State.writeDsbu_cs (s : State) (b : Bool) : (s.writeDsbu b).cs = s.cs := rfl
@[simp] theorem State.writeDsbu_dirDc (s : State) (b : Bool) : (s.writeDsbu b).dirDc = s.dirDc := rfl
@[simp] theorem State.writeDsbu_dirRst (s : State) (b : Bool) : (s.writeDsbu b).dirRst = s.dirRst := rfl
@[simp] theorem State.writeDsbu_dirBusy (s : State) (b : Bool) : (s.writeDsbu b).dirBusy = s.dirBusy := rfl
@[simp] theorem State.writeDsbu_bgStart (s : State) (b : Bool) : (s.writeDsbu b).bgStart = s.bgStart := rfl
@[simp] theorem State.writeDsbu_full (s : State) (b : Bool) : (s.writeDsbu b).full = s.full := rfl
@[simp] theorem State.writeDsbu_prev (s : State) (b : Bool) : (s.writeDsbu b).prev = s.prev := rfl
@[simp] theorem State.writeDsbu_tr (s : State) (b : Bool) : (s.writeDsbu b).tr = s.tr := rfl
@[simp] theorem State.writeDsbu_hostIn (s : State) (b : Bool) : (s.writeDsbu b).hostIn = s.hostIn := rfl
@[simp] theorem State.writeDsbu_busyIn (s : State) (b : Bool) : (s.writeDsbu b).busyIn = s.busyIn := rfl
@[simp] theorem State.writeDsbu_timeIn (s : State) (b : Bool) : (s.writeDsbu b).timeIn = s.timeIn := rfl
@[simp] theorem State.writeDsbu_draws (s : State) (b : Bool) : (s.writeDsbu b).draws = s.draws := rfl
@[simp] theorem State.writeDsbu_lastNow (s : State) (b : Bool) : (s.writeDsbu b).lastNow = s.lastNow := rfl
@[simp] theorem State.writeDsbu_slept (s : State) (b : Bool) : (s.writeDsbu b).slept = s.slept := rfl

end Sys2Proof.Machine
end

