-- ==== Sys2Proof/Laws/Panel.lean ====
section
/-! SUPPORT. What the three link primitives do as whole states (R170–R172), the payload bytes of the geometry (R104),
and the payload a position selects (R103). -/

namespace Sys2Proof.Machine

/-- `Cmd(b)` (R170) as one record. -/
theorem State.cmd_eq (s : State) (b : Byte) :
    s.cmd b = { s with dcLvl := false, cs := false, tr := s.tr ++ evCmd b } := by
  rw [← State.cmd_tr s b]
  rfl

/-- `Dat(bs)` (R171) as one record. -/
theorem State.dat_eq (s : State) (bs : List Byte) :
    s.dat bs = { s with dcLvl := true, cs := false, tr := s.tr ++ evDat bs } := by
  rw [← State.dat_tr s bs]
  rfl

/-- `CmdDat(b, bs)` (R172) as one record. -/
theorem State.cmdDat_eq (s : State) (b : Byte) (bs : List Byte) :
    s.cmdDat b bs = { s with dcLvl := true, cs := false, tr := s.tr ++ evCmdDat b bs } := by
  simp [State.cmdDat, State.setLine, State.setCs, State.sendBytes, State.emit, evCmdDat]

/-- `Cmd(b)` then `Dat(bs)`, the form of most commands (R103). -/
theorem State.cmd_dat_eq (s : State) (b : Byte) (bs : List Byte) :
    (s.cmd b).dat bs = { s with dcLvl := true, cs := false, tr := s.tr ++ evCmd b ++ evDat bs } := by
  rw [State.dat_eq, State.cmd_eq]

/-- R104: `H - 1` low byte first, without wrap: `H` is at least 1 and at most 65536. -/
theorem heightBytes_eq (p : Params) :
    p.heightBytes = [BitVec.ofNat 8 ((p.h.toNat - 1) % 256), BitVec.ofNat 8 ((p.h.toNat - 1) / 256)] := by
  obtain ⟨-, -, -, -, -, h1, h2⟩ := p.geometry
  have h3 : (p.h - 1).toNat = p.h.toNat - 1 := by bv_omega
  have lo : (p.h - 1).extractLsb' 0 8 = BitVec.ofNat 8 ((p.h.toNat - 1) % 256) := by
    apply BitVec.eq_of_toNat_eq
    simp only [BitVec.extractLsb'_toNat, h3, BitVec.toNat_ofNat, Nat.shiftRight_zero]
    omega
  have hi : (p.h - 1).extractLsb' 8 8 = BitVec.ofNat 8 ((p.h.toNat - 1) / 256) := by
    apply BitVec.eq_of_toNat_eq
    simp only [BitVec.extractLsb'_toNat, h3, BitVec.toNat_ofNat, Nat.shiftRight_eq_div_pow]
  simp only [ParamRecord.heightBytes, lo, hi]

/-- R103: VCOM's byte at a position of `Init`. -/
theorem vcomByte_init (s : State) (q : InitStep) (h : s.seq = .setup (.init q) ∨ s.seq = .display (.wake q)) :
    s.vcomByte = s.params.cal.vcomInit := by
  rcases h with h | h <;> simp [State.vcomByte, h]

/-- R103: VCOM's byte anywhere else. -/
theorem vcomByte_mode (s : State) (h : ∀ q, s.seq ≠ .setup (.init q) ∧ s.seq ≠ .display (.wake q)) :
    s.vcomByte = if s.full then s.params.cal.vcomFull else s.params.cal.vcomPartial := by
  simp only [State.vcomByte]
  split
  · next q hq => exact absurd hq (h q).1
  · next q hq => exact absurd hq (h q).2
  · rfl

/-- R103: DUC2's byte by position and mode. -/
theorem duc2Byte_eq (s : State) :
    s.duc2Byte = if s.seq = .display .duc2Flag then s.params.cal.duc2PartialFlag
      else if s.full then s.params.cal.duc2Full else s.params.cal.duc2Partial := by
  simp only [State.duc2Byte]
  split <;> simp_all

/-- R105: a panel command's opcode is one of the 21. -/
theorem opcodeOf_mem (o : Opcodes) (i : Instr) (b : Byte) (h : opcodeOf o i = some b) : b ∈ o.all := by
  cases i <;> simp only [opcodeOf, Option.some.injEq, reduceCtorEq] at h <;> subst h <;> simp [Opcodes.all]

/-- R101: the opcodes of the commands, in the order of the table. -/
theorem panelCommands_opcodes (o : Opcodes) : panelCommands.map (opcodeOf o) = o.all.map some := rfl

end Sys2Proof.Machine
end

