-- ==== Sys2Proof/Laws/Gate.lean ====
section
/-! SUPPORT. What a busy gate can do (R153): the one lemma `waitUntilIdle_change` says everything it changes, and the
fast paths are given as equations. Callers cite these and never unfold the gate. -/

namespace Sys2Proof.Machine

/-- The times `t` follow those of `s` by the events `es`, each read among them under the time axiom (R150). -/
def TimeFollows (s t : State) (es : List Event) : Prop :=
  es.foldl timeTrack (s.lastNow, s.slept, true) = (t.lastNow, t.slept, true)

/-- `t` is `s` after part of a gate: only quiet events have been appended, the account of the last read and the sleeps
follows them, and only the environment's draws and `BG_START` may differ besides. -/
def GateChange (s t : State) : Prop :=
  t = { s with
        tr := t.tr, busyIn := t.busyIn, timeIn := t.timeIn, draws := t.draws, lastNow := t.lastNow, slept := t.slept,
        bgStart := t.bgStart }
    ∧ ∃ es, t.tr = s.tr ++ es ∧ (∀ e ∈ es, e.quiet = true) ∧ TimeFollows s t es

theorem GateChange.refl (s : State) : GateChange s s := ⟨rfl, [], by simp, by simp, rfl⟩

theorem GateChange.trans {s t u : State} (h1 : GateChange s t) (h2 : GateChange t u) : GateChange s u := by
  obtain ⟨e1, es1, ht, q1, n1⟩ := h1
  obtain ⟨e2, es2, hu, q2, n2⟩ := h2
  refine ⟨?_, es1 ++ es2, by rw [hu, ht, List.append_assoc], ?_, ?_⟩
  · rw [e1] at e2
    exact e2
  · intro e he
    rcases List.mem_append.mp he with he | he
    · exact q1 e he
    · exact q2 e he
  · simp only [TimeFollows] at n1 n2 ⊢
    rw [List.foldl_append, n1, n2]

/-! What a gate's change leaves (R32), field by field. -/

section
variable {s t : State} (h : GateChange s t)
include h

theorem GateChange.params : t.params = s.params := by
  rw [h.1]

theorem GateChange.fb : t.fb = s.fb := by
  rw [h.1]

theorem GateChange.atUpdate : t.atUpdate = s.atUpdate := by
  rw [h.1]

theorem GateChange.warning : t.warning = s.warning := by
  rw [h.1]

theorem GateChange.dsbu : t.dsbu = s.dsbu := by
  rw [h.1]

theorem GateChange.panelState : t.panelState = s.panelState := by
  rw [h.1]

theorem GateChange.setupDone : t.setupDone = s.setupDone := by
  rw [h.1]

theorem GateChange.seq : t.seq = s.seq := by
  rw [h.1]

theorem GateChange.opf : t.opf = s.opf := by
  rw [h.1]

theorem GateChange.done : t.done = s.done := by
  rw [h.1]

theorem GateChange.resStatus : t.resStatus = s.resStatus := by
  rw [h.1]

theorem GateChange.resValue : t.resValue = s.resValue := by
  rw [h.1]

theorem GateChange.dcLvl : t.dcLvl = s.dcLvl := by
  rw [h.1]

theorem GateChange.rstLvl : t.rstLvl = s.rstLvl := by
  rw [h.1]

theorem GateChange.cs : t.cs = s.cs := by
  rw [h.1]

theorem GateChange.dirDc : t.dirDc = s.dirDc := by
  rw [h.1]

theorem GateChange.dirRst : t.dirRst = s.dirRst := by
  rw [h.1]

theorem GateChange.dirBusy : t.dirBusy = s.dirBusy := by
  rw [h.1]

theorem GateChange.full : t.full = s.full := by
  rw [h.1]

theorem GateChange.prev : t.prev = s.prev := by
  rw [h.1]

theorem GateChange.hostIn : t.hostIn = s.hostIn := by
  rw [h.1]

end

theorem drawBusy_change (s : State) :
    s.drawBusy.2 = { s with busyIn := s.drawBusy.2.busyIn, draws := s.drawBusy.2.draws } := by
  simp only [State.drawBusy]
  split <;> rfl

theorem drawTime_change (s : State) :
    s.drawTime.2 = { s with timeIn := s.drawTime.2.timeIn, draws := s.drawTime.2.draws } := by
  simp only [State.drawTime]
  split <;> rfl

/-- The events that move no account of time. -/
def Event.timeless : Event → Bool
  | .now _ => false
  | .sleep _ => false
  | _ => true

/-- Appending a quiet event that is no time is a gate's change. -/
theorem emit_change (s : State) (e : Event) (h : e.quiet = true) (ht : e.timeless = true) :
    GateChange s (s.emit [e]) := by
  refine ⟨rfl, [e], rfl, by simpa using h, ?_⟩
  cases e <;> first | rfl | simp [Event.timeless] at ht

theorem busyRead_change (s : State) : GateChange s s.busyRead.2 := by
  refine ⟨?_, [.busy s.drawBusy.1], ?_, by simp [Event.quiet], ?_⟩
  · have h := drawBusy_change s
    simp only [State.busyRead, State.emit]
    rw [h]
  · have h := congrArg State.tr (drawBusy_change s)
    simp only [State.busyRead, State.emit, h]
  · have h := drawBusy_change s
    simp only [TimeFollows, State.busyRead, State.emit]
    rw [h]
    rfl

/-- The value of a read is one the environment may supply (R150). -/
theorem timeConforms_conformingTime (last : Option U32) (slept : Nat) (t : U32) :
    timeConforms last slept (conformingTime last slept t) = true := by
  simp only [conformingTime]
  split
  · assumption
  · rename_i h
    cases last with
    | none => simp [timeConforms] at h
    | some l =>
      simp only [timeConforms, Bool.or_eq_true, not_or, decide_eq_true_eq] at h
      have hs : slept < 2 ^ 31 := by omega
      have e : (l + BitVec.ofNat 32 slept - l).toNat = slept := by
        have : l + BitVec.ofNat 32 slept - l = BitVec.ofNat 32 slept := by
          rw [BitVec.add_comm, BitVec.add_sub_cancel]
        rw [this, BitVec.toNat_ofNat]
        omega
      simp only [timeConforms, timeAxiom, e, Bool.or_eq_true, Bool.and_eq_true, decide_eq_true_eq]
      omega

theorem nowMs_change (s : State) : GateChange s s.nowMs.2 := by
  refine ⟨?_, [.now s.nowMs.1], ?_, by simp [Event.quiet], ?_⟩
  · have h := drawTime_change s
    simp only [State.nowMs, State.emit]
    rw [h]
  · have h := congrArg State.tr (drawTime_change s)
    simp only [State.nowMs, State.emit, h]
  · simp [TimeFollows, State.nowMs, State.emit, timeTrack, timeConforms_conformingTime]

/-- What `SleepMs` does to the account of time (R151). -/
theorem sleepMs_change (s : State) (d : U32) : GateChange s (s.sleepMs d) :=
  ⟨rfl, [.sleep d], rfl, by simp [Event.quiet], rfl⟩

/-- Setting `BG_START` is a gate's change. -/
theorem startClock_change (s : State) : GateChange s s.startClock := by
  refine (nowMs_change s).trans ?_
  exact ⟨rfl, [], by simp [State.startClock], by simp, rfl⟩

/-- The polling loop changes only what a gate may (R153). -/
theorem gateLoop_change (fuel : Nat) (timeout : U32) (s : State) : GateChange s (gateLoop fuel timeout s).2 := by
  induction fuel generalizing s with
  | zero =>
    simp only [gateLoop]
    split
    · exact busyRead_change s
    · exact (busyRead_change s).trans ((nowMs_change _).trans (emit_change _ _ rfl rfl))
  | succ n ih =>
    simp only [gateLoop]
    split
    · exact busyRead_change s
    · have h2 := (busyRead_change s).trans (nowMs_change s.busyRead.2)
      split
      · exact h2.trans (emit_change _ _ rfl rfl)
      · refine h2.trans ?_
        refine GateChange.trans ?_ (ih _)
        refine GateChange.trans ?_ (sleepMs_change _ _)
        refine GateChange.trans ?_ (emit_change _ .yield rfl rfl)
        refine GateChange.trans ?_ (emit_change _ .wdt rfl rfl)
        split
        · exact emit_change _ _ rfl rfl
        · exact GateChange.refl _

/-- What one sample does (R175). -/
theorem busyRead_eq (s : State) :
    s.busyRead.2.tr = s.tr ++ [Event.busy s.busyRead.1] ∧ s.busyRead.2.bgStart = s.bgStart
      ∧ s.busyRead.2.params = s.params := by
  have h := drawBusy_change s
  simp only [State.busyRead, State.emit]
  rw [h]
  exact ⟨rfl, rfl, rfl⟩

/-- What one time read does (R150). -/
theorem nowMs_eq (s : State) :
    s.nowMs.2.tr = s.tr ++ [Event.now s.nowMs.1] ∧ s.nowMs.2.bgStart = s.bgStart ∧ s.nowMs.2.params = s.params := by
  have h := drawTime_change s
  simp only [State.nowMs, State.emit]
  rw [h]
  exact ⟨rfl, rfl, rfl⟩

/-- The state after an iteration of the loop that does not return (R153), its time read `x`. -/
def State.polled (s : State) (x : U32) : State :=
  let r := s.busyRead.2.nowMs.2
  let l := if s.params.longWaitMs < x - s.bgStart then r.logEvent .longWait else r
  (l.wdtReset.yieldHost).sleepMs s.params.pollMs

/-- Such an iteration, after an active sample. -/
theorem State.polled_eq (s : State) (x : U32) (hx : s.busyRead.2.nowMs.1 = x)
    (hb : s.busyRead.1 = s.params.busyActiveLevel) :
    (s.polled x).tr = s.tr ++ tracePoll s.params.toParamRecord s.bgStart x ∧ (s.polled x).bgStart = s.bgStart
      ∧ (s.polled x).params = s.params := by
  obtain ⟨b1, b2, b3⟩ := busyRead_eq s
  obtain ⟨n1, n2, n3⟩ := nowMs_eq s.busyRead.2
  rw [hb] at b1
  rw [hx] at n1
  simp only [State.polled, tracePoll]
  split <;>
    simp [State.sleepMs, State.yieldHost, State.wdtReset, State.logEvent, State.emit, n1, n2, n3, b1, b2, b3]

/-- An active sample leaves the loop by its timeout or goes round (R153). -/
theorem gateLoop_succ_active (fuel : Nat) (timeout : U32) (s : State) (hb : s.busyRead.1 = s.params.busyActiveLevel) :
    gateLoop (fuel + 1) timeout s
      = if timeout < s.busyRead.2.nowMs.1 - s.bgStart then (false, s.busyRead.2.nowMs.2.logEvent .idleTimeout)
        else gateLoop fuel timeout (s.polled s.busyRead.2.nowMs.1) := by
  simp only [gateLoop, hb, State.polled, ne_eq, not_true_eq_false, if_false, gt_iff_lt]

/-- Everything the loop appends (R153): iterations that do not return, then the one that does. -/
theorem gateLoop_trace (fuel : Nat) (timeout : U32) (s : State) :
    ∃ (reads : List U32) (last : U32),
      (gateLoop fuel timeout s).2.tr
        = s.tr ++ reads.flatMap (tracePoll s.params.toParamRecord s.bgStart)
          ++ traceReturn s.params.toParamRecord (gateLoop fuel timeout s).1 last
      ∧ (gateLoop fuel timeout s).2.bgStart = s.bgStart
      ∧ (∀ x ∈ reads, x - s.bgStart ≤ timeout) ∧ reads.length ≤ fuel := by
  induction fuel generalizing s with
  | zero =>
    obtain ⟨b1, b2, -⟩ := busyRead_eq s
    obtain ⟨n1, n2, -⟩ := nowMs_eq s.busyRead.2
    simp only [gateLoop]
    split
    · rename_i h
      exact ⟨[], 0, by simp [traceReturn, b1, Bool.eq_not_of_ne h], b2, by simp, by simp⟩
    · rename_i h
      refine ⟨[], s.busyRead.2.nowMs.1, ?_, by simp [State.logEvent, State.emit, n2, b2], by simp, by simp⟩
      simp [traceReturn, State.logEvent, State.emit, n1, b1, not_not.mp h]
  | succ n ih =>
    obtain ⟨b1, b2, -⟩ := busyRead_eq s
    obtain ⟨n1, n2, -⟩ := nowMs_eq s.busyRead.2
    by_cases h : s.busyRead.1 = s.params.busyActiveLevel
    · rw [gateLoop_succ_active n timeout s h]
      split
      · refine ⟨[], s.busyRead.2.nowMs.1, ?_, by simp [State.logEvent, State.emit, n2, b2], by simp, by simp⟩
        simp [traceReturn, State.logEvent, State.emit, n1, b1, h]
      · rename_i he
        obtain ⟨p1, p2, p3⟩ := State.polled_eq s _ rfl h
        obtain ⟨reads, last, i1, i2, i3, i4⟩ := ih (s.polled s.busyRead.2.nowMs.1)
        rw [p1, p2, p3] at i1
        rw [p2] at i2 i3
        refine ⟨s.busyRead.2.nowMs.1 :: reads, last, by simpa using i1, i2, ?_, by simpa using i4⟩
        intro x hx
        rcases List.mem_cons.mp hx with rfl | hx
        · exact BitVec.not_lt.mp he
        · exact i3 x hx
    · simp only [gateLoop, ne_eq, h, not_false_eq_true, if_true]
      exact ⟨[], 0, by simp [traceReturn, b1, Bool.eq_not_of_ne h], b2, by simp, by simp⟩

theorem pollUntilIdle_change (s : State) (timeout : U32) : GateChange s (s.pollUntilIdle timeout).2 := by
  simp only [State.pollUntilIdle]
  split
  · exact GateChange.refl s
  · split
    · exact busyRead_change s
    · exact ((busyRead_change s).trans (startClock_change _)).trans (gateLoop_change _ _ _)

/-- Everything `WaitUntilIdle` can do (R153): quiet events, draws, `BG_START`, and, where it returns true, PANEL_STATE
from BUSY to IDLE (R40). -/
theorem waitUntilIdle_change (s : State) (timeout : U32) :
    ∃ t, GateChange s t ∧
      (s.waitUntilIdle timeout = (true, t.gatePassed) ∨ s.waitUntilIdle timeout = (false, t)) := by
  refine ⟨(s.pollUntilIdle timeout).2, pollUntilIdle_change s timeout, ?_⟩
  simp only [State.waitUntilIdle]
  split
  · exact .inl rfl
  · exact .inr rfl

/-- A gate site (R155): the operation goes on with the gate passed, or is aborted (R253). -/
theorem gate_cases (s : State) (site : GateSite) :
    ∃ t, GateChange s t ∧ (s.gate site = .go t.gatePassed ∨ s.gate site = .ended (t.raiseIdleTimeout site)) := by
  obtain ⟨t, ht, h | h⟩ := waitUntilIdle_change s s.params.idleTimeoutMs
  · exact ⟨t, ht, .inl (by simp [State.gate, h])⟩
  · exact ⟨t, ht, .inr (by simp [State.gate, h])⟩

/-- A gate without a busy line passes and appends nothing (R153). -/
theorem gate_of_no_busy (s : State) (site : GateSite) (h : s.params.hasBusy = false) :
    s.gate site = .go s.gatePassed := by
  simp [State.gate, State.waitUntilIdle, State.pollUntilIdle, h]

/-- A gate whose first sample is inactive passes with that one event (R153). -/
theorem gate_of_idle (s : State) (site : GateSite) (rest : List Bool) (hb : s.params.hasBusy = true)
    (h : s.busyIn = (!s.params.busyActiveLevel) :: rest) :
    s.gate site = .go (({ s with busyIn := rest }.emit [.busy (!s.params.busyActiveLevel)]).gatePassed) := by
  simp [State.gate, State.waitUntilIdle, State.pollUntilIdle, State.busyRead, State.drawBusy, h, hb]

end Sys2Proof.Machine
end

