-- ==== Sys2Proof/Laws/Link.lean ====
section
/-! SUPPORT. How the readings of a trace (Safety.lean) go through an append and through the shorthands CMD, DAT and
CMDDAT of R33 and the quiet events of a busy gate. -/

namespace Sys2Proof.Machine

theorem linkBytes_append (dc : Bool) (a b : List Event) :
    linkBytes dc (a ++ b) = linkBytes dc a ++ linkBytes (dcAfter dc a) b := by
  induction a generalizing dc with
  | nil => rfl
  | cons e a ih =>
    rcases e with _ | ⟨l, v⟩ | _ | _ | _ | _ | _ | _ | _ | _
    case line => cases l <;> simp [linkBytes, dcAfter, ih]
    all_goals simp [linkBytes, dcAfter, ih]

theorem dcAfter_append (dc : Bool) (a b : List Event) : dcAfter dc (a ++ b) = dcAfter (dcAfter dc a) b := by
  induction a generalizing dc with
  | nil => rfl
  | cons e a ih =>
    rcases e with _ | ⟨l, v⟩ | _ | _ | _ | _ | _ | _ | _ | _
    case line => cases l <;> simp [dcAfter, ih]
    all_goals simp [dcAfter, ih]

/-- Bytes sent in a row are sent under one DC level. -/
@[simp] theorem linkBytes_tx (dc : Bool) (bs : List Byte) (es : List Event) :
    linkBytes dc (bs.map Event.tx ++ es) = bs.map (fun b => (dc, b)) ++ linkBytes dc es := by
  induction bs with
  | nil => rfl
  | cons b bs ih => simp [linkBytes, ih]

@[simp] theorem dcAfter_tx (dc : Bool) (bs : List Byte) (es : List Event) :
    dcAfter dc (bs.map Event.tx ++ es) = dcAfter dc es := by
  induction bs with
  | nil => rfl
  | cons b bs ih => simp [dcAfter, ih]

@[simp] theorem linkBytes_evCmd (dc : Bool) (b : Byte) : linkBytes dc (evCmd b) = [(false, b)] := rfl

@[simp] theorem dcAfter_evCmd (dc : Bool) (b : Byte) : dcAfter dc (evCmd b) = false := rfl

@[simp] theorem linkBytes_evDat (dc : Bool) (bs : List Byte) :
    linkBytes dc (evDat bs) = bs.map (fun b => (true, b)) := by
  simp [evDat, linkBytes]

@[simp] theorem dcAfter_evDat (dc : Bool) (bs : List Byte) : dcAfter dc (evDat bs) = true := by
  simp [evDat, dcAfter]

@[simp] theorem linkBytes_evCmdDat (dc : Bool) (b : Byte) (bs : List Byte) :
    linkBytes dc (evCmdDat b bs) = (false, b) :: bs.map (fun b => (true, b)) := by
  simp [evCmdDat, linkBytes]

@[simp] theorem dcAfter_evCmdDat (dc : Bool) (b : Byte) (bs : List Byte) : dcAfter dc (evCmdDat b bs) = true := by
  simp [evCmdDat, dcAfter]

/-- A gate's events send no byte. -/
theorem linkBytes_quiet (dc : Bool) (es : List Event) (h : ∀ e ∈ es, e.quiet = true) : linkBytes dc es = [] := by
  induction es with
  | nil => rfl
  | cons e es ih =>
    have he := h e (by simp)
    have ih := ih (fun e he => h e (by simp [he]))
    cases e <;> simp_all [linkBytes, Event.quiet]

/-- A gate's events do not move DC. -/
theorem dcAfter_quiet (dc : Bool) (es : List Event) (h : ∀ e ∈ es, e.quiet = true) : dcAfter dc es = dc := by
  induction es with
  | nil => rfl
  | cons e es ih =>
    have he := h e (by simp)
    have ih := ih (fun e he => h e (by simp [he]))
    cases e <;> simp_all [dcAfter, Event.quiet]

/-- Events that open and close their own transactions keep a framed trace framed. -/
theorem framed_append (a b : List Event) (ha : framed a) (hb : framed b) : framed (a ++ b) := by
  simp only [framed] at ha hb ⊢
  rw [List.foldl_append, ha, hb]

theorem framed_nil : framed [] := rfl

theorem foldl_csTrack_tx (bs : List Byte) : (bs.map Event.tx).foldl csTrack (some true) = some true := by
  induction bs with
  | nil => rfl
  | cons b bs ih => simpa [csTrack] using ih

theorem framed_evCmd (b : Byte) : framed (evCmd b) := rfl

theorem framed_evDat (bs : List Byte) : framed (evDat bs) := by
  simp [framed, evDat, csTrack, List.foldl_append, foldl_csTrack_tx]

theorem framed_evCmdDat (b : Byte) (bs : List Byte) : framed (evCmdDat b bs) := by
  simp [framed, evCmdDat, csTrack, List.foldl_append, foldl_csTrack_tx]

/-- A gate runs between transactions (R176). -/
theorem framed_quiet (es : List Event) (h : ∀ e ∈ es, e.quiet = true) : framed es := by
  induction es with
  | nil => rfl
  | cons e es ih =>
    have he := h e (by simp)
    have ih := ih (fun e he => h e (by simp [he]))
    cases e <;> simp_all [framed, csTrack, Event.quiet]

/-- The command bytes of a longer trace (R89). -/
theorem commandBytes_append (a b : List Event) :
    commandBytes (a ++ b) = commandBytes a ++ ((linkBytes (dcAfter false a) b).filter (fun p => !p.1)).map Prod.snd := by
  simp [commandBytes, linkBytes_append]

/-- Data bytes alone hold no opcode. -/
theorem filter_data (bs : List Byte) : ((bs.map (fun b => (true, b))).filter (fun p => !p.1)) = [] := by
  induction bs with
  | nil => rfl
  | cons b bs ih => simp

/-! ## Traces as panel commands (R90) -/

/-- An opcode starts a new command, whatever was sent before. -/
theorem groupCommands_append (x : List (Bool × Byte)) (b : Byte) (y : List (Bool × Byte)) :
    groupCommands (x ++ (false, b) :: y) = groupCommands x ++ groupCommands ((false, b) :: y) := by
  induction x with
  | nil => rfl
  | cons a x ih =>
    rcases a with ⟨_ | _, c⟩
    · have h : (x ++ (false, b) :: y).takeWhile (fun p => p.1) = x.takeWhile (fun p => p.1) := by
        clear ih
        induction x with
        | nil => simp
        | cons d x ih => rcases d with ⟨_ | _, e⟩ <;> simp_all
      simp [groupCommands, h, ih]
    · simpa [groupCommands] using ih

/-- An opcode and its data bytes are one command. -/
theorem groupCommands_data (b : Byte) (bs : List Byte) :
    groupCommands ((false, b) :: bs.map (fun b => (true, b))) = [(b, bs)] := by
  have h1 : (bs.map (fun b => (true, b))).takeWhile (fun p => p.1) = bs.map (fun b => (true, b)) := by
    induction bs <;> simp_all
  have h2 : groupCommands (bs.map (fun b => (true, b))) = [] := by
    induction bs <;> simp_all [groupCommands]
  simp only [groupCommands, h1, h2]
  simp [Function.comp_def]

theorem commandsSent_evCmd (tr : List Event) (b : Byte) :
    commandsSent (tr ++ evCmd b) = commandsSent tr ++ [(b, [])] := by
  have h := groupCommands_append (linkBytes false tr) b []
  simp only [commandsSent, linkBytes_append, linkBytes_evCmd, h]
  rfl

theorem commandsSent_evCmd_evDat (tr : List Event) (b : Byte) (bs : List Byte) :
    commandsSent (tr ++ evCmd b ++ evDat bs) = commandsSent tr ++ [(b, bs)] := by
  have h := groupCommands_append (linkBytes false tr) b (bs.map (fun b => (true, b)))
  simp only [commandsSent, List.append_assoc, linkBytes_append, linkBytes_evCmd, linkBytes_evDat, dcAfter_evCmd,
    List.singleton_append, h, groupCommands_data]

theorem commandsSent_evCmdDat (tr : List Event) (b : Byte) (bs : List Byte) :
    commandsSent (tr ++ evCmdDat b bs) = commandsSent tr ++ [(b, bs)] := by
  have h := groupCommands_append (linkBytes false tr) b (bs.map (fun b => (true, b)))
  simp only [commandsSent, linkBytes_append, linkBytes_evCmdDat, h, groupCommands_data]

/-- A gate's events send no command. -/
theorem commandsSent_quiet (tr es : List Event) (h : ∀ e ∈ es, e.quiet = true) :
    commandsSent (tr ++ es) = commandsSent tr := by
  simp [commandsSent, linkBytes_append, linkBytes_quiet _ es h]

end Sys2Proof.Machine
end

