-- ==== Sys2Proof/Laws/Sequencer.lean ====
section
/-! SUPPORT. How a sequence runs: through an append, one enabled or passed-over statement at a time; that a host operation
runs its statements with the operands of its frame; and that a panel command's meaning is the statement at each position
that sends it (R103). -/

namespace Sys2Proof.Machine

/-! These six are proved by rewriting, not by `rfl`, so that `simp` leaves the kernel no sequence to evaluate. -/

@[simp] theorem Flow.bind_go (s : State) (f : State → Flow) : (Flow.go s).bind f = f s := by simp only [Flow.bind]

@[simp] theorem Flow.bind_ended (s : State) (f : State → Flow) : (Flow.ended s).bind f = .ended s := by simp only [Flow.bind]

@[simp] theorem Flow.bind_fault (r : Fault) (f : State → Flow) : (Flow.fault r).bind f = .fault r := by simp only [Flow.bind]

@[simp] theorem Flow.outcome_go (s : State) : (Flow.go s).outcome = .next s := by simp only [Flow.outcome]

@[simp] theorem Flow.outcome_ended (s : State) : (Flow.ended s).outcome = .next s := by simp only [Flow.outcome]

@[simp] theorem Flow.outcome_fault (r : Fault) : (Flow.fault r).outcome = .fault r := by simp only [Flow.outcome]

/-! ## Any statements -/

section
variable (en : Seq → State → Bool) (run : Seq → State → Flow)

theorem runSteps_nil (s : State) : runSteps en run [] s = .go s := rfl

/-- A statement its `if` lets run. -/
theorem runSteps_enabled (p : Seq) (ps : List Seq) (s : State) (h : en p s = true) :
    runSteps en run (p :: ps) s = (run p { s with seq := p }).bind (runSteps en run ps) := by
  simp [runSteps, h]

/-- A statement its `if` passes over. -/
theorem runSteps_skipped (p : Seq) (ps : List Seq) (s : State) (h : en p s = false) :
    runSteps en run (p :: ps) s = runSteps en run ps s := by
  simp [runSteps, h]

/-- A sequence runs as its first part, then its second. -/
theorem runSteps_append (ps qs : List Seq) (s : State) :
    runSteps en run (ps ++ qs) s = (runSteps en run ps s).bind (runSteps en run qs) := by
  induction ps generalizing s with
  | nil => rfl
  | cons p ps ih =>
    simp only [List.cons_append, runSteps]
    split
    · cases run p { s with seq := p } <;> simp [ih]
    · exact ih s

/-- An induction over a sequence, packaged: a property that every enabled statement keeps while the operation goes on,
and hands over to another at its end, holds of what the whole sequence leaves. -/
theorem runSteps_induct (P Q : State → Prop) (R : Fault → Prop) (ps : List Seq)
    (hstep : ∀ p ∈ ps, ∀ s, P s → en p s = true →
      match run p { s with seq := p } with
      | .go t => P t
      | .ended t => Q t
      | .fault r => R r)
    (s : State) (hs : P s) :
    match runSteps en run ps s with
    | .go t => P t
    | .ended t => Q t
    | .fault r => R r := by
  induction ps generalizing s with
  | nil => exact hs
  | cons p ps ih =>
    have htail := fun t ht => ih (fun q hq => hstep q (by simp [hq])) t ht
    by_cases he : en p s = true
    · rw [runSteps_enabled en run p ps s he]
      have h1 := hstep p (by simp) s hs he
      generalize run p { s with seq := p } = r at h1 ⊢
      cases r with
      | go t => simpa using htail t h1
      | ended t => exact h1
      | fault r => exact h1
    · rw [runSteps_skipped en run p ps s (by simpa using he)]
      exact htail s hs

/-- Two ways to run statements that agree from states with a property, kept while the operation goes on, run a sequence
alike. -/
theorem runSteps_congr (en' : Seq → State → Bool) (run' : Seq → State → Flow) (P : State → Prop) (ps : List Seq)
    (heq : ∀ p ∈ ps, ∀ s, P s → en p s = en' p s ∧ run p { s with seq := p } = run' p { s with seq := p })
    (hkeep : ∀ p ∈ ps, ∀ s t, P s → run p { s with seq := p } = .go t → P t) (s : State) (hs : P s) :
    runSteps en run ps s = runSteps en' run' ps s := by
  induction ps generalizing s with
  | nil => rfl
  | cons p ps ih =>
    have ih := ih (fun q hq => heq q (by simp [hq])) (fun q hq => hkeep q (by simp [hq]))
    obtain ⟨h1, h2⟩ := heq p (by simp) s hs
    simp only [runSteps, h1, h2]
    split
    · cases hr : run' p { s with seq := p } with
      | go t => exact ih t (hkeep p (by simp) s t hs (h2.trans hr))
      | ended t => rfl
      | fault r => rfl
    · exact ih s hs

end

/-! ## The statements of the block -/

theorem runList_nil (s : State) : runList [] s = .go s := rfl

/-- One statement in front of a sequence. -/
theorem runList_cons (p : Seq) (ps : List Seq) (s : State) :
    runList (p :: ps) s
      = if seqEnabled p s then (runStatement p { s with seq := p }).bind (runList ps) else runList ps s := rfl

theorem runList_enabled (p : Seq) (ps : List Seq) (s : State) (h : seqEnabled p s = true) :
    runList (p :: ps) s = (runStatement p { s with seq := p }).bind (runList ps) := runSteps_enabled _ _ p ps s h

theorem runList_skipped (p : Seq) (ps : List Seq) (s : State) (h : seqEnabled p s = false) :
    runList (p :: ps) s = runList ps s := runSteps_skipped _ _ p ps s h

theorem runList_append (ps qs : List Seq) (s : State) :
    runList (ps ++ qs) s = (runList ps s).bind (runList qs) := runSteps_append _ _ ps qs s

/-- SETUP's body is its own statements, `Init`, and the return. -/
theorem setupProgram_eq :
    setupProgram = [.setup .cfgDc, .setup .cfgRst, .setup .driveRst, .setup .cfgBusy, .setup .clearFb,
      .setup .markDone] ++ (initSteps.map (fun p => Seq.setup (.init p)) ++ [.setup .ret]) := by
  simp [setupProgram]

/-- The statements of SETUP and DISPLAY read no operand (R224, R226). -/
theorem driver_no_operand (o o' : Operands) (p : Seq)
    (h : p ∈ operationProgram .setup ∨ p ∈ operationProgram .display) :
    enabledWith o p = enabledWith o' p ∧ runWith o p = runWith o' p := by
  have key : ∀ p : Seq, (∃ q, p = .setup q) ∨ (∃ q, p = .display q) ∨ p = .entry .setup ∨ p = .entry .display →
      enabledWith o p = enabledWith o' p ∧ runWith o p = runWith o' p := by
    rintro p (⟨q, rfl⟩ | ⟨q, rfl⟩ | rfl | rfl)
    · exact ⟨by cases q <;> rfl, rfl⟩
    · exact ⟨by cases q <;> rfl, rfl⟩
    · exact ⟨rfl, rfl⟩
    · exact ⟨rfl, rfl⟩
  apply key
  rcases h with h | h
  · simp only [operationProgram, setupProgram, List.mem_cons, List.mem_append, List.mem_map, List.not_mem_nil,
      or_false] at h
    rcases h with rfl | ((⟨q, -, rfl⟩ | ⟨q, -, rfl⟩) | rfl) <;> simp
  · simp only [operationProgram, displayProgram, List.mem_cons, List.mem_append, List.mem_map] at h
    rcases h with rfl | (⟨q, -, rfl⟩ | ⟨q, -, rfl⟩) <;> simp

/-- SETUP and DISPLAY run as their statements, whatever OPF holds. -/
theorem runOperation_driver (s : State) (o : Operands) (op : HostOp) (h : op = .setup ∨ op = .display) :
    s.runOperation o op = runList (operationProgram op) (s.start op) := by
  refine runSteps_congr _ _ _ _ (fun _ => True) _ (fun p hp u _ => ?_) (fun _ _ _ _ _ _ => trivial) _ trivial
  have hp' : p ∈ operationProgram .setup ∨ p ∈ operationProgram .display := by
    rcases h with rfl | rfl
    · exact .inl hp
    · exact .inr hp
  obtain ⟨h1, -⟩ := driver_no_operand o (operandsOf u.opf) p hp'
  obtain ⟨-, h2⟩ := driver_no_operand o (operandsOf u.opf) p hp'
  exact ⟨congrFun h1 u, congrFun h2 _⟩

theorem operationProgram_setup : operationProgram .setup = .entry .setup :: setupProgram := rfl

theorem operationProgram_display : operationProgram .display = .entry .display :: displayProgram := rfl

/-- A sequence from the entry of an operation. -/
theorem runList_entry (s : State) (op : HostOp) (ps : List Seq) :
    runList (.entry op :: ps) (s.start op) = (runEntry (operandsOf s.opf) op (s.start op)).bind (runList ps) := rfl

/-- SETUP from its check on (R224). -/
theorem execSetup_eq (s : State) :
    execSetup s
      = if s.setupDone then .next (s.finish .seqError 0) else (runList setupProgram (s.start .setup)).outcome := by
  have entry : runEntry (operandsOf s.opf) .setup (s.start .setup)
      = if s.setupDone then .ended (s.finish .seqError 0) else .go (s.start .setup) := rfl
  rw [execSetup, runOperation_driver s _ _ (.inl rfl), operationProgram_setup, runList_entry, entry]
  split
  · rw [Flow.bind_ended, Flow.outcome_ended]
  · rw [Flow.bind_go]

/-- DISPLAY from its check on (R226). -/
theorem execDisplay_eq (s : State) :
    execDisplay s
      = if s.setupDone then (runList displayProgram (s.start .display)).outcome else .next (s.finish .seqError 0) := by
  have entry : runEntry (operandsOf s.opf) .display (s.start .display)
      = if s.setupDone then .go (s.start .display) else .ended (s.finish .seqError 0) := rfl
  rw [execDisplay, runOperation_driver s _ _ (.inr rfl), operationProgram_display, runList_entry, entry]
  split
  · rw [Flow.bind_go]
  · rw [Flow.bind_ended, Flow.outcome_ended]

/-- At every position that sends a panel command, the command's meaning is the statement there (R103), which goes on. -/
theorem exec_commandAt (p : Seq) (i : Instr) (s : State) (h : commandAt p = some i) :
    ∃ t, exec i s = .next t ∧ runStatement p s = .go t := by
  rcases p with _ | _ | q | _ | _ | _ | q | _ | _
  case setup =>
    rcases q with _ | _ | _ | _ | _ | _ | r | _
    case init =>
      cases r <;> simp [commandAt, commandAtInit] at h <;> subst h <;> exact ⟨_, rfl, rfl⟩
    all_goals simp [commandAt] at h
  case display =>
    rcases q with r | _ | _ | _ | _ | _ | _ | _ | _ | _ | _ | _ | _ | _ | _ | _ | _ | _ | _ | _ | _ | _ | _
    case wake =>
      cases r <;> simp [commandAt, commandAtInit] at h <;> subst h <;> exact ⟨_, rfl, rfl⟩
    all_goals (simp [commandAt] at h; try (subst h; exact ⟨_, rfl, rfl⟩))
  all_goals simp [commandAt] at h

/-- What a step does inside an operation: one statement, whether a panel command or not (R27). -/
theorem step_running (s : State) (p : Seq) (hp : s.seq = p) (h : p ≠ .ready) :
    step s = ((runStatement p s).moveOn p).outcome := by
  subst hp
  have key : fetch s = (match commandAt s.seq with | some i => .command i s.seq | none => .statement s.seq) := by
    unfold fetch
    split
    · rename_i hr
      exact absurd hr h
    · rfl
  unfold step
  rw [key]
  cases hc : commandAt s.seq with
  | none => rfl
  | some i =>
    obtain ⟨t, h1, h2⟩ := exec_commandAt s.seq i s hc
    simp only [h1, h2, afterCommand, Flow.moveOn, Flow.outcome_go]

/-- The step pointer is no condition of an `if` (log entry 18). -/
theorem seqEnabled_seq (q p : Seq) (s : State) : seqEnabled q { s with seq := p } = seqEnabled q s := by
  rcases q with _ | _ | r | _ | _ | _ | r | _ | _ <;> rfl

/-- A sequence runs from its first statement that no `if` passes over. -/
theorem runList_dropWhile (ps : List Seq) (s : State) :
    runList ps s = match ps.dropWhile (fun q => !seqEnabled q s) with
      | [] => .go s
      | q :: rest => runList (q :: rest) { s with seq := q } := by
  induction ps with
  | nil => rfl
  | cons a ps ih =>
    by_cases h : seqEnabled a s = true
    · simp only [List.dropWhile, h, Bool.not_true]
      rw [runList_enabled _ _ _ h, runList_enabled _ _ _ (by rw [seqEnabled_seq]; exact h)]
    · have h' : seqEnabled a s = false := by simpa using h
      rw [runList_skipped _ _ _ h', ih]
      simp [List.dropWhile, h']

end Sys2Proof.Machine
end

