-- ==== Sys2Proof/Laws/Sequences.lean ====
section
/-! SUPPORT. Running `Init` (R190) with a panel that reads idle: the normal form `State.via` of a state after some
statements, one lemma per field and one per composition, and the run of `Init`'s statements at the positions of SETUP
and of DISPLAY. -/

namespace Sys2Proof.Machine

/-- A state after some statements that drive the link: the pointer at `q`, the lines, PANEL_STATE, the BUSY levels left,
the milliseconds slept since the last time read and the events appended. -/
def State.via (s : State) (q : Seq) (dc rst cs : Bool) (ps : PanelState) (bi : List Bool) (sl : Nat) (es : List Event) :
    State :=
  { s with
    seq := q
    dcLvl := dc
    rstLvl := rst
    cs := cs
    panelState := ps
    busyIn := bi
    slept := sl
    tr := s.tr ++ es }

/-- The step pointer at `q`. -/
def State.pointAt (s : State) (q : Seq) : State := { s with seq := q }

@[simp] theorem State.pointAt_params (s : State) (q : Seq) : (s.pointAt q).params = s.params := rfl
@[simp] theorem State.pointAt_seq (s : State) (q : Seq) : (s.pointAt q).seq = q := rfl

section
variable (s : State) (q : Seq) (dc rst cs : Bool) (ps : PanelState) (bi : List Bool) (sl : Nat) (es : List Event)

@[simp] theorem State.via_params : (s.via q dc rst cs ps bi sl es).params = s.params := rfl
@[simp] theorem State.via_fb : (s.via q dc rst cs ps bi sl es).fb = s.fb := rfl
@[simp] theorem State.via_atUpdate : (s.via q dc rst cs ps bi sl es).atUpdate = s.atUpdate := rfl
@[simp] theorem State.via_warning : (s.via q dc rst cs ps bi sl es).warning = s.warning := rfl
@[simp] theorem State.via_dsbu : (s.via q dc rst cs ps bi sl es).dsbu = s.dsbu := rfl
@[simp] theorem State.via_panelState : (s.via q dc rst cs ps bi sl es).panelState = ps := rfl
@[simp] theorem State.via_setupDone : (s.via q dc rst cs ps bi sl es).setupDone = s.setupDone := rfl
@[simp] theorem State.via_seq : (s.via q dc rst cs ps bi sl es).seq = q := rfl
@[simp] theorem State.via_dcLvl : (s.via q dc rst cs ps bi sl es).dcLvl = dc := rfl
@[simp] theorem State.via_rstLvl : (s.via q dc rst cs ps bi sl es).rstLvl = rst := rfl
@[simp] theorem State.via_cs : (s.via q dc rst cs ps bi sl es).cs = cs := rfl
@[simp] theorem State.via_full : (s.via q dc rst cs ps bi sl es).full = s.full := rfl
@[simp] theorem State.via_prev : (s.via q dc rst cs ps bi sl es).prev = s.prev := rfl
@[simp] theorem State.via_busyIn : (s.via q dc rst cs ps bi sl es).busyIn = bi := rfl
@[simp] theorem State.via_slept : (s.via q dc rst cs ps bi sl es).slept = sl := rfl
@[simp] theorem State.via_tr : (s.via q dc rst cs ps bi sl es).tr = s.tr ++ es := rfl

@[simp] theorem State.via_via (q' : Seq) (dc' rst' cs' : Bool) (ps' : PanelState) (bi' : List Bool)
    (sl' : Nat) (es' : List Event) :
    (s.via q dc rst cs ps bi sl es).via q' dc' rst' cs' ps' bi' sl' es' = s.via q' dc' rst' cs' ps' bi' sl' (es ++ es') := by
  simp [State.via]

end

/-- Every state is its own normal form. -/
theorem State.via_self (s : State) : s.via s.seq s.dcLvl s.rstLvl s.cs s.panelState s.busyIn s.slept [] = s := by
  simp [State.via]

/-- `Cmd(b)` at a position. -/
theorem cmd_via (s : State) (q : Seq) (b : Byte) :
    (s.pointAt q).cmd b = s.via q false s.rstLvl false s.panelState s.busyIn s.slept (evCmd b) := by
  simp [State.cmd_eq, State.pointAt, State.via]

/-- `Cmd(b)` then `Dat(bs)` at a position. -/
theorem cmd_dat_via (s : State) (q : Seq) (b : Byte) (bs : List Byte) :
    ((s.pointAt q).cmd b).dat bs
      = s.via q true s.rstLvl false s.panelState s.busyIn s.slept (evCmd b ++ evDat bs) := by
  simp [State.cmd_dat_eq, State.pointAt, State.via]

/-- The gate of a panel that reads idle at the next sample (R153), or of an instance without a busy line. -/
theorem gate_via (s : State) (q : Seq) (site : GateSite) (k : Nat) (h : s.idleFor (k + 1)) :
    (s.pointAt q).gate site =
      .go (s.via q s.dcLvl s.rstLvl s.cs (if s.panelState = .busy then .idle else s.panelState) (s.busyLeft 1)
        s.slept (traceGate s.params.toParamRecord)) := by
  cases hb : s.params.hasBusy
  · have hb' : (s.pointAt q).params.hasBusy = false := hb
    rw [gate_of_no_busy _ _ hb']
    simp only [State.gatePassed, State.busyLeft, traceGate, hb, State.via, State.pointAt, Bool.false_eq_true, if_false,
      List.append_nil]
    rfl
  · obtain ⟨rest, hr⟩ := h hb
    have hr' : (s.pointAt q).busyIn
        = (!(s.pointAt q).params.busyActiveLevel) :: (List.replicate k (!s.params.busyActiveLevel) ++ rest) := by
      simpa [State.pointAt, List.replicate_succ] using hr
    rw [gate_of_idle (s.pointAt q) site _ hb hr']
    simp only [State.gatePassed, State.busyLeft, traceGate, hb, hr, State.emit, State.via, State.pointAt,
      List.replicate_succ]
    rfl

/-- Where the busy levels stand after one idle sample. -/
theorem idleFor_busyLeft (s t : State) (k : Nat) (h : s.idleFor (k + 1)) (hp : t.params = s.params)
    (hb : t.busyIn = s.busyLeft 1) : t.idleFor k := by
  intro hasBusy
  rw [hp] at hasBusy
  obtain ⟨rest, hr⟩ := h hasBusy
  exact ⟨rest, by simp [hb, hp, State.busyLeft, hasBusy, hr, List.replicate_succ]⟩

theorem busyLeft_busyLeft (s t : State) (j k : Nat) (hp : t.params = s.params) (hb : t.busyIn = s.busyLeft j) :
    t.busyLeft k = s.busyLeft (j + k) := by
  simp only [State.busyLeft, hp, hb]
  split <;> simp

/-- The positions `f p` run `Init`'s statements `p` under `Init`'s own guards, for states with the parameters and DSBU
of `s` (R190). -/
structure InitAt (f : InitStep → Seq) (s : State) : Prop where
  run : ∀ (p : InitStep) (t : State), runStatement (f p) t = runInit p t
  enabled : ∀ (p : InitStep) (t : State), t.params = s.params → t.dsbu = s.dsbu →
    seqEnabled (f p) t = initEnabled p t
  vcom : ∀ t : State, t.seq = f .vcom → t.vcomByte = t.params.cal.vcomInit

theorem initAt_setup (s : State) : InitAt (fun p => .setup (.init p)) s :=
  ⟨fun _ _ => rfl, fun _ _ _ _ => rfl, fun t ht => vcomByte_init t .vcom (.inl ht)⟩

theorem initAt_wake (s : State) (h : s.dsbu = true) : InitAt (fun p => .display (.wake p)) s :=
  ⟨fun _ _ => rfl, fun p t _ hd => by simp [seqEnabled, enabledWith, hd, h], fun t ht => vcomByte_init t .vcom (.inr ht)⟩

/-- One statement of `Init`, run. -/
theorem runList_init (f : InitStep → Seq) (s : State) (hf : InitAt f s) (p : InitStep) (ps : List Seq) (t : State)
    (hp : t.params = s.params) (hd : t.dsbu = s.dsbu) :
    runList (f p :: ps) t =
      if initEnabled p t then (runInit p (t.pointAt (f p))).bind (runList ps) else runList ps t := by
  rw [runList_cons, hf.enabled p t hp hd, hf.run]
  rfl

section
variable (s : State) (q : Seq)

/-! Each statement of `Init` but its gates, at a position. -/

theorem runInit_start : runInit .start (s.pointAt q) =
    .go (s.via q s.dcLvl s.rstLvl s.cs .uninitialized s.busyIn s.slept []) := by
  simp [runInit, State.via, State.pointAt]

theorem runInit_rstLow : runInit .rstLow (s.pointAt q) =
    .go (s.via q s.dcLvl false s.cs s.panelState s.busyIn s.slept [.line .rst false]) := rfl

theorem runInit_rstLowWait : runInit .rstLowWait (s.pointAt q) =
    .go (s.via q s.dcLvl s.rstLvl s.cs s.panelState s.busyIn
      (s.slept + s.params.tRstLowMs.toNat) [.sleep s.params.tRstLowMs]) := rfl

theorem runInit_rstHigh : runInit .rstHigh (s.pointAt q) =
    .go (s.via q s.dcLvl true s.cs s.panelState s.busyIn s.slept [.line .rst true]) := rfl

theorem runInit_rstHighWait : runInit .rstHighWait (s.pointAt q) =
    .go (s.via q s.dcLvl s.rstLvl s.cs s.panelState s.busyIn
      (s.slept + s.params.tRstHighMs.toNat) [.sleep s.params.tRstHighMs]) := rfl

theorem runInit_swReset : runInit .swReset (s.pointAt q) =
    .go (s.via q false s.rstLvl false s.panelState s.busyIn s.slept (evCmd s.params.opc.swReset)) := by
  simp [runInit, sendSwReset, cmd_via]

theorem runInit_driverOutput : runInit .driverOutput (s.pointAt q) =
    .go (s.via q true s.rstLvl false s.panelState s.busyIn s.slept
      (evCmd s.params.opc.driverOutput ++ evDat (s.params.heightBytes ++ [s.params.cal.docMode]))) := by
  simp [runInit, sendDriverOutput, cmd_dat_via]

theorem runInit_booster : runInit .booster (s.pointAt q) =
    .go (s.via q true s.rstLvl false s.panelState s.busyIn s.slept
      (evCmd s.params.opc.booster ++ evDat (s.params.cal.booster.toList))) := by
  simp [runInit, sendBooster, cmd_dat_via]

theorem runInit_dummyLine : runInit .dummyLine (s.pointAt q) =
    .go (s.via q true s.rstLvl false s.panelState s.busyIn s.slept
      (evCmd s.params.opc.dummyLine ++ evDat ([s.params.cal.dummyLine]))) := by
  simp [runInit, sendDummyLine, cmd_dat_via]

theorem runInit_gateTime : runInit .gateTime (s.pointAt q) =
    .go (s.via q true s.rstLvl false s.panelState s.busyIn s.slept
      (evCmd s.params.opc.gateTime ++ evDat ([s.params.cal.gateTime]))) := by
  simp [runInit, sendGateTime, cmd_dat_via]

theorem runInit_dataEntry : runInit .dataEntry (s.pointAt q) =
    .go (s.via q true s.rstLvl false s.panelState s.busyIn s.slept
      (evCmd s.params.opc.dataEntry ++ evDat ([s.params.cal.dataEntry]))) := by
  simp [runInit, sendDataEntry, cmd_dat_via]

theorem runInit_ramOption : runInit .ramOption (s.pointAt q) =
    .go (s.via q true s.rstLvl false s.panelState s.busyIn s.slept
      (evCmd s.params.opc.ramOption ++ evDat (s.params.cal.ramOption.toList))) := by
  simp [runInit, sendRamOption, cmd_dat_via]

theorem runInit_vcom (h : (s.pointAt q).vcomByte = s.params.cal.vcomInit) : runInit .vcom (s.pointAt q) =
    .go (s.via q true s.rstLvl false s.panelState s.busyIn s.slept (evCmd s.params.opc.vcom ++ evDat [s.params.cal.vcomInit])) := by
  simp [runInit, sendVcom, cmd_dat_via, h]

theorem runInit_finish : runInit .finish (s.pointAt q) =
    .go (s.via q s.dcLvl s.rstLvl s.cs .idle s.busyIn s.slept []) := by
  simp [runInit, State.via, State.pointAt]

end

/-- `HwReset`'s pulse and the start of `Init` (R177, R190). -/
theorem run_initPulse (f : InitStep → Seq) (s : State) (hf : InitAt f s) :
    ∃ q, runList ([InitStep.start, .rstLow, .rstLowWait, .rstHigh, .rstHighWait].map f) s =
      .go (s.via q s.dcLvl (if s.params.hasRst then true else s.rstLvl) s.cs .uninitialized s.busyIn
        (s.slept + pulseMs s.params.toParamRecord) (if s.params.hasRst then [.line .rst false, .sleep s.params.tRstLowMs, .line .rst true,
          .sleep s.params.tRstHighMs] else [])) := by
  refine ⟨if s.params.hasRst then f .rstHighWait else f .start, ?_⟩
  have step := runList_init f s hf
  have pulse : ∀ u : State, u.params = s.params → u.dsbu = s.dsbu →
      runList ([InitStep.rstLow, .rstLowWait, .rstHigh, .rstHighWait].map f) u =
        if s.params.hasRst then
          .go (u.via (f .rstHighWait) u.dcLvl true u.cs u.panelState u.busyIn
            (u.slept + pulseMs s.params.toParamRecord) [.line .rst false, .sleep s.params.tRstLowMs, .line .rst true, .sleep s.params.tRstHighMs])
        else .go u := by
    intro u hp hd
    cases hr : s.params.hasRst <;>
      simp [step, initEnabled, hp, hd, hr, runInit_rstLow, runInit_rstLowWait, runInit_rstHigh, runInit_rstHighWait,
        runList_nil, pulseMs, Nat.add_assoc]
  have first := step .start ([InitStep.rstLow, .rstLowWait, .rstHigh, .rstHighWait].map f) s rfl rfl
  rw [List.map_cons, first, runInit_start, Flow.bind_go,
    pulse (s.via (f .start) s.dcLvl s.rstLvl s.cs .uninitialized s.busyIn s.slept []) rfl rfl]
  cases hr : s.params.hasRst <;> simp [initEnabled, pulseMs, hr]

/-- The two gates of `Init` and the soft reset between them (R190). -/
theorem run_initGates (f : InitStep → Seq) (s t : State) (hf : InitAt f s) (hp : t.params = s.params)
    (hd : t.dsbu = s.dsbu) (hs : t.panelState = .uninitialized) (h : t.idleFor 2) :
    runList ([InitStep.gateHwReset, .swReset, .gateSwReset].map f) t =
      .go (t.via (f .gateSwReset) false t.rstLvl false .uninitialized (t.busyLeft 2) t.slept
        (traceGate s.params.toParamRecord ++ evCmd s.params.opc.swReset ++ traceGate s.params.toParamRecord)) := by
  have step := runList_init f s hf
  have g1 : runInit .gateHwReset (t.pointAt (f .gateHwReset)) = _ := gate_via t (f .gateHwReset) .initHwReset 1 h
  have g2 : runInit .gateSwReset ((t.via (f .swReset) false t.rstLvl false .uninitialized (t.busyLeft 1) t.slept
      (traceGate s.params.toParamRecord ++ evCmd s.params.opc.swReset)).pointAt (f .gateSwReset)) = _ :=
    gate_via _ (f .gateSwReset) .initSwReset 0 (idleFor_busyLeft t _ 1 h rfl rfl)
  have hb := busyLeft_busyLeft t
    (t.via (f .swReset) false t.rstLvl false .uninitialized (t.busyLeft 1) t.slept
      (traceGate s.params.toParamRecord ++ evCmd s.params.opc.swReset)) 1 1 rfl rfl
  simp [step, initEnabled, hp, hd, hs, g1, g2, hb, runInit_swReset, runList_nil]

/-- The seven register writes of `Init` and its end (R190). -/
theorem run_initWrites (f : InitStep → Seq) (s t : State) (hf : InitAt f s) (hp : t.params = s.params)
    (hd : t.dsbu = s.dsbu) :
    runList ([InitStep.driverOutput, .booster, .vcom, .dummyLine, .gateTime, .dataEntry, .ramOption, .finish].map f) t
      = .go (t.via (f .finish) true t.rstLvl false .idle t.busyIn t.slept
        (evCmd s.params.opc.driverOutput ++ evDat (s.params.heightBytes ++ [s.params.cal.docMode])
          ++ evCmd s.params.opc.booster ++ evDat s.params.cal.booster.toList
          ++ evCmd s.params.opc.vcom ++ evDat [s.params.cal.vcomInit]
          ++ evCmd s.params.opc.dummyLine ++ evDat [s.params.cal.dummyLine]
          ++ evCmd s.params.opc.gateTime ++ evDat [s.params.cal.gateTime]
          ++ evCmd s.params.opc.dataEntry ++ evDat [s.params.cal.dataEntry]
          ++ evCmd s.params.opc.ramOption ++ evDat s.params.cal.ramOption.toList)) := by
  have step := runList_init f s hf
  have hv : ∀ u : State, (u.pointAt (f .vcom)).vcomByte = u.params.cal.vcomInit := fun u => hf.vcom _ rfl
  simp [step, initEnabled, hp, hd, hv, runInit_driverOutput, runInit_booster, runInit_vcom, runInit_dummyLine,
    runInit_gateTime, runInit_dataEntry, runInit_ramOption, runInit_finish, runList_nil]

/-- `Init` with a panel that reads idle at both of its gates (R190, its example). -/
theorem run_init (f : InitStep → Seq) (s : State) (hf : InitAt f s) (h : s.idleFor 2) :
    runList (initSteps.map f) s =
      .go (s.via (f .finish) true (if s.params.hasRst then true else s.rstLvl) false .idle (s.busyLeft 2)
        (s.slept + pulseMs s.params.toParamRecord) (traceInit s.params.toParamRecord)) := by
  have split : initSteps.map f = [InitStep.start, .rstLow, .rstLowWait, .rstHigh, .rstHighWait].map f
      ++ ([InitStep.gateHwReset, .swReset, .gateSwReset].map f
      ++ [InitStep.driverOutput, .booster, .vcom, .dummyLine, .gateTime, .dataEntry, .ramOption, .finish].map f) :=
    rfl
  obtain ⟨q, hq⟩ := run_initPulse f s hf
  rw [split, runList_append, hq, Flow.bind_go, runList_append,
    run_initGates f s (s.via q s.dcLvl _ s.cs .uninitialized s.busyIn _ _) hf rfl rfl rfl h, Flow.bind_go, State.via_via,
    run_initWrites f s (s.via (f .gateSwReset) false _ false .uninitialized _ _ _) hf rfl rfl]
  simp [traceInit, State.busyLeft]

end Sys2Proof.Machine
end

