-- ==== Sys2Proof/Laws/Display.lean ====
section
/-! SUPPORT. Running DISPLAY's body (R226) by its parts: the normal form `State.shown` of a state after the mode has been
sampled, the steps before the second gate, and the steps from it on, for a panel that reads idle. -/

namespace Sys2Proof.Machine

/-- A state of a refresh after step 3: the pointer, DC, CS, AT_UPDATE, WARNING, PANEL_STATE and the BUSY levels as
given, the mode flags those of `s`, the events appended. -/
def State.shown (s : State) (q : Seq) (dc cs : Bool) (a : U32) (w : Bool) (ps : PanelState) (bi : List Bool)
    (es : List Event) : State :=
  { s with
    seq := q
    dcLvl := dc
    cs := cs
    atUpdate := a
    warning := w
    panelState := ps
    busyIn := bi
    tr := s.tr ++ es
    full := decide (s.atUpdate = 0)
    prev := decide (s.atUpdate = 1) }

section
variable (s : State) (q : Seq) (dc cs : Bool) (a : U32) (w : Bool) (ps : PanelState) (bi : List Bool) (es : List Event)

@[simp] theorem State.shown_params : (s.shown q dc cs a w ps bi es).params = s.params := rfl
@[simp] theorem State.shown_fb : (s.shown q dc cs a w ps bi es).fb = s.fb := rfl
@[simp] theorem State.shown_full : (s.shown q dc cs a w ps bi es).full = decide (s.atUpdate = 0) := rfl
@[simp] theorem State.shown_prev : (s.shown q dc cs a w ps bi es).prev = decide (s.atUpdate = 1) := rfl
@[simp] theorem State.shown_dsbu : (s.shown q dc cs a w ps bi es).dsbu = s.dsbu := rfl
@[simp] theorem State.shown_panelState : (s.shown q dc cs a w ps bi es).panelState = ps := rfl
@[simp] theorem State.shown_busyIn : (s.shown q dc cs a w ps bi es).busyIn = bi := rfl
@[simp] theorem State.shown_dcLvl : (s.shown q dc cs a w ps bi es).dcLvl = dc := rfl
@[simp] theorem State.shown_cs : (s.shown q dc cs a w ps bi es).cs = cs := rfl
@[simp] theorem State.shown_atUpdate : (s.shown q dc cs a w ps bi es).atUpdate = a := rfl
@[simp] theorem State.shown_seq : (s.shown q dc cs a w ps bi es).seq = q := rfl

@[simp] theorem State.shown_pointAt (q' : Seq) :
    (s.shown q dc cs a w ps bi es).pointAt q' = s.shown q' dc cs a w ps bi es := rfl

theorem State.shown_cmd (b : Byte) :
    (s.shown q dc cs a w ps bi es).cmd b = s.shown q false false a w ps bi (es ++ evCmd b) := by
  simp [State.cmd_eq, State.shown]

theorem State.shown_dat (bs : List Byte) :
    (s.shown q dc cs a w ps bi es).dat bs = s.shown q true false a w ps bi (es ++ evDat bs) := by
  simp [State.dat_eq, State.shown]

theorem State.shown_cmdDat (b : Byte) (bs : List Byte) :
    (s.shown q dc cs a w ps bi es).cmdDat b bs = s.shown q true false a w ps bi (es ++ evCmdDat b bs) := by
  simp [State.cmdDat_eq, State.shown]

theorem State.shown_markBusy :
    (s.shown q dc cs a w ps bi es).markBusy
      = s.shown q dc cs a w (if ps = .uninitialized ∨ ps = .sleeping then ps else .busy) bi es := rfl

theorem State.shown_advanceCadence :
    (s.shown q dc cs a w ps bi es).advanceCadence = s.shown q dc cs (nextUpdate s.params.n a) w ps bi es := rfl

theorem State.shown_clearWarning :
    (s.shown q dc cs a w ps bi es).clearWarning = s.shown q dc cs a false ps bi es := rfl

/-! The payloads the mode selects (R103, R220), at the positions of a refresh. -/

theorem State.shown_vcomByte : (s.shown (.display .vcom) dc cs a w ps bi es).vcomByte
    = if s.atUpdate = 0 then s.params.cal.vcomFull else s.params.cal.vcomPartial := by
  simp [State.vcomByte]

theorem State.shown_lutTable : (s.shown q dc cs a w ps bi es).lutTable
    = if s.atUpdate = 0 then s.params.lutFull else s.params.lutPartial := by
  simp [State.lutTable]

theorem State.shown_borderByte : (s.shown q dc cs a w ps bi es).borderByte
    = if s.atUpdate = 0 then s.params.cal.borderFull else s.params.cal.borderPartial := by
  simp [State.borderByte]

theorem State.shown_duc2Byte_flag : (s.shown (.display .duc2Flag) dc cs a w ps bi es).duc2Byte
    = s.params.cal.duc2PartialFlag := rfl

theorem State.shown_duc2Byte : (s.shown (.display .duc2) dc cs a w ps bi es).duc2Byte
    = if s.atUpdate = 0 then s.params.cal.duc2Full else s.params.cal.duc2Partial := by
  simp [State.duc2Byte]

theorem State.shown_reloadDue : (s.shown q dc cs a w ps bi es).reloadDue
    = (decide (s.params.n ≠ 0) && decide (decide (s.atUpdate = 0) ≠ decide (s.atUpdate = 1))) := rfl

/-- The panel sleep of step 14 (R189). -/
theorem State.shown_sleep : sendDeepSleep (s.shown q dc cs a w ps bi es)
    = s.shown q (decide (s.params.cal.sleepData ≠ [])) false a w .sleeping bi
        (es ++ traceSleep s.params.toParamRecord) := by
  by_cases h : s.params.cal.sleepData = [] <;>
    simp [sendDeepSleep, h, State.shown_cmd, State.shown_dat, traceSleep] <;> simp [State.shown]

end

/-- One statement in front of a sequence, the pointer at it. -/
theorem runList_pointAt (p : Seq) (ps : List Seq) (s : State) :
    runList (p :: ps) s
      = if seqEnabled p s then (runStatement p (s.pointAt p)).bind (runList ps) else runList ps s := rfl

/-- Without DSBU a refresh passes over `Init` (R226 step 1). -/
theorem run_wake_skipped (s : State) (h : s.dsbu = false) :
    runList (initSteps.map (fun p => Seq.display (.wake p))) s = .go s := by
  simp [initSteps, runList_pointAt, seqEnabled, enabledWith, runList_nil, h]

/-- Steps 4 to 9 of R226. -/
def beforeRam : List Seq :=
  [.display .lut, .display .advance, .display .vcom, .display .pingpong, .display .duc2Flag, .display .preActivate,
   .display .border, .display .ramXWindow, .display .ramYWindow, .display .ramXCounter, .display .ramYCounter]

/-- Steps 11 to 14 of R226 and the return. -/
def streamToRet : List Seq :=
  [.display .writeBw, .display .writeRed, .display .duc2, .display .activate, .display .terminate,
   .display .clearWarning, .display .sleep, .display .ret]

/-- Steps 10 to 14 of R226 and the return. -/
def fromRam : List Seq := .display .gateRam :: streamToRet

/-- DISPLAY's body by its parts. -/
theorem displayProgram_eq : displayProgram =
    initSteps.map (fun p => Seq.display (.wake p))
      ++ (.display .gateStart :: .display .mode :: (beforeRam ++ fromRam)) := rfl

/-- Steps 2 and 3 for a panel that reads idle. -/
theorem run_start (s : State) (ps : List Seq) (k : Nat) (h : s.idleFor (k + 1)) :
    runList (.display .gateStart :: .display .mode :: ps) s
      = runList ps (s.shown (.display .mode) s.dcLvl s.cs s.atUpdate s.warning
          (if s.panelState = .busy then .idle else s.panelState) (s.busyLeft 1) (traceGate s.params.toParamRecord)) := by
  have g : runDisplay .gateStart (s.pointAt (.display .gateStart)) = _ :=
    gate_via s (.display .gateStart) .refreshStart k h
  simp only [runList_pointAt, seqEnabled, enabledWith, if_true, runStatement, runWith, g, Flow.bind_go]
  simp only [runDisplay, Flow.bind_go]
  rfl

section
variable (s : State) (q : Seq) (dc cs : Bool) (a : U32) (w : Bool) (ps : PanelState) (bi : List Bool) (es : List Event)
  (rest : List Seq)

/-- Steps 4 to 6. -/
theorem run_lut_vcom :
    runList (.display .lut :: .display .advance :: .display .vcom :: rest) (s.shown q dc cs a w ps bi es)
      = runList rest (s.shown (.display .vcom) true false (nextUpdate s.params.n a) w ps bi
          (es ++ (if s.params.n ≠ 0 ∧ s.atUpdate = 0 then evCmdDat 0x32 s.params.lutFull
              else if s.params.n ≠ 0 ∧ s.atUpdate = 1 then evCmdDat 0x32 s.params.lutPartial else [])
            ++ evCmd s.params.opc.vcom ++ evDat [if s.atUpdate = 0 then s.params.cal.vcomFull else s.params.cal.vcomPartial])) := by
  simp only [runList_pointAt, seqEnabled, enabledWith, runStatement, runWith, runDisplay, if_true, State.shown_pointAt, Flow.bind_go, sendLut,
    State.shown_cmdDat, State.shown_lutTable, State.shown_advanceCadence, sendVcom, State.shown_vcomByte, State.shown_params,
    State.shown_cmd, State.shown_dat, State.shown_reloadDue]
  by_cases hn : s.params.n = 0#32
  · simp [hn]
  · by_cases h0 : s.atUpdate = 0#32
    · simp [hn, h0]
    · by_cases h1 : s.atUpdate = 1#32 <;> simp [hn, h0, h1]

/-- Step 7. -/
theorem run_partial :
    runList (.display .pingpong :: .display .duc2Flag :: .display .preActivate :: .display .border :: rest)
        (s.shown q dc cs a w ps bi es)
      = runList rest (s.shown (.display .border) true false a w
          (if s.atUpdate = 0 then ps else if ps = .uninitialized ∨ ps = .sleeping then ps else .busy) bi
          (es ++ (if s.atUpdate = 0 then [] else evCmd s.params.opc.pingpong ++ evDat s.params.cal.pingpong.toList
              ++ evCmd s.params.opc.duc2 ++ evDat [s.params.cal.duc2PartialFlag] ++ evCmd 0x20)
            ++ evCmd s.params.opc.border
            ++ evDat [if s.atUpdate = 0 then s.params.cal.borderFull else s.params.cal.borderPartial])) := by
  simp only [runList_pointAt, seqEnabled, enabledWith, runStatement, runWith, runDisplay, if_true, State.shown_pointAt, Flow.bind_go,
    sendPingpong, sendDuc2, sendMasterAct, sendBorder, State.shown_cmd, State.shown_dat, State.shown_markBusy,
    State.shown_duc2Byte_flag, State.shown_borderByte, State.shown_params, State.shown_full]
  by_cases h0 : s.atUpdate = 0#32 <;> simp [h0]

/-- Step 9. -/
theorem run_window :
    runList (.display .ramXWindow :: .display .ramYWindow :: .display .ramXCounter :: .display .ramYCounter :: rest)
        (s.shown q dc cs a w ps bi es)
      = runList rest (s.shown (.display .ramYCounter) true false a w ps bi
          (es ++ evCmd s.params.opc.ramXWindow ++ evDat [0x00, s.params.windowEndX]
            ++ evCmd s.params.opc.ramYWindow ++ evDat ([0x00, 0x00] ++ s.params.heightBytes)
            ++ evCmd s.params.opc.ramXCounter ++ evDat [0x00]
            ++ evCmd s.params.opc.ramYCounter ++ evDat [0x00, 0x00])) := by
  simp only [runList_pointAt, seqEnabled, enabledWith, runStatement, runWith, runDisplay, if_true, State.shown_pointAt, Flow.bind_go,
    sendRamXWindow, sendRamYWindow, sendRamXCounter, sendRamYCounter, State.shown_cmd, State.shown_dat,
    State.shown_params]

/-- Steps 4 to 9, whatever the panel does: they poll nothing. -/
theorem run_beforeRam :
    runList (beforeRam ++ rest) (s.shown q dc cs a w ps bi es)
      = runList rest (s.shown (.display .ramYCounter) true false (nextUpdate s.params.n a) w
          (if s.atUpdate = 0 then ps else if ps = .uninitialized ∨ ps = .sleeping then ps else .busy) bi
          (es ++ traceBeforeRam s.params.toParamRecord s.atUpdate)) := by
  simp only [beforeRam, List.cons_append, List.nil_append, run_lut_vcom, run_partial, run_window, traceBeforeRam,
    List.append_assoc]

end

/-- Steps 11 to 14 and the return (R226), whatever state step 10 left: they poll nothing and end the operation OK. -/
theorem run_stream (g : State) (a : U32) (hf : g.full = decide (a = 0)) :
    runList streamToRet g
      = .ended (({ g with
          seq := .display .ret
          dcLvl := g.dsbu && decide (g.params.cal.sleepData ≠ [])
          cs := false
          warning := false
          panelState :=
            if g.dsbu then .sleeping
            else if g.panelState = .uninitialized ∨ g.panelState = .sleeping then g.panelState else .busy
          tr := g.tr ++ traceStream g.params.toParamRecord g.fb a
            ++ (if g.dsbu then traceSleep g.params.toParamRecord else []) } : State).finish .ok 0) := by
  simp only [streamToRet, runList_pointAt, seqEnabled, enabledWith, runStatement, runWith, runDisplay, if_true, Flow.bind_go,
    sendWriteBw, sendWriteRed, sendDuc2, sendMasterAct, sendTerminate, sendDeepSleep, State.cmd_eq, State.dat_eq,
    State.pointAt, State.markBusy, State.duc2Byte, State.clearWarning, Flow.bind_ended, traceStream, traceSleep]
  by_cases hz : g.params.cal.sleepData = [] <;> cases hd : g.dsbu <;> cases hp : g.panelState <;> simp [hf, hz]

/-- Steps 10 to 14 for a panel that reads idle at step 10. -/
theorem run_fromRam (s : State) (q : Seq) (dc cs : Bool) (a : U32) (w : Bool) (ps : PanelState) (es : List Event)
    (h : s.idleFor 2) :
    runList fromRam (s.shown q dc cs a w ps (s.busyLeft 1) es)
      = .ended ((s.shown (.display .ret) (s.dsbu && decide (s.params.cal.sleepData ≠ [])) false a false
          (if s.dsbu then .sleeping else if ps = .uninitialized ∨ ps = .sleeping then ps else .busy) (s.busyLeft 2)
          (es ++ traceGate s.params.toParamRecord ++ traceStream s.params.toParamRecord s.fb s.atUpdate
            ++ (if s.dsbu then traceSleep s.params.toParamRecord else []))).finish .ok 0) := by
  have hidle := idleFor_busyLeft s (s.shown q dc cs a w ps (s.busyLeft 1) es) 1 h rfl rfl
  have left := busyLeft_busyLeft s (s.shown q dc cs a w ps (s.busyLeft 1) es) 1 1 rfl rfl
  have g : runDisplay .gateRam ((s.shown q dc cs a w ps (s.busyLeft 1) es).pointAt (.display .gateRam))
      = .go (s.shown (.display .gateRam) dc cs a w (if ps = .busy then .idle else ps) (s.busyLeft 2)
          (es ++ traceGate s.params.toParamRecord)) := by
    have e : runDisplay .gateRam ((s.shown q dc cs a w ps (s.busyLeft 1) es).pointAt (.display .gateRam)) = _ :=
      gate_via (s.shown q dc cs a w ps (s.busyLeft 1) es) (.display .gateRam) .refreshRam 0 hidle
    rw [e, left]
    simp only [State.via, State.shown, List.append_assoc]
    rfl
  rw [fromRam, runList_pointAt]
  simp only [seqEnabled, enabledWith, if_true, runStatement, runWith, g, Flow.bind_go]
  rw [run_stream _ s.atUpdate rfl]
  cases ps <;> simp [State.shown]

end Sys2Proof.Machine
end

