-- ==== Sys2Proof/Laws/Abort.lean ====
section
/-! SUPPORT. `Init` (R190) and DISPLAY (R226) however the panel behaves: what the statements up to each gate change, and
where the operation ends if that gate fails (R253, R258). -/

namespace Sys2Proof.Machine

/-- The opcodes some events send, whatever DC was before them. -/
def sends (es : List Event) (bs : List Byte) : Prop :=
  ∀ dc, ((linkBytes dc es).filter (fun p => !p.1)).map Prod.snd = bs

theorem sends_append {a b : List Event} {x y : List Byte} (ha : sends a x) (hb : sends b y) : sends (a ++ b) (x ++ y) := by
  intro dc
  rw [linkBytes_append, List.filter_append, List.map_append, ha, hb]

theorem sends_quiet {es : List Event} (h : ∀ e ∈ es, e.quiet = true) : sends es [] := by
  intro dc
  rw [linkBytes_quiet dc es h]
  rfl

theorem sends_evCmd (b : Byte) : sends (evCmd b) [b] := fun _ => rfl

theorem sends_evDat (bs : List Byte) : sends (evDat bs) [] := by
  intro dc
  rw [linkBytes_evDat, filter_data]
  rfl

/-- `t` is `s` after statements that poll and drive the link: the pointer, the lines, PANEL_STATE, the environment's draws
and the account of time may differ, and the events appended send the opcodes `bs`. -/
def LinkChange (s t : State) (bs : List Byte) : Prop :=
  t = { s with
        seq := t.seq
        dcLvl := t.dcLvl
        rstLvl := t.rstLvl
        cs := t.cs
        panelState := t.panelState
        tr := t.tr
        busyIn := t.busyIn
        timeIn := t.timeIn
        draws := t.draws
        lastNow := t.lastNow
        slept := t.slept
        bgStart := t.bgStart }
    ∧ ∃ es, t.tr = s.tr ++ es ∧ sends es bs

theorem LinkChange.trans {s t u : State} {x y : List Byte} (h1 : LinkChange s t x) (h2 : LinkChange t u y) :
    LinkChange s u (x ++ y) := by
  obtain ⟨e1, es1, ht, q1⟩ := h1
  obtain ⟨e2, es2, hu, q2⟩ := h2
  refine ⟨?_, es1 ++ es2, by rw [hu, ht, List.append_assoc], sends_append q1 q2⟩
  rw [e1] at e2
  exact e2

theorem linkChange_via (s : State) (q : Seq) (dc rst cs : Bool) (ps : PanelState) (sl : Nat) (es : List Event)
    (bs : List Byte) (h : sends es bs) : LinkChange s (s.via q dc rst cs ps s.busyIn sl es) bs :=
  ⟨rfl, es, rfl, h⟩

/-- Moving the pointer, polling a gate and passing it or not is a change that sends nothing. -/
theorem GateChange.link {s t : State} (q : Seq) (h : GateChange (s.pointAt q) t) :
    LinkChange s t [] ∧ LinkChange s t.gatePassed [] := by
  obtain ⟨e, es, ht, hq, -⟩ := h
  have e' : t.gatePassed = { t with panelState := t.gatePassed.panelState } := rfl
  refine ⟨⟨?_, es, ht, sends_quiet hq⟩, ⟨?_, es, ht, sends_quiet hq⟩⟩
  · rw [e]
    rfl
  · rw [e', e]
    rfl

/-- A gate met in UNINITIALIZED, pointer at `q`: what it leaves, passed or failed (R153, R40). -/
theorem gate_uninitialized (s : State) (q : Seq) (site : GateSite) (h : s.panelState = .uninitialized) :
    ∃ t, LinkChange s t [] ∧ t.panelState = .uninitialized ∧ t.rstLvl = s.rstLvl ∧ t.params = s.params
      ∧ t.dsbu = s.dsbu
      ∧ ((s.pointAt q).gate site = .go t ∨ (s.pointAt q).gate site = .ended (t.raiseIdleTimeout site)) := by
  obtain ⟨t, ht, hg | hg⟩ := gate_cases (s.pointAt q) site
  · have hp : t.panelState = .uninitialized := ht.panelState.trans h
    exact ⟨t.gatePassed, (ht.link q).2, by simp [State.gatePassed, hp], ht.rstLvl, ht.params, ht.dsbu, .inl hg⟩
  · exact ⟨t, (ht.link q).1, ht.panelState.trans h, ht.rstLvl, ht.params, ht.dsbu, .inr hg⟩

/-- One statement of `Init` that no `if` guards, run. -/
theorem runList_init_go (f : InitStep → Seq) (s : State) (hf : InitAt f s) (p : InitStep) (ps : List Seq) (t : State)
    (hp : t.params = s.params) (hd : t.dsbu = s.dsbu) (he : initEnabled p t = true) :
    runList (f p :: ps) t = (runInit p (t.pointAt (f p))).bind (runList ps) := by
  rw [runList_init f s hf p ps t hp hd, he, if_pos rfl]

/-- `Init` however the panel behaves (R190): it ends at its first gate, having sent nothing, at its second, having sent
the soft reset, or goes on, its eight commands sent and PANEL_STATE IDLE. -/
theorem run_init_cases (f : InitStep → Seq) (s : State) (hf : InitAt f s) :
    ∃ t bs, LinkChange s t bs ∧ t.rstLvl = (if s.params.hasRst then true else s.rstLvl) ∧
      ((∃ site, runList (initSteps.map f) s = .ended (t.raiseIdleTimeout site) ∧ t.panelState = .uninitialized
          ∧ (bs = [] ∨ bs = [s.params.opc.swReset]))
        ∨ (runList (initSteps.map f) s = .go t ∧ t.panelState = .idle ∧ t.dcLvl = true ∧ t.cs = false
          ∧ bs = initOpcodes s.params.toParamRecord)) := by
  have split : initSteps.map f = [InitStep.start, .rstLow, .rstLowWait, .rstHigh, .rstHighWait].map f
      ++ (f .gateHwReset :: f .swReset :: f .gateSwReset
      :: [InitStep.driverOutput, .booster, .vcom, .dummyLine, .gateTime, .dataEntry, .ramOption, .finish].map f) :=
    rfl
  obtain ⟨q, hq⟩ := run_initPulse f s hf
  rw [split, runList_append, hq, Flow.bind_go]
  generalize hv : s.via q s.dcLvl (if s.params.hasRst then true else s.rstLvl) s.cs .uninitialized s.busyIn
    (s.slept + pulseMs s.params.toParamRecord) _ = v
  have cv : LinkChange s v [] := by
    rw [← hv]
    exact linkChange_via _ _ _ _ _ _ _ _ _ (by intro dc; split <;> rfl)
  have pv : v.params = s.params := by rw [← hv]; rfl
  have dv : v.dsbu = s.dsbu := by rw [← hv]; rfl
  have rv : v.rstLvl = if s.params.hasRst then true else s.rstLvl := by rw [← hv]; rfl
  have uv : v.panelState = .uninitialized := by rw [← hv]; rfl
  obtain ⟨a, ca, ua, ra, pa, da, ga | ga⟩ := gate_uninitialized v (f .gateHwReset) .initHwReset uv
  · rw [runList_init_go f s hf .gateHwReset _ v pv dv rfl, runInit, ga, Flow.bind_go,
      runList_init_go f s hf .swReset _ a (pa.trans pv) (da.trans dv) rfl, runInit_swReset, Flow.bind_go]
    generalize hw : a.via (f .swReset) false a.rstLvl false a.panelState a.busyIn a.slept
      (evCmd a.params.opc.swReset) = w
    have cw : LinkChange a w [s.params.opc.swReset] := by
      rw [← hw, pa.trans pv]
      exact linkChange_via _ _ _ _ _ _ _ _ _ (sends_evCmd _)
    have pw : w.params = s.params := by rw [← hw]; exact pa.trans pv
    have dw : w.dsbu = s.dsbu := by rw [← hw]; exact da.trans dv
    have rw_ : w.rstLvl = a.rstLvl := by rw [← hw]; rfl
    have uw : w.panelState = .uninitialized := by rw [← hw]; exact ua
    obtain ⟨b, cb, ub, rb, pb, db, gb | gb⟩ := gate_uninitialized w (f .gateSwReset) .initSwReset uw
    · rw [runList_init_go f s hf .gateSwReset _ w pw dw rfl, runInit, gb, Flow.bind_go,
        run_initWrites f s b hf (pb.trans pw) (db.trans dw)]
      refine ⟨_, initOpcodes s.params.toParamRecord, ?_, ?_, .inr ⟨rfl, rfl, rfl, rfl, rfl⟩⟩
      · have cz := linkChange_via b (f .finish) true b.rstLvl false .idle b.slept _ _
          (sends_append (sends_append (sends_append (sends_append (sends_append (sends_append (sends_append
            (sends_append (sends_append (sends_append (sends_append (sends_append (sends_append
            (sends_evCmd s.params.opc.driverOutput) (sends_evDat (s.params.heightBytes ++ [s.params.cal.docMode])))
            (sends_evCmd s.params.opc.booster)) (sends_evDat s.params.cal.booster.toList))
            (sends_evCmd s.params.opc.vcom)) (sends_evDat [s.params.cal.vcomInit]))
            (sends_evCmd s.params.opc.dummyLine)) (sends_evDat [s.params.cal.dummyLine]))
            (sends_evCmd s.params.opc.gateTime)) (sends_evDat [s.params.cal.gateTime]))
            (sends_evCmd s.params.opc.dataEntry)) (sends_evDat [s.params.cal.dataEntry]))
            (sends_evCmd s.params.opc.ramOption)) (sends_evDat s.params.cal.ramOption.toList))
        exact (((cv.trans ca).trans cw).trans cb).trans cz
      · exact rb.trans (rw_.trans (ra.trans rv))
    · rw [runList_init_go f s hf .gateSwReset _ w pw dw rfl, runInit, gb, Flow.bind_ended]
      exact ⟨b, [s.params.opc.swReset], ((cv.trans ca).trans cw).trans cb, rb.trans (rw_.trans (ra.trans rv)),
        .inl ⟨_, rfl, ub, .inr rfl⟩⟩
  · rw [runList_init_go f s hf .gateHwReset _ v pv dv rfl, runInit, ga, Flow.bind_ended]
    exact ⟨a, [], cv.trans ca, ra.trans rv, .inl ⟨_, rfl, ua, .inl rfl⟩⟩

/-- DISPLAY after SETUP by its parts: the wake, the first gate, the mode, steps 4 to 9, the rest (R226). -/
theorem execDisplay_parts (s : State) (h : s.setupDone = true) :
    execDisplay s = ((runList wakeProgram (s.start .display)).bind
      (runList (.display .gateStart :: .display .mode :: (beforeRam ++ fromRam)))).outcome := by
  rw [execDisplay_eq, if_pos h, displayProgram_eq, runList_append, wakeProgram]

/-- From step 3 on (R226): steps 4 to 9, then the second gate, which ends the operation or lets steps 11 to 14 end it
OK. -/
theorem run_fromMode (u : State) :
    ∃ t, GateChange ((u.shown (.display .ramYCounter) true false (nextUpdate u.params.n u.atUpdate) u.warning
        (if u.atUpdate = 0 then u.panelState else if u.panelState = .uninitialized ∨ u.panelState = .sleeping
          then u.panelState else .busy) u.busyIn (traceBeforeRam u.params.toParamRecord u.atUpdate)).pointAt
            (.display .gateRam)) t ∧
      (runList (.display .mode :: (beforeRam ++ fromRam)) u = .ended (t.raiseIdleTimeout .refreshRam)
        ∨ runList (.display .mode :: (beforeRam ++ fromRam)) u = .ended (({ t with
            seq := .display .ret
            dcLvl := t.dsbu && decide (t.params.cal.sleepData ≠ [])
            cs := false
            warning := false
            panelState :=
              if t.dsbu then .sleeping
              else if t.panelState = .uninitialized ∨ t.panelState = .sleeping then t.panelState else .busy
            tr := t.tr ++ traceStream t.params.toParamRecord t.fb u.atUpdate
              ++ (if t.dsbu then traceSleep t.params.toParamRecord else []) } : State).finish .ok 0)) := by
  have e : runList (.display .mode :: (beforeRam ++ fromRam)) u
      = runList (beforeRam ++ fromRam)
          (u.shown (.display .mode) u.dcLvl u.cs u.atUpdate u.warning u.panelState u.busyIn []) := by
    rw [runList_enabled _ _ _ rfl]
    simp [runStatement, runWith, runDisplay, State.sampleMode, State.shown]
  rw [e, run_beforeRam, List.nil_append]
  generalize hw : u.shown (.display .ramYCounter) true false (nextUpdate u.params.n u.atUpdate) u.warning _ u.busyIn _ = w
  obtain ⟨t, ht, hg⟩ := gate_cases (w.pointAt (.display .gateRam)) .refreshRam
  have r : runList fromRam w = ((w.pointAt (.display .gateRam)).gate .refreshRam).bind (runList streamToRet) := by
    rw [fromRam, runList_pointAt]
    rfl
  refine ⟨t, ht, ?_⟩
  rw [r]
  rcases hg with hg | hg <;> rw [hg]
  · right
    have hf : t.gatePassed.full = decide (u.atUpdate = 0) := by
      rw [State.gatePassed, ht.full, ← hw]
      rfl
    rw [Flow.bind_go, run_stream _ u.atUpdate hf]
    cases hp : t.panelState <;> simp [State.gatePassed, hp]
  · left
    rw [Flow.bind_ended]

end Sys2Proof.Machine
end

