-- ==== Sys2Proof/Laws/Memory.lean ====
section
/-! SUPPORT. What the framebuffer operations do (R60–R62): a read after a write or a block write, and that every
memory operation keeps the canonical form and stays in range. -/

namespace Sys2Proof.Machine

/-- An index listed nowhere reads as the unlisted byte. -/
theorem Memory.read_of_not_mem (m : Memory) (a : Nat) (h : ∀ c ∈ m, c.1 ≠ a) : m.read a = Memory.unlisted := by
  induction m with
  | nil => rfl
  | cons c m ih =>
    obtain ⟨k, b⟩ := c
    have hk : k ≠ a := h (k, b) (by simp)
    simp only [Memory.read, if_neg hk]
    exact ih (fun c hc => h c (by simp [hc]))

/-- A read through an append: the first list decides if it lists the index. -/
theorem Memory.read_append (m n : Memory) (a : Nat) :
    Memory.read (m ++ n) a = if ∃ c ∈ m, c.1 = a then m.read a else Memory.read n a := by
  induction m with
  | nil => simp
  | cons c m ih =>
    obtain ⟨k, b⟩ := c
    by_cases hk : k = a
    · simp [Memory.read, hk]
    · simp [Memory.read, hk, ih]

/-- A read through a filter on indices. -/
theorem Memory.read_filter (m : Memory) (p : Nat → Bool) (a : Nat) :
    Memory.read (m.filter (fun c => p c.1)) a = if p a then m.read a else Memory.unlisted := by
  induction m with
  | nil => simp [Memory.read]
  | cons c m ih =>
    obtain ⟨k, b⟩ := c
    by_cases hk : k = a
    · subst hk
      by_cases hp : p k
      · simp [List.filter, hp, Memory.read]
      · simp [List.filter, hp, ih]
    · by_cases hp : p k
      · simp [List.filter, hp, Memory.read, hk, ih]
      · simp [List.filter, hp, Memory.read, hk, ih]

/-- `FB[i] <- v` read back (R61): the byte written at `i`, every other byte as before. -/
theorem Memory.read_write (m : Memory) (hm : m.wf) (i : Nat) (v : Byte) (j : Nat) :
    (m.write i v).read j = if j = i then v else m.read j := by
  have hs := hm.1
  clear hm
  induction m with
  | nil =>
    by_cases hv : v = Memory.unlisted
    · simp [Memory.write, hv, Memory.read]
    · by_cases hj : i = j <;> simp [Memory.write, hv, Memory.read, hj, eq_comm]
  | cons c m ih =>
    obtain ⟨k, b⟩ := c
    rw [List.pairwise_cons] at hs
    have later : ∀ a, a ≤ k → Memory.read m a = Memory.unlisted := fun a ha =>
      Memory.read_of_not_mem m a (fun c hc => by have := hs.1 c hc; simp only at this; omega)
    simp only [Memory.write]
    split
    · next hik =>
      split
      · next hv =>
        by_cases hj : j = i
        · subst hj
          have hkj : k ≠ j := by omega
          simp [Memory.read, hkj, later j (by omega), hv]
        · simp [hj]
      · by_cases hj : i = j <;> simp [Memory.read, hj, eq_comm]
    · split
      · next hik hk =>
        subst hk
        split
        · next hv =>
          by_cases hj : j = i
          · subst hj; simp [later j (Nat.le_refl _), hv]
          · simp [Memory.read, hj, Ne.symm hj]
        · by_cases hj : i = j
          · simp [Memory.read, hj]
          · simp [Memory.read, hj, Ne.symm hj]
      · next hik hk =>
        by_cases hj : k = j
        · subst hj
          simp [Memory.read, Ne.symm hk]
        · simp [Memory.read, hj, ih hs.2]

/-- A write lists no index but `i` and those listed before. -/
theorem Memory.mem_write (m : Memory) (i : Nat) (v : Byte) (c : Host.Cell) (hc : c ∈ m.write i v) :
    c.1 = i ∨ c ∈ m := by
  induction m with
  | nil =>
    simp only [Memory.write] at hc
    split at hc <;> simp_all
  | cons d m ih =>
    obtain ⟨k, b⟩ := d
    simp only [Memory.write] at hc
    split at hc
    · split at hc <;> simp_all
      rcases hc with rfl | rfl | hc <;> simp_all
    · split at hc
      · split at hc
        · exact .inr (by simp [hc])
        · simp only [List.mem_cons] at hc
          rcases hc with rfl | hc
          · exact .inl rfl
          · exact .inr (by simp [hc])
      · simp only [List.mem_cons] at hc
        rcases hc with rfl | hc
        · exact .inr (by simp)
        · rcases ih hc with h | h
          · exact .inl h
          · exact .inr (by simp [h])

/-- `FB[i] <- v` keeps the canonical form. -/
theorem Memory.write_wf (m : Memory) (hm : m.wf) (i : Nat) (v : Byte) : (m.write i v).wf := by
  obtain ⟨hs, hz⟩ := hm
  induction m with
  | nil =>
    simp only [Memory.write]
    split
    · exact ⟨by simp, by simp⟩
    · next hv => exact ⟨by simp, by simpa using hv⟩
  | cons c m ih =>
    obtain ⟨k, b⟩ := c
    have hs' := List.pairwise_cons.mp hs
    have hz' : ∀ c ∈ m, c.2 ≠ Memory.unlisted := fun c hc => hz c (by simp [hc])
    simp only [Memory.write]
    split
    · next hik =>
      split
      · exact ⟨hs, hz⟩
      · next hv =>
        refine ⟨List.pairwise_cons.mpr ⟨?_, hs⟩, ?_⟩
        · intro d hd
          rcases List.mem_cons.mp hd with rfl | hd
          · exact hik
          · exact Nat.lt_trans hik (hs'.1 d hd)
        · intro d hd
          rcases List.mem_cons.mp hd with rfl | hd
          · exact hv
          · exact hz d hd
    · split
      · next hk =>
        subst hk
        split
        · exact ⟨hs'.2, hz'⟩
        · next hv =>
          refine ⟨List.pairwise_cons.mpr ⟨fun d hd => hs'.1 d hd, hs'.2⟩, ?_⟩
          intro d hd
          rcases List.mem_cons.mp hd with rfl | hd
          · exact hv
          · exact hz' d hd
      · next hik hk =>
        have ih' := ih hs'.2 hz'
        refine ⟨List.pairwise_cons.mpr ⟨?_, ih'.1⟩, ?_⟩
        · intro d hd
          rcases Memory.mem_write m i v d hd with h | h
          · simp only [h]; omega
          · exact hs'.1 d h
        · intro d hd
          rcases List.mem_cons.mp hd with rfl | hd
          · exact hz (k, b) (by simp)
          · exact ih'.2 d hd

/-- The cells of a block lie in the block and hold listed bytes. -/
theorem Memory.mem_cells (a : Nat) (bs : List Byte) (c : Host.Cell) (hc : c ∈ Memory.cells a bs) :
    a ≤ c.1 ∧ c.1 < a + bs.length ∧ c.2 ≠ Memory.unlisted := by
  induction bs generalizing a with
  | nil => simp [Memory.cells] at hc
  | cons b bs ih =>
    simp only [Memory.cells] at hc
    split at hc
    · have := ih (a + 1) hc
      simp only [List.length_cons]; exact ⟨by omega, by omega, this.2.2⟩
    · next hb =>
      rcases List.mem_cons.mp hc with rfl | hc
      · simp only [List.length_cons]; exact ⟨Nat.le_refl _, by omega, hb⟩
      · have := ih (a + 1) hc
        simp only [List.length_cons]; exact ⟨by omega, by omega, this.2.2⟩

/-- The cells of a block are in rising order. -/
theorem Memory.cells_pairwise (a : Nat) (bs : List Byte) :
    (Memory.cells a bs).Pairwise (fun c d => c.1 < d.1) := by
  induction bs generalizing a with
  | nil => simp [Memory.cells]
  | cons b bs ih =>
    simp only [Memory.cells]
    split
    · exact ih (a + 1)
    · refine List.pairwise_cons.mpr ⟨fun d hd => ?_, ih (a + 1)⟩
      have := (Memory.mem_cells (a + 1) bs d hd).1
      simp only; omega

/-- A read of the cells of a block. -/
theorem Memory.read_cells (a : Nat) (bs : List Byte) (j : Nat) :
    Memory.read (Memory.cells a bs) j = if a ≤ j then bs.getD (j - a) Memory.unlisted else Memory.unlisted := by
  induction bs generalizing a with
  | nil => simp [Memory.cells, Memory.read]
  | cons b bs ih =>
    have tail : Memory.read (Memory.cells (a + 1) bs) a = Memory.unlisted :=
      Memory.read_of_not_mem _ _ (fun c hc => by have := (Memory.mem_cells (a + 1) bs c hc).1; omega)
    simp only [Memory.cells]
    by_cases hj : a = j
    · subst hj
      split
      · next hb => simp [tail, hb]
      · simp [Memory.read]
    · have hstep : (if a + 1 ≤ j then bs.getD (j - (a + 1)) Memory.unlisted else Memory.unlisted)
          = if a ≤ j then (b :: bs).getD (j - a) Memory.unlisted else Memory.unlisted := by
        by_cases hlt : a < j
        · have h1 : j - a = (j - (a + 1)) + 1 := by omega
          rw [if_pos (by omega), if_pos (by omega), h1]; simp
        · rw [if_neg (by omega), if_neg (by omega)]
      split
      · rw [ih, hstep]
      · rw [Memory.read, if_neg hj, ih, hstep]

/-- `MemWrite(i, n, v)` read back (R62): the bytes of `v` in the block, every other byte as before. -/
theorem Memory.read_writeBytes (m : Memory) (i : Nat) (v : List Byte) (j : Nat) :
    (m.writeBytes i v).read j =
      if i ≤ j ∧ j < i + v.length then v.getD (j - i) Memory.unlisted else m.read j := by
  have low := Memory.read_filter m (fun k => decide (k < i)) j
  have high := Memory.read_filter m (fun k => decide (i + v.length ≤ k)) j
  simp only [decide_eq_true_eq] at low high
  rw [Memory.writeBytes, Memory.read_append, Memory.read_append, low, high, Memory.read_cells]
  by_cases h1 : j < i
  · have hn : ¬ ∃ c ∈ Memory.cells i v, c.1 = j := by
      rintro ⟨c, hc, rfl⟩; have := (Memory.mem_cells i v c hc).1; omega
    have hr : ¬ (i ≤ j ∧ j < i + v.length) := by omega
    rw [if_neg hr, if_pos h1, if_neg (by omega : ¬ i ≤ j), if_neg (by omega : ¬ i + v.length ≤ j)]
    by_cases h : ∃ c ∈ m.filter (fun c => decide (c.1 < i)), c.1 = j
    · obtain ⟨c, hc, hcj⟩ := h
      rw [if_pos ⟨c, List.mem_append.mpr (.inl hc), hcj⟩, if_pos ⟨c, hc, hcj⟩]
    · rw [if_neg]
      · symm
        apply Memory.read_of_not_mem
        intro c hc hcj
        exact h ⟨c, by simp [hc, hcj, h1], hcj⟩
      · rintro ⟨c, hc, hcj⟩
        rcases List.mem_append.mp hc with hc | hc
        · exact h ⟨c, hc, hcj⟩
        · exact hn ⟨c, hc, hcj⟩
  · by_cases h2 : j < i + v.length
    · have hn : ¬ ∃ c ∈ m.filter (fun c => decide (c.1 < i)), c.1 = j := by
        rintro ⟨c, hc, rfl⟩; simp only [List.mem_filter, decide_eq_true_eq] at hc; omega
      rw [if_neg hn, if_pos (by omega : i ≤ j), if_pos (by omega : i ≤ j ∧ j < i + v.length)]
      split
      · rfl
      · next h =>
        rw [if_neg (by omega)]
        symm
        by_contra hne
        apply h
        by_contra hno
        apply hne
        have hc := Memory.read_cells i v j
        rw [if_pos (by omega)] at hc
        rw [← hc]
        exact Memory.read_of_not_mem _ _ (fun c hc hcj => hno ⟨c, by simp [hc], hcj⟩)
    · have hn : ¬ ∃ c ∈ m.filter (fun c => decide (c.1 < i)) ++ Memory.cells i v, c.1 = j := by
        rintro ⟨c, hc, rfl⟩
        rcases List.mem_append.mp hc with hc | hc
        · simp only [List.mem_filter, decide_eq_true_eq] at hc; omega
        · have := (Memory.mem_cells i v c hc).2.1; omega
      rw [if_neg hn, if_pos (by omega), if_neg (by omega)]

/-- `MemWrite` keeps the canonical form. -/
theorem Memory.writeBytes_wf (m : Memory) (hm : m.wf) (i : Nat) (v : List Byte) : (m.writeBytes i v).wf := by
  obtain ⟨hs, hz⟩ := hm
  constructor
  · simp only [Memory.writeBytes]
    refine List.pairwise_append.mpr ⟨List.pairwise_append.mpr
      ⟨hs.filter _, Memory.cells_pairwise i v, ?_⟩, hs.filter _, ?_⟩
    · intro c hc d hd
      have hd := (Memory.mem_cells i v d hd).1
      simp only [List.mem_filter, decide_eq_true_eq] at hc; omega
    · intro c hc d hd
      simp only [List.mem_filter, decide_eq_true_eq] at hd
      rcases List.mem_append.mp hc with hc | hc
      · simp only [List.mem_filter, decide_eq_true_eq] at hc; omega
      · have := (Memory.mem_cells i v c hc).2.1; omega
  · intro c hc
    simp only [Memory.writeBytes, List.mem_append, List.mem_filter] at hc
    rcases hc with (hc | hc) | hc
    · exact hz c hc.1
    · exact (Memory.mem_cells i v c hc).2.2
    · exact hz c hc.1

/-- `MemWrite` lists no index but those of the block and those listed before. -/
theorem Memory.mem_writeBytes (m : Memory) (i : Nat) (v : List Byte) (c : Host.Cell)
    (hc : c ∈ m.writeBytes i v) : c.1 < i + v.length ∨ c ∈ m := by
  simp only [Memory.writeBytes, List.mem_append, List.mem_filter] at hc
  rcases hc with (hc | hc) | hc
  · exact .inr hc.1
  · exact .inl (Memory.mem_cells i v c hc).2.1
  · exact .inr hc.1

/-- Two canonical memories that read alike are the same list. -/
theorem Memory.eq_of_read_eq (m n : Memory) (hm : m.wf) (hn : n.wf) (h : ∀ a, m.read a = n.read a) : m = n := by
  induction m generalizing n with
  | nil =>
    cases n with
    | nil => rfl
    | cons c n =>
      have := h c.1
      simp [Memory.read] at this
      exact absurd this.symm (hn.2 c (by simp))
  | cons c m ih =>
    obtain ⟨k, b⟩ := c
    have hms := List.pairwise_cons.mp hm.1
    have hb : b ≠ Memory.unlisted := hm.2 (k, b) (by simp)
    cases n with
    | nil =>
      have := h k
      simp [Memory.read] at this
      exact absurd this hb
    | cons d n =>
      obtain ⟨l, e⟩ := d
      have hns := List.pairwise_cons.mp hn.1
      have he : e ≠ Memory.unlisted := hn.2 (l, e) (by simp)
      have lowM : ∀ a, a < k → Memory.read ((k, b) :: m) a = Memory.unlisted := fun a ha =>
        Memory.read_of_not_mem _ _ (fun c hc => by
          rcases List.mem_cons.mp hc with rfl | hc
          · simp only; omega
          · have := hms.1 c hc; simp only at this; omega)
      have lowN : ∀ a, a < l → Memory.read ((l, e) :: n) a = Memory.unlisted := fun a ha =>
        Memory.read_of_not_mem _ _ (fun c hc => by
          rcases List.mem_cons.mp hc with rfl | hc
          · simp only; omega
          · have := hns.1 c hc; simp only at this; omega)
      have hkl : k = l := by
        rcases Nat.lt_trichotomy k l with hlt | heq | hgt
        · have h1 := h k
          rw [lowN k hlt] at h1
          simp [Memory.read] at h1
          exact absurd h1 hb
        · exact heq
        · have h1 := h l
          rw [lowM l hgt] at h1
          simp [Memory.read] at h1
          exact absurd h1.symm he
      subst hkl
      have hbe : b = e := by simpa [Memory.read] using h k
      subst hbe
      have hrest : m = n := by
        refine ih n ⟨hms.2, fun c hc => hm.2 c (by simp [hc])⟩ ⟨hns.2, fun c hc => hn.2 c (by simp [hc])⟩ ?_
        intro a
        by_cases hka : k = a
        · subst hka
          rw [Memory.read_of_not_mem m k (fun c hc => by have := hms.1 c hc; simp only at this; omega),
            Memory.read_of_not_mem n k (fun c hc => by have := hns.1 c hc; simp only at this; omega)]
        · simpa [Memory.read, hka] using h a
      rw [hrest]

/-- `MemRead` is the list of its bytes (R62). -/
theorem Memory.length_readBytes (m : Memory) (i n : Nat) : (m.readBytes i n).length = n := by
  simp [Memory.readBytes]

end Sys2Proof.Machine
end

