-- ==== Sys2Proof/Laws/Framebuffer.lean ====
section
/-! SUPPORT. What FILL's and SET_PIXEL's writes do to the framebuffer (R122, R123), one plane at a time and both: the byte
every index reads after them, the canonical form, and the range of the cells; and how the pixel masks act on one byte
(R63). -/

namespace Sys2Proof.Machine

/-! ## Masks -/

/-- A mask picks the bit `7 - x mod 8` of a byte (R63). -/
theorem testBits_mask (b : Byte) (x : Nat) : testBits b (pixelMask x) = b.getLsbD (7 - x % 8) := by
  have h : ∀ k : Fin 8, ∀ b : Byte, testBits b ((0x80 : Byte) >>> k.val) = b.getLsbD (7 - k.val) := by decide
  exact h ⟨x % 8, Nat.mod_lt _ (by decide)⟩ b

/-- A plane bit drawn reads back (R123, R124). -/
theorem testBits_plotBits (b : Byte) (x : Nat) (p : Bool) : testBits (plotBits b (pixelMask x) p) (pixelMask x) = p := by
  have h : ∀ k : Fin 8, ∀ b : Byte, ∀ p : Bool,
      testBits (plotBits b ((0x80 : Byte) >>> k.val) p) ((0x80 : Byte) >>> k.val) = p := by decide
  exact h ⟨x % 8, Nat.mod_lt _ (by decide)⟩ b p

/-- Two columns of one byte have disjoint masks (R63). -/
theorem pixelMask_disjoint (x x' : Nat) (h : x % 8 ≠ x' % 8) : pixelMask x &&& pixelMask x' = 0 := by
  have key : ∀ k l : Fin 8, k ≠ l → ((0x80 : Byte) >>> k.val) &&& ((0x80 : Byte) >>> l.val) = 0 := by decide
  exact key ⟨x % 8, Nat.mod_lt _ (by decide)⟩ ⟨x' % 8, Nat.mod_lt _ (by decide)⟩ (by simpa [Fin.ext_iff] using h)

/-- Drawing under one mask leaves the bit under a disjoint mask (R123). -/
theorem testBits_plotBits_of_disjoint (b m n : Byte) (p : Bool) (h : m &&& n = 0) :
    testBits (plotBits b m p) n = testBits b n := by
  have e : plotBits b m p &&& n = b &&& n := by
    ext i hi
    have hi' := congrArg (fun v => v.getLsbD i) h
    simp only [BitVec.getLsbD_and] at hi'
    cases p
    · simp [plotBits]
      cases hm : m.getLsbD i <;> simp_all [BitVec.getLsbD_eq_getElem]
    · simp [plotBits]
      cases hm : m.getLsbD i <;> simp_all [BitVec.getLsbD_eq_getElem]
  simp [testBits, e]

/-! ## One plane -/

/-- Every byte after one plane of FILL (R122). -/
theorem State.read_fillPlane (s : State) (k : Nat) (p : Bool) (i : Nat) :
    (s.fillPlane k p).fb.read i = if k ≤ i ∧ i < k + s.params.half then fillByte p else s.fb.read i := by
  simp only [State.fillPlane_fb, Memory.read_writeBytes, List.length_replicate]
  split
  · rename_i h
    have : i - k < s.params.half := by omega
    simp [this]
  · rfl

theorem State.fillPlane_wf (s : State) (k : Nat) (p : Bool) (h : s.fb.wf) : (s.fillPlane k p).fb.wf :=
  Memory.writeBytes_wf _ h _ _

/-- A plane of FILL lists no cell outside it that was not listed before. -/
theorem State.mem_fillPlane (s : State) (k : Nat) (p : Bool) (d : Host.Cell) (hd : d ∈ (s.fillPlane k p).fb) :
    d.1 < k + s.params.half ∨ d ∈ s.fb := by
  rcases Memory.mem_writeBytes _ _ _ d hd with h | h
  · rw [List.length_replicate] at h; exact .inl (by omega)
  · exact .inr h

/-- Every byte after one write of SET_PIXEL (R123). -/
theorem State.read_plotPlane (s : State) (k x : Nat) (p : Bool) (hw : s.fb.wf) (i : Nat) :
    (s.plotPlane k x p).fb.read i = if i = k then plotBits (s.fb.read i) (pixelMask x) p else s.fb.read i := by
  rw [State.plotPlane_fb, Memory.read_write _ hw]
  by_cases h : i = k
  · subst h; rfl
  · rw [if_neg h, if_neg h]

theorem State.plotPlane_wf (s : State) (k x : Nat) (p : Bool) (h : s.fb.wf) : (s.plotPlane k x p).fb.wf :=
  Memory.write_wf _ h _ _

/-- A write of SET_PIXEL lists no cell but its own that was not listed before. -/
theorem State.mem_plotPlane (s : State) (k x : Nat) (p : Bool) (d : Host.Cell) (hd : d ∈ (s.plotPlane k x p).fb) :
    d.1 = k ∨ d ∈ s.fb := Memory.mem_write _ _ _ d hd

/-! ## Both planes -/

/-- R122: both planes set to the bytes of a class. -/
def State.fillPlanes (s : State) (c : Colour) : State :=
  (s.fillPlane 0 (planes (classify c)).1).fillPlane s.params.half (planes (classify c)).2

@[simp] theorem State.fillPlanes_params (s : State) (c : Colour) : (s.fillPlanes c).params = s.params := rfl

/-- FILL writes the framebuffer alone (R122). -/
theorem State.fillPlanes_change (s : State) (c : Colour) : s.fillPlanes c = { s with fb := (s.fillPlanes c).fb } := rfl

/-- Every byte after FILL (R122): the class's plane bytes below `L`, as before from `L` on. -/
theorem State.read_fillPlanes (s : State) (c : Colour) (i : Nat) :
    (s.fillPlanes c).fb.read i =
      if i < s.params.half then fillByte (planes (classify c)).1
      else if i < s.params.bufLen then fillByte (planes (classify c)).2 else s.fb.read i := by
  have hl := s.params.bufLen_eq
  simp only [State.fillPlanes, State.read_fillPlane, State.fillPlane_params]
  by_cases h1 : i < s.params.half
  · rw [if_neg (by omega), if_pos (by omega), if_pos h1]
  · by_cases h2 : i < s.params.bufLen
    · rw [if_pos (by omega), if_neg h1, if_pos h2]
    · rw [if_neg (by omega), if_neg (by omega), if_neg h1, if_neg h2]

/-- R123: the two byte writes of an in-range pixel. -/
def State.plotPixel (s : State) (x y : Nat) (c : Colour) : State :=
  (s.plotPlane (s.params.pixelOff x y) x (planes (classify c)).1).plotPlane (s.params.half + s.params.pixelOff x y) x
    (planes (classify c)).2

@[simp] theorem State.plotPixel_params (s : State) (x y : Nat) (c : Colour) : (s.plotPixel x y c).params = s.params :=
  rfl

/-- SET_PIXEL writes the framebuffer alone (R123). -/
theorem State.plotPixel_change (s : State) (x y : Nat) (c : Colour) :
    s.plotPixel x y c = { s with fb := (s.plotPixel x y c).fb } := rfl

/-- Every byte after SET_PIXEL's two writes (R123). -/
theorem State.read_plotPixel (s : State) (x y : Nat) (c : Colour) (hw : s.fb.wf) (hx : x < s.params.cw.toNat)
    (hy : y < s.params.h.toNat) (i : Nat) :
    (s.plotPixel x y c).fb.read i =
      if i = s.params.pixelOff x y then plotBits (s.fb.read i) (pixelMask x) (planes (classify c)).1
      else if i = s.params.half + s.params.pixelOff x y then
        plotBits (s.fb.read i) (pixelMask x) (planes (classify c)).2
      else s.fb.read i := by
  have ho := s.params.pixelOff_lt x y hx hy
  simp only [State.plotPixel]
  rw [State.read_plotPlane _ _ _ _ (State.plotPlane_wf _ _ _ _ hw), State.read_plotPlane _ _ _ _ hw]
  by_cases h1 : i = s.params.pixelOff x y
  · subst h1
    rw [if_neg (by omega), if_pos rfl, if_pos rfl]
  · rw [if_neg h1, if_neg h1]

/-- Two pixels of the controller's area in one byte are in one row (R63). -/
theorem pixelOff_inj_row (p : Params) (x y x' y' : Nat) (hx : x < p.cw.toNat) (hx' : x' < p.cw.toNat)
    (h : p.pixelOff x y = p.pixelOff x' y') : y = y' ∧ x / 8 = x' / 8 := by
  obtain ⟨h8, h9, -⟩ := p.geometry
  have hr : x / 8 < p.rowb := by simp only [ParamRecord.rowb]; omega
  have hr' : x' / 8 < p.rowb := by simp only [ParamRecord.rowb]; omega
  rw [p.pixelOff_eq, p.pixelOff_eq] at h
  have hy : y = y' := by
    have hd := congrArg (fun v => v / p.rowb) h
    have hpos : 0 < p.rowb := by omega
    simp only [Nat.mul_comm _ p.rowb, Nat.mul_add_div hpos, Nat.div_eq_of_lt hr, Nat.div_eq_of_lt hr'] at hd
    omega
  subst hy
  exact ⟨rfl, by omega⟩

end Sys2Proof.Machine
end

