-- ==== Sys2Proof/Laws/Driver.lean ====
section
/-! SUPPORT. What each of the five operations that drive no line leaves, run whole: FILL (R122), SET_PIXEL (R123, R252),
GET_PIXEL (R124), SET_DSBU (R227) and READ_REG (R228). -/

namespace Sys2Proof.Machine

/-- FILL after SETUP (R122). -/
theorem execFill_ready (s : State) (c : Colour) (h : s.setupDone = true) :
    execFill c s = .next ((s.fillPlanes c).finish .ok 0) := by
  simp [execFill, State.runOperation, operationProgram, fillProgram, runSteps, enabledWith, runWith, runEntry, runFill,
    State.start, State.fillPlanes, State.fillPlane, State.finish, h]

/-- FILL before SETUP (R255). -/
theorem execFill_early (s : State) (c : Colour) (h : s.setupDone = false) :
    execFill c s = .next (s.finish .seqError 0) := by
  simp [execFill, State.runOperation, operationProgram, runSteps, enabledWith, runWith, runEntry, State.start, h,
    State.finish]

/-- SET_PIXEL of an in-range pixel after SETUP (R123). -/
theorem execSetPixel_inRange (s : State) (x y : Int) (c : Colour) (h : s.setupDone = true)
    (hr : s.params.inRange x y = true) :
    execSetPixel x y c s = .next ((s.plotPixel x.toNat y.toNat c).finish .ok 0) := by
  have hp := s.params.pixel_inside x y hr
  have hp' : s.params.pixelOff x.toNat y.toNat < s.params.bufLen := by omega
  simp [execSetPixel, State.runOperation, operationProgram, setPixelProgram, runSteps, enabledWith, runWith, runEntry,
    runSetPixel, State.start, State.accessFb, State.pixelByte, State.plotPixel, State.plotPlane, State.finish, h, hr, hp,
    hp']

/-- SET_PIXEL of any other pixel after SETUP (R252). -/
theorem execSetPixel_outside (s : State) (x y : Int) (c : Colour) (h : s.setupDone = true)
    (hr : s.params.inRange x y = false) : execSetPixel x y c s = .next (s.finish .ok 0) := by
  simp [execSetPixel, State.runOperation, operationProgram, setPixelProgram, runSteps, enabledWith, runWith, runEntry,
    runSetPixel, State.start, h, hr, State.finish]

/-- SET_PIXEL before SETUP (R255). -/
theorem execSetPixel_early (s : State) (x y : Int) (c : Colour) (h : s.setupDone = false) :
    execSetPixel x y c s = .next (s.finish .seqError 0) := by
  simp [execSetPixel, State.runOperation, operationProgram, runSteps, enabledWith, runWith, runEntry, State.start, h,
    State.finish]

/-- GET_PIXEL of an in-range pixel after SETUP (R124). -/
theorem execGetPixel_inRange (s : State) (x y : Int) (h : s.setupDone = true) (hr : s.params.inRange x y = true) :
    execGetPixel x y s = .next (s.finish .ok ((planeCode (s.pixelPlanes x.toNat y.toNat)).zeroExtend 32)) := by
  have hp := s.params.pixel_inside x y hr
  have hp' : s.params.pixelOff x.toNat y.toNat < s.params.bufLen := by omega
  simp [execGetPixel, State.runOperation, operationProgram, getPixelProgram, runSteps, enabledWith, runWith, runEntry,
    runGetPixel, State.start, State.accessFb, State.pixelByte, h, hr, hp, hp', State.finish, State.pixelPlanes]

/-- GET_PIXEL of any other pixel after SETUP (R124). -/
theorem execGetPixel_outside (s : State) (x y : Int) (h : s.setupDone = true) (hr : s.params.inRange x y = false) :
    execGetPixel x y s = .next (s.finish .outOfRange 0) := by
  simp [execGetPixel, State.runOperation, operationProgram, getPixelProgram, runSteps, enabledWith, runWith, runEntry,
    runGetPixel, State.start, h, hr, State.finish]

/-- GET_PIXEL before SETUP (R255). -/
theorem execGetPixel_early (s : State) (x y : Int) (h : s.setupDone = false) :
    execGetPixel x y s = .next (s.finish .seqError 0) := by
  simp [execGetPixel, State.runOperation, operationProgram, runSteps, enabledWith, runWith, runEntry, State.start, h,
    State.finish]

/-- SET_DSBU (R227). -/
theorem execSetDsbu_eq (s : State) (b : Bool) : execSetDsbu b s = .next ((s.writeDsbu b).finish .ok 0) := by
  simp [execSetDsbu, State.runOperation, operationProgram, setDsbuProgram, runSteps, enabledWith, runWith, runEntry,
    runSetDsbu, State.start, State.finish, State.writeDsbu]

/-- READ_REG of a register that exists (R228). -/
theorem execReadReg_some (s : State) (n v : U32) (h : s.reg n = some v) :
    execReadReg n s = .next (s.finish .ok v) := by
  have hs : ∀ (q : Seq) (d : Bool), ({ s with seq := q, done := d } : State).reg n = some v := fun _ _ => h
  have ht : ∀ (q : Seq) (d : Bool), ({ s with seq := q, done := d, resValue := v } : State).reg n = some v :=
    fun _ _ => h
  simp [execReadReg, State.runOperation, operationProgram, readRegProgram, runSteps, enabledWith, runWith, runEntry,
    runReadReg, State.start, State.finish, State.readRegister, hs, ht]

/-- READ_REG of a register that does not exist (R228). -/
theorem execReadReg_none (s : State) (n : U32) (h : s.reg n = none) :
    execReadReg n s = .next (s.finish .outOfRange 0) := by
  have hs : ∀ (q : Seq) (d : Bool), ({ s with seq := q, done := d } : State).reg n = none := fun _ _ => h
  have ht : ∀ (q : Seq) (d : Bool) (v : U32), ({ s with seq := q, done := d, resValue := v } : State).reg n = none :=
    fun _ _ _ => h
  simp [execReadReg, State.runOperation, operationProgram, readRegProgram, runSteps, enabledWith, runWith, runEntry,
    runReadReg, State.start, State.finish, State.readRegister, hs, ht]

end Sys2Proof.Machine
end

