-- ==== Sys2Proof/Laws/PerInstr.lean ====
section
/-! SUPPORT. One statement about every instruction as syntax: it stands on exactly one of the two encoded interfaces.
A host operation has a selector, an assembly line and no opcode (R81, R106); a panel command has an opcode, and neither
a selector nor an assembly line: the host cannot issue it (R101, R105). -/

namespace Sys2Proof.Laws.OneInterface

/-- The instruction is on the panel link exactly if it has an opcode, no selector and no assembly line. -/
def Statement (i : Instr) : Prop :=
  ∀ o : Opcodes,
    ((opcodeOf o i).isSome = true ↔ i ∈ panelCommands)
    ∧ (selectorOf i = 0x00 ↔ i ∈ panelCommands)
    ∧ ((assemblyText i).isSome = true ↔ i ∉ panelCommands)

theorem setup : Statement (.setup) := by
  intro o
  simp [opcodeOf, selectorOf, assemblyText, panelCommands]

theorem fill (c : Colour) : Statement (.fill c) := by
  intro o
  simp [opcodeOf, selectorOf, assemblyText, panelCommands]

theorem setPixel (x y : Int) (c : Colour) : Statement (.setPixel x y c) := by
  intro o
  simp [opcodeOf, selectorOf, assemblyText, panelCommands]

theorem getPixel (x y : Int) : Statement (.getPixel x y) := by
  intro o
  simp [opcodeOf, selectorOf, assemblyText, panelCommands]

theorem display : Statement (.display) := by
  intro o
  simp [opcodeOf, selectorOf, assemblyText, panelCommands]

theorem setDsbu (b : Bool) : Statement (.setDsbu b) := by
  intro o
  simp [opcodeOf, selectorOf, assemblyText, panelCommands]

theorem readReg (n : U32) : Statement (.readReg n) := by
  intro o
  simp [opcodeOf, selectorOf, assemblyText, panelCommands]

theorem swReset : Statement (.swReset) := by
  intro o
  simp [opcodeOf, selectorOf, assemblyText, panelCommands]

theorem driverOutput : Statement (.driverOutput) := by
  intro o
  simp [opcodeOf, selectorOf, assemblyText, panelCommands]

theorem booster : Statement (.booster) := by
  intro o
  simp [opcodeOf, selectorOf, assemblyText, panelCommands]

theorem vcom : Statement (.vcom) := by
  intro o
  simp [opcodeOf, selectorOf, assemblyText, panelCommands]

theorem dummyLine : Statement (.dummyLine) := by
  intro o
  simp [opcodeOf, selectorOf, assemblyText, panelCommands]

theorem gateTime : Statement (.gateTime) := by
  intro o
  simp [opcodeOf, selectorOf, assemblyText, panelCommands]

theorem dataEntry : Statement (.dataEntry) := by
  intro o
  simp [opcodeOf, selectorOf, assemblyText, panelCommands]

theorem ramOption : Statement (.ramOption) := by
  intro o
  simp [opcodeOf, selectorOf, assemblyText, panelCommands]

theorem lut : Statement (.lut) := by
  intro o
  simp [opcodeOf, selectorOf, assemblyText, panelCommands]

theorem pingpong : Statement (.pingpong) := by
  intro o
  simp [opcodeOf, selectorOf, assemblyText, panelCommands]

theorem duc2 : Statement (.duc2) := by
  intro o
  simp [opcodeOf, selectorOf, assemblyText, panelCommands]

theorem masterAct : Statement (.masterAct) := by
  intro o
  simp [opcodeOf, selectorOf, assemblyText, panelCommands]

theorem border : Statement (.border) := by
  intro o
  simp [opcodeOf, selectorOf, assemblyText, panelCommands]

theorem ramXWindow : Statement (.ramXWindow) := by
  intro o
  simp [opcodeOf, selectorOf, assemblyText, panelCommands]

theorem ramYWindow : Statement (.ramYWindow) := by
  intro o
  simp [opcodeOf, selectorOf, assemblyText, panelCommands]

theorem ramXCounter : Statement (.ramXCounter) := by
  intro o
  simp [opcodeOf, selectorOf, assemblyText, panelCommands]

theorem ramYCounter : Statement (.ramYCounter) := by
  intro o
  simp [opcodeOf, selectorOf, assemblyText, panelCommands]

theorem writeBw : Statement (.writeBw) := by
  intro o
  simp [opcodeOf, selectorOf, assemblyText, panelCommands]

theorem writeRed : Statement (.writeRed) := by
  intro o
  simp [opcodeOf, selectorOf, assemblyText, panelCommands]

theorem terminate : Statement (.terminate) := by
  intro o
  simp [opcodeOf, selectorOf, assemblyText, panelCommands]

theorem deepSleep : Statement (.deepSleep) := by
  intro o
  simp [opcodeOf, selectorOf, assemblyText, panelCommands]

end Sys2Proof.Laws.OneInterface
end

