-- ==== Sys2Proof/Laws/Statements.lean ====
section
/-! SUPPORT. Everything a statement at any position can do, said once (`runWith_effect`), and how a property of the states
of an operation goes through a whole sequence, a step and the pointer. -/

namespace Sys2Proof.Machine

/-- What one panel command appends to the trace (R89): an opcode, alone, with a data transaction, or with its data in
one transaction. -/
inductive LinkCommand (b : Byte) : List Event → Prop
  | cmd : LinkCommand b (evCmd b)
  | cmdDat (bs : List Byte) : LinkCommand b (evCmd b ++ evDat bs)
  | oneTransaction (bs : List Byte) : LinkCommand b (evCmdDat b bs)

/-- The events of configuring lines, driving RST and sleeping (R174, R173, R151): they send no byte and leave DC. -/
def Event.lineSetup : Event → Bool
  | .cfg _ _ => true
  | .line .rst _ => true
  | .sleep _ => true
  | _ => false

/-- The positions of SETUP and DISPLAY: the statements that drive the panel. -/
def drivesPanel : Seq → Bool
  | .setup _ => true
  | .display _ => true
  | _ => false

/-- The two positions of a statement of `Init`. -/
def atInit (q : InitStep) (p : Seq) : Prop := p = .setup (.init q) ∨ p = .display (.wake q)

/-- Everything the statement at a position can do to the running operation. -/
inductive Effect (p : Seq) (s : State) : Flow → Prop
  /-- nothing: a check that lets the operation go on, or a local name computed -/
  | none : Effect p s (.go s)
  /-- the start of `Init` -/
  | initStart (hp : atInit .start p) : Effect p s (.go { s with panelState := .uninitialized })
  /-- the end of `Init` -/
  | initFinish (hp : atInit .finish p) : Effect p s (.go { s with panelState := .idle })
  /-- lines configured, RST driven, a sleep -/
  | lines (rst : Bool) (dc dr db : Dir) (sl : Nat) (es : List Event) (hp : drivesPanel p = true)
      (h : ∀ e ∈ es, e.lineSetup = true)
      (ht : es.foldl timeTrack (s.lastNow, s.slept, true) = (s.lastNow, sl, true)) :
      Effect p s
        (.go { s with
          rstLvl := rst
          dirDc := dc
          dirRst := dr
          dirBusy := db
          slept := sl
          tr := s.tr ++ es })
  /-- a panel command; inside `Init` it leaves PANEL_STATE -/
  | link (b : Byte) (es : List Event) (dc : Bool) (v : PanelState) (hp : drivesPanel p = true)
      (hb : b ∈ s.params.opc.all) (h : LinkCommand b es) (hv : insideInit p = true → v = s.panelState) :
      Effect p s (.go { s with dcLvl := dc, cs := false, panelState := v, tr := s.tr ++ es })
  /-- a gate passed -/
  | passed (t : State) (hp : drivesPanel p = true) (h : GateChange s t) : Effect p s (.go t.gatePassed)
  /-- a gate failed and the operation aborted -/
  | aborted (t : State) (site : GateSite) (hp : drivesPanel p = true) (h : GateChange s t) :
      Effect p s (.ended (t.raiseIdleTimeout site))
  /-- the framebuffer zeroed -/
  | clearFb (hp : p = .setup .clearFb) :
      Effect p s (.go { s with fb := s.fb.writeBytes 0 (List.replicate s.params.bufLen 0x00) })
  /-- SETUP_DONE set -/
  | markDone (hp : p = .setup .markDone) : Effect p s (.go { s with setupDone := true })
  /-- the mode sampled -/
  | mode (hp : p = .display .mode) : Effect p s (.go s.sampleMode)
  /-- the cadence advanced -/
  | advance (hp : p = .display .advance) : Effect p s (.go s.advanceCadence)
  /-- WARNING cleared -/
  | clearWarning (hp : p = .display .clearWarning) : Effect p s (.go s.clearWarning)
  /-- a plane of FILL -/
  | fillPlane (i : Nat) (b : Bool) (hp : p = .fill .plane1 ∨ p = .fill .plane2) (hi : i = 0 ∨ i = s.params.half) :
      Effect p s (.go (s.fillPlane i b))
  /-- a write of SET_PIXEL -/
  | plotPlane (i x : Nat) (b : Bool) (hp : p = .setPixel .plane1 ∨ p = .setPixel .plane2)
      (hi : i < s.params.bufLen) : Effect p s (.go (s.plotPlane i x b))
  /-- RES_VALUE written -/
  | result (v : U32) : Effect p s (.go { s with resValue := v })
  /-- DSBU written -/
  | dsbu (b : Bool) (hp : p = .entry .setDsbu) : Effect p s (.go (s.writeDsbu b))
  /-- the operation returns -/
  | finished (st : Status) (v : U32) : Effect p s (.ended (s.finish st v))
  /-- READY holds no statement -/
  | ready (hp : p = .ready) : Effect p s (.ended s)
  /-- an access to a byte that does not exist, behind the range check alone -/
  | fault (i : Nat) (hp : pastRangeCheck p = true) (hi : s.params.bufLen ≤ i) :
      Effect p s (.fault (.outsideFramebuffer i))

section
variable (p : Seq) (s : State)

/-- A gate site's effect (R155). -/
theorem gate_effect (site : GateSite) (hp : drivesPanel p = true) : Effect p s (s.gate site) := by
  obtain ⟨t, ht, h | h⟩ := gate_cases s site
  · rw [h]; exact .passed t hp ht
  · rw [h]; exact .aborted t site hp ht

/-- A command with a data transaction. -/
theorem cmd_dat_effect (b : Byte) (bs : List Byte) (hp : drivesPanel p = true) (hb : b ∈ s.params.opc.all) :
    Effect p s (.go ((s.cmd b).dat bs)) := by
  have h := Effect.link (p := p) (s := s) b (evCmd b ++ evDat bs) true s.panelState hp hb (.cmdDat bs) (fun _ => rfl)
  rwa [State.cmd_dat_eq, List.append_assoc]

/-- An opcode alone. -/
theorem cmd_effect (b : Byte) (hp : drivesPanel p = true) (hb : b ∈ s.params.opc.all) :
    Effect p s (.go (s.cmd b)) := by
  have h := Effect.link (p := p) (s := s) b (evCmd b) false s.panelState hp hb .cmd (fun _ => rfl)
  rwa [State.cmd_eq]

/-- The effect of each statement of `Init` (R190). -/
theorem runInit_effect (q : InitStep) (hq : atInit q p) : Effect p s (runInit q s) := by
  have hp : drivesPanel p = true := by rcases hq with rfl | rfl <;> rfl
  have rst := fun (r : Bool) (es : List Event) (h : ∀ e ∈ es, e.lineSetup = true)
      (ht : es.foldl timeTrack (s.lastNow, s.slept, true) = (s.lastNow, s.slept, true)) =>
    Effect.lines (p := p) (s := s) r s.dirDc s.dirRst s.dirBusy s.slept es hp h ht
  have wait := fun (d : U32) =>
    Effect.lines (p := p) (s := s) s.rstLvl s.dirDc s.dirRst s.dirBusy (s.slept + d.toNat) [.sleep d] hp
      (by simp [Event.lineSetup]) rfl
  cases q with
  | start => exact .initStart hq
  | rstLow => exact rst false [.line .rst false] (by simp [Event.lineSetup]) rfl
  | rstLowWait => exact wait s.params.tRstLowMs
  | rstHigh => exact rst true [.line .rst true] (by simp [Event.lineSetup]) rfl
  | rstHighWait => exact wait s.params.tRstHighMs
  | gateHwReset => exact gate_effect p s _ hp
  | swReset => exact cmd_effect p s _ hp (opcodeOf_mem _ .swReset _ rfl)
  | gateSwReset => exact gate_effect p s _ hp
  | driverOutput => exact cmd_dat_effect p s _ _ hp (opcodeOf_mem _ .driverOutput _ rfl)
  | booster => exact cmd_dat_effect p s _ _ hp (opcodeOf_mem _ .booster _ rfl)
  | vcom => exact cmd_dat_effect p s _ _ hp (opcodeOf_mem _ .vcom _ rfl)
  | dummyLine => exact cmd_dat_effect p s _ _ hp (opcodeOf_mem _ .dummyLine _ rfl)
  | gateTime => exact cmd_dat_effect p s _ _ hp (opcodeOf_mem _ .gateTime _ rfl)
  | dataEntry => exact cmd_dat_effect p s _ _ hp (opcodeOf_mem _ .dataEntry _ rfl)
  | ramOption => exact cmd_dat_effect p s _ _ hp (opcodeOf_mem _ .ramOption _ rfl)
  | finish => exact .initFinish hq

end

section
variable (s : State)

/-- The effect of each statement of SETUP (R224). -/
theorem runSetup_effect (q : SetupStep) : Effect (.setup q) s (runSetup q s) := by
  have lines := fun (rst : Bool) (dc dr db : Dir) (e : Event) (h : e.lineSetup = true)
      (ht : timeTrack (s.lastNow, s.slept, true) e = (s.lastNow, s.slept, true)) =>
    Effect.lines (p := .setup q) (s := s) rst dc dr db s.slept [e] rfl (by simpa using h) ht
  cases q with
  | cfgDc => exact lines s.rstLvl .out s.dirRst s.dirBusy (.cfg .dc .out) rfl rfl
  | cfgRst => exact lines s.rstLvl s.dirDc .out s.dirBusy (.cfg .rst .out) rfl rfl
  | driveRst => exact lines true s.dirDc s.dirRst s.dirBusy (.line .rst true) rfl rfl
  | cfgBusy => exact lines s.rstLvl s.dirDc s.dirRst .input (.cfg .busy .input) rfl rfl
  | clearFb => exact .clearFb rfl
  | markDone => exact .markDone rfl
  | init q => exact runInit_effect _ s q (.inl rfl)
  | ret => exact .finished .ok 0

/-- The effect of each statement of DISPLAY (R226). -/
theorem runDisplay_effect (q : DisplayStep) : Effect (.display q) s (runDisplay q s) := by
  have link := fun (b : Byte) (es : List Event) (dc : Bool) (v : PanelState) (hb : b ∈ s.params.opc.all)
      (h : LinkCommand b es) (hv : insideInit (.display q) = true → v = s.panelState) =>
    Effect.link (p := .display q) (s := s) b es dc v rfl hb h hv
  have act := fun hv => link 0x20 (evCmd 0x20) false s.markBusy.panelState
    (opcodeOf_mem s.params.opc .masterAct _ rfl) .cmd hv
  cases q with
  | wake q => exact runInit_effect _ s q (.inr rfl)
  | gateStart => exact gate_effect _ s _ rfl
  | mode => exact .mode rfl
  | lut =>
    have h := link 0x32 (evCmdDat 0x32 s.lutTable) true s.panelState
      (opcodeOf_mem s.params.opc .lut _ rfl) (.oneTransaction _) (fun _ => rfl)
    rwa [runDisplay, sendLut, State.cmdDat_eq]
  | advance => exact .advance rfl
  | vcom => exact cmd_dat_effect _ s _ _ rfl (opcodeOf_mem _ .vcom _ rfl)
  | pingpong => exact cmd_dat_effect _ s _ _ rfl (opcodeOf_mem _ .pingpong _ rfl)
  | duc2Flag => exact cmd_dat_effect _ s _ _ rfl (opcodeOf_mem _ .duc2 _ rfl)
  | preActivate =>
    have h := act (fun h => by simp [insideInit] at h)
    rwa [runDisplay, sendMasterAct, State.cmd_eq]
  | border => exact cmd_dat_effect _ s _ _ rfl (opcodeOf_mem _ .border _ rfl)
  | ramXWindow => exact cmd_dat_effect _ s _ _ rfl (opcodeOf_mem _ .ramXWindow _ rfl)
  | ramYWindow => exact cmd_dat_effect _ s _ _ rfl (opcodeOf_mem _ .ramYWindow _ rfl)
  | ramXCounter => exact cmd_dat_effect _ s _ _ rfl (opcodeOf_mem _ .ramXCounter _ rfl)
  | ramYCounter => exact cmd_dat_effect _ s _ _ rfl (opcodeOf_mem _ .ramYCounter _ rfl)
  | gateRam => exact gate_effect _ s _ rfl
  | writeBw =>
    have h := link 0x24 (evCmd 0x24 ++ evDat (s.fb.readBytes 0 s.params.half)) true s.markBusy.panelState
      (opcodeOf_mem s.params.opc .writeBw _ rfl) (.cmdDat _) (fun h => by simp [insideInit] at h)
    rw [← List.append_assoc] at h
    rwa [runDisplay, sendWriteBw, State.dat_eq, State.cmd_eq]
  | writeRed =>
    have h := link 0x26 (evCmd 0x26 ++ evDat (s.fb.readBytes s.params.half s.params.half)) true s.markBusy.panelState
      (opcodeOf_mem s.params.opc .writeRed _ rfl) (.cmdDat _) (fun h => by simp [insideInit] at h)
    rw [← List.append_assoc] at h
    rwa [runDisplay, sendWriteRed, State.dat_eq, State.cmd_eq]
  | duc2 => exact cmd_dat_effect _ s _ _ rfl (opcodeOf_mem _ .duc2 _ rfl)
  | activate =>
    have h := act (fun h => by simp [insideInit] at h)
    rwa [runDisplay, sendMasterAct, State.cmd_eq]
  | terminate => exact cmd_effect _ s _ rfl (opcodeOf_mem s.params.opc .terminate _ rfl)
  | clearWarning => exact .clearWarning rfl
  | sleep =>
    have hb := opcodeOf_mem s.params.opc .deepSleep _ rfl
    by_cases h : s.params.cal.sleepData = []
    · have e := link s.params.opc.deepSleep (evCmd s.params.opc.deepSleep) false .sleeping hb .cmd
        (fun h => by simp [insideInit] at h)
      simpa [runDisplay, sendDeepSleep, h, State.cmd_eq] using e
    · have e := link s.params.opc.deepSleep (evCmd s.params.opc.deepSleep ++ evDat s.params.cal.sleepData) true
        .sleeping hb (.cmdDat _) (fun h => by simp [insideInit] at h)
      simpa [runDisplay, sendDeepSleep, h, State.cmd_dat_eq] using e
  | ret => exact .finished .ok 0

/-- A framebuffer access behind the range check (R60, R61). -/
theorem accessFb_effect (p : Seq) (i : Nat) (f : Flow) (hp : pastRangeCheck p = true)
    (h : i < s.params.bufLen → Effect p s f) : Effect p s (s.accessFb i f) := by
  simp only [State.accessFb]
  split
  · exact h ‹_›
  · exact .fault i hp (by omega)

/-- The effect of each statement of FILL (R122). -/
theorem runFill_effect (o : Operands) (q : FillStep) : Effect (.fill q) s (runFill o q s) := by
  cases q with
  | planes => exact .none
  | value1 => exact .none
  | value2 => exact .none
  | plane1 => exact .fillPlane 0 _ (.inl rfl) (.inl rfl)
  | plane2 => exact .fillPlane s.params.half _ (.inr rfl) (.inr rfl)
  | ret => exact .finished .ok 0

/-- The effect of each statement of SET_PIXEL (R123). -/
theorem runSetPixel_effect (o : Operands) (q : SetPixelStep) : Effect (.setPixel q) s (runSetPixel o q s) := by
  cases q with
  | coordX => exact .none
  | coordY => exact .none
  | outside => exact .finished .ok 0
  | planes => exact .none
  | offset => exact .none
  | mask => exact .none
  | plane1 => exact accessFb_effect s _ _ _ rfl (.plotPlane _ _ _ (.inl rfl))
  | plane2 => exact accessFb_effect s _ _ _ rfl (.plotPlane _ _ _ (.inr rfl))
  | ret => exact .finished .ok 0

/-- The effect of each statement of GET_PIXEL (R124). -/
theorem runGetPixel_effect (o : Operands) (q : GetPixelStep) : Effect (.getPixel q) s (runGetPixel o q s) := by
  cases q with
  | coordX => exact .none
  | coordY => exact .none
  | zero => exact .result 0
  | outside => exact .finished .outOfRange _
  | offset => exact .none
  | mask => exact .none
  | bit1 => exact accessFb_effect s _ _ _ rfl (fun _ => .none)
  | bit2 => exact accessFb_effect s _ _ _ rfl (fun _ => .none)
  | value => exact .result _
  | ret => exact .finished .ok _

/-- The effect of each operation's first statement (R255, R227, R228). -/
theorem runEntry_effect (o : Operands) (op : HostOp) : Effect (.entry op) s (runEntry o op s) := by
  have check : ∀ c : Bool, Effect (.entry op) s (if c then .go s else .ended (s.finish .seqError 0)) := by
    intro c
    split
    · exact .none
    · exact .finished .seqError 0
  cases op with
  | setup =>
    simp only [runEntry]
    split
    · exact .finished .seqError 0
    · exact .none
  | fill => exact check _
  | setPixel => exact check _
  | getPixel => exact check _
  | display => exact check _
  | setDsbu => exact .dsbu _ rfl
  | readReg =>
    simp only [runEntry, State.readRegister]
    split
    · exact .result _
    · exact .none

/-- Everything a statement at any position can do, whatever the operands. -/
theorem runWith_effect (o : Operands) (p : Seq) : Effect p s (runWith o p s) := by
  cases p with
  | ready => exact .ready rfl
  | entry op => exact runEntry_effect s o op
  | setup q => exact runSetup_effect s q
  | fill q => exact runFill_effect s o q
  | setPixel q => exact runSetPixel_effect s o q
  | getPixel q => exact runGetPixel_effect s o q
  | display q => exact runDisplay_effect s q
  | setDsbu q => cases q; exact .finished .ok 0
  | readReg q =>
    cases q with
    | ret => exact .finished .ok _
    | zero => exact .result 0
    | outside => exact .finished .outOfRange _

/-- Everything the statement the pointer is at can do. -/
theorem runStatement_effect (p : Seq) : Effect p s (runStatement p s) := runWith_effect s (operandsOf s.opf) p

end

/-- A panel command's trace sends its opcode under DC = 0 and its data under DC = 1, whatever DC was (R89). -/
theorem LinkCommand.bytes {b : Byte} {es : List Event} (h : LinkCommand b es) (dc : Bool) :
    ∃ bs : List Byte, linkBytes dc es = (false, b) :: bs.map (fun d => (true, d)) := by
  cases h with
  | cmd => exact ⟨[], rfl⟩
  | cmdDat bs => exact ⟨bs, by simp [linkBytes_append]⟩
  | oneTransaction bs => exact ⟨bs, by simp⟩

/-- A panel command's trace is whole transactions (R176). -/
theorem LinkCommand.framed {b : Byte} {es : List Event} (h : LinkCommand b es) : framed es := by
  cases h with
  | cmd => exact framed_evCmd b
  | cmdDat bs => exact framed_append _ _ (framed_evCmd b) (framed_evDat bs)
  | oneTransaction bs => exact framed_evCmdDat b bs

/-- Line events are no transaction (R174). -/
theorem framed_lineSetup (es : List Event) (h : ∀ e ∈ es, e.lineSetup = true) : framed es := by
  induction es with
  | nil => rfl
  | cons e es ih =>
    have he := h e (by simp)
    have ih := ih (fun e he => h e (by simp [he]))
    cases e <;> simp_all [framed, csTrack, Event.lineSetup]

/-- Line events send no byte and leave DC as it was. -/
theorem linkBytes_lineSetup (dc : Bool) (es : List Event) (h : ∀ e ∈ es, e.lineSetup = true) :
    linkBytes dc es = [] ∧ dcAfter dc es = dc := by
  induction es with
  | nil => exact ⟨rfl, rfl⟩
  | cons e es ih =>
    have he := h e (by simp)
    have ih := ih (fun e he => h e (by simp [he]))
    rcases e with _ | ⟨l, v⟩ | _ | _ | _ | _ | _ | _ | _ | _
    case line => cases l <;> simp_all [linkBytes, dcAfter, Event.lineSetup]
    all_goals simp_all [linkBytes, dcAfter, Event.lineSetup]

/-! A panel command, and line events but sleeps, move no account of time (R150). -/

theorem foldl_timeTrack_timeless (es : List Event) (h : ∀ e ∈ es, e.timeless = true) (a : Option U32 × Nat × Bool) :
    es.foldl timeTrack a = a := by
  induction es with
  | nil => rfl
  | cons e es ih =>
    have he := h e (by simp)
    have ih := ih (fun e he => h e (by simp [he]))
    cases e <;> simp_all [timeTrack, Event.timeless]

theorem LinkCommand.timeless {b : Byte} {es : List Event} (h : LinkCommand b es) : ∀ e ∈ es, e.timeless = true := by
  intro e he
  cases h <;> simp only [evCmd, evDat, evCmdDat, List.mem_append, List.mem_cons, List.mem_map, List.not_mem_nil,
    or_false] at he
  case cmd => rcases he with rfl | rfl | rfl | rfl <;> rfl
  case cmdDat => rcases he with (rfl | rfl | rfl | rfl) | ((rfl | rfl) | ⟨d, -, rfl⟩) | rfl <;> rfl
  case oneTransaction => rcases he with ((rfl | rfl | rfl | rfl) | ⟨d, -, rfl⟩) | rfl <;> rfl

/-! ## Keeping a property -/

/-- A property of states that no pointer move and no statement of a sequence breaks holds of what the sequence leaves. -/
theorem runSteps_keeps (P : State → Prop) (o : Operands) (ps : List Seq) (hseq : ∀ s q, P s → P { s with seq := q })
    (heff : ∀ p ∈ ps, ∀ s r t, P s → Effect p s r → r.outcome = .next t → P t) (s t : State) (hs : P s)
    (h : (runSteps (enabledWith o) (runWith o) ps s).outcome = .next t) : P t := by
  have key := runSteps_induct (enabledWith o) (runWith o) P P (fun _ => True) ps (fun p hp u hu _ => by
    have e := heff p hp { u with seq := p }
    have w := runWith_effect { u with seq := p } o p
    generalize runWith o p { u with seq := p } = r at w ⊢
    cases r with
    | go v => exact e _ v (hseq u p hu) w rfl
    | ended v => exact e _ v (hseq u p hu) w rfl
    | fault f => trivial) s hs
  generalize runSteps (enabledWith o) (runWith o) ps s = r at h key
  cases r with
  | go v => cases h; exact key
  | ended v => cases h; exact key
  | fault f => cases h

/-- The pointer moves, and nothing else. -/
theorem moveOn_change (s : State) (p : Seq) : ∃ q, s.moveOn p = { s with seq := q } := by
  simp only [State.moveOn]
  split
  · exact ⟨_, rfl⟩
  · exact ⟨s.seq, rfl⟩

/-- The pointer moves to a later statement of its sequence that no `if` passes over, or stays. -/
theorem moveOn_seq (s : State) (p : Seq) :
    (s.moveOn p).seq = s.seq ∨ ((s.moveOn p).seq ∈ laterPositions p ∧ seqEnabled (s.moveOn p).seq s = true) := by
  simp only [State.moveOn]
  split
  · next q hq => exact .inr ⟨List.mem_of_find?_eq_some hq, by simpa using List.find?_some hq⟩
  · exact .inl rfl

/-- A property of states that no pointer move and no statement breaks is kept by a step of a running operation. -/
theorem runOne_keeps (P : State → Prop) (p : Seq) (hseq : ∀ s q, P s → P { s with seq := q })
    (heff : ∀ s r t, P s → Effect p s r → r.outcome = .next t → P t) (s t : State) (hs : P s)
    (h : ((runStatement p s).moveOn p).outcome = .next t) : P t := by
  have e := heff s (runStatement p s)
  have w := runStatement_effect s p
  generalize runStatement p s = r at h w e
  cases r with
  | go u =>
    cases h
    obtain ⟨q, hq⟩ := moveOn_change u p
    rw [hq]
    exact hseq u q (e u hs w rfl)
  | ended u =>
    cases h
    exact e _ hs w rfl
  | fault f => cases h

end Sys2Proof.Machine
end

