-- ==== Sys2Proof/Laws/Step.lean ====
section
/-! SUPPORT. What `exec` and `step` can do, packaged once: a host operation is its statements run from the entry, a panel
command the statement at a position that sends it, so a property of states that each kind of update keeps is kept by
every instruction and by every step. -/

namespace Sys2Proof.Machine

/-- The operands a host operation runs with. -/
def operandsIn : Instr → Operands
  | .fill c => { Operands.none with colour := c }
  | .setPixel x y c => { Operands.none with x := x, y := y, colour := c }
  | .getPixel x y => { Operands.none with x := x, y := y }
  | .setDsbu b => { Operands.none with bit := b }
  | .readReg n => { Operands.none with number := n }
  | _ => .none

/-- Every host operation is its statements, run from the entry (R3). -/
theorem exec_hostOp (i : Instr) (op : HostOp) (s : State) (h : hostOpOf i = some op) :
    exec i s = (s.runOperation (operandsIn i) op).outcome := by
  cases i <;> simp only [hostOpOf, Option.some.injEq, reduceCtorEq] at h <;> subst h <;>
    simp only [exec, execSetup, execFill, execSetPixel, execGetPixel, execDisplay, execSetDsbu, execReadReg, operandsIn]

/-- Every instruction is a host operation or a panel command. -/
theorem hostOp_or_panel (i : Instr) : (∃ op, hostOpOf i = some op) ∨ ∃ p, commandAt p = some i := by
  cases i
  case swReset => exact .inr ⟨.setup (.init .swReset), rfl⟩
  case driverOutput => exact .inr ⟨.setup (.init .driverOutput), rfl⟩
  case booster => exact .inr ⟨.setup (.init .booster), rfl⟩
  case vcom => exact .inr ⟨.setup (.init .vcom), rfl⟩
  case dummyLine => exact .inr ⟨.setup (.init .dummyLine), rfl⟩
  case gateTime => exact .inr ⟨.setup (.init .gateTime), rfl⟩
  case dataEntry => exact .inr ⟨.setup (.init .dataEntry), rfl⟩
  case ramOption => exact .inr ⟨.setup (.init .ramOption), rfl⟩
  case lut => exact .inr ⟨.display .lut, rfl⟩
  case pingpong => exact .inr ⟨.display .pingpong, rfl⟩
  case duc2 => exact .inr ⟨.display .duc2, rfl⟩
  case masterAct => exact .inr ⟨.display .activate, rfl⟩
  case border => exact .inr ⟨.display .border, rfl⟩
  case ramXWindow => exact .inr ⟨.display .ramXWindow, rfl⟩
  case ramYWindow => exact .inr ⟨.display .ramYWindow, rfl⟩
  case ramXCounter => exact .inr ⟨.display .ramXCounter, rfl⟩
  case ramYCounter => exact .inr ⟨.display .ramYCounter, rfl⟩
  case writeBw => exact .inr ⟨.display .writeBw, rfl⟩
  case writeRed => exact .inr ⟨.display .writeRed, rfl⟩
  case terminate => exact .inr ⟨.display .terminate, rfl⟩
  case deepSleep => exact .inr ⟨.display .sleep, rfl⟩
  all_goals exact .inl ⟨_, rfl⟩

/-- A panel command's meaning is the effect of a statement at a position that sends it (R103). -/
theorem exec_command_effect (i : Instr) (p : Seq) (s : State) (hp : commandAt p = some i) :
    ∃ t, exec i s = .next t ∧ Effect p s (.go t) := by
  obtain ⟨t, h1, h2⟩ := exec_commandAt p i s hp
  exact ⟨t, h1, h2 ▸ runStatement_effect s p⟩

/-- The positions whose statements an instruction runs. -/
def RunsAt (i : Instr) (p : Seq) : Prop :=
  commandAt p = some i ∨ ∃ op, hostOpOf i = some op ∧ p ∈ operationProgram op

/-- What a property of states must be kept by at the positions `A`, for the instructions that run there to keep it. -/
structure Kept (A : Seq → Prop) (P : State → Prop) : Prop where
  /-- the pointer and DONE: the start of an operation and every move inside it -/
  moved : ∀ s q d, P s → P { s with seq := q, done := d }
  /-- a statement -/
  effect : ∀ p s r t, A p → P s → Effect p s r → r.outcome = .next t → P t

/-- A property each kind of update keeps is kept by every instruction that answers a next state. -/
theorem exec_keeps {A : Seq → Prop} {P : State → Prop} (k : Kept A P) (i : Instr) (hA : ∀ p, RunsAt i p → A p)
    (s t : State) (hs : P s) (h : exec i s = .next t) : P t := by
  rcases hostOp_or_panel i with ⟨op, hop⟩ | ⟨p, hp⟩
  · rw [exec_hostOp i op s hop] at h
    exact runSteps_keeps P _ _ (fun u q hu => k.moved u q u.done hu)
      (fun p hp u r v => k.effect p u r v (hA p (.inr ⟨op, hop, hp⟩))) _ _ (k.moved s _ false hs) h
  · obtain ⟨u, h1, h2⟩ := exec_command_effect i p s hp
    rw [h1] at h
    cases h
    exact k.effect p s _ _ (hA p (.inl hp)) hs h2 rfl

/-- A property each kind of update keeps, the taking of a frame among them, is kept by every step. -/
theorem step_keeps {P : State → Prop} (k : Kept (fun _ => True) P)
    (port : ∀ s f rest, P s → P { s with hostIn := rest, opf := f }) (s t : State) (hs : P s) (h : step s = .next t) :
    P t := by
  by_cases hready : s.seq = .ready
  · simp only [step, fetch, hready] at h
    cases hd : s.done with
    | false =>
      simp only [hd, if_true] at h
      cases h
      exact hs
    | true =>
      simp only [hd, Bool.true_eq_false, if_false] at h
      cases hport : s.hostIn with
      | nil =>
        simp only [hport] at h
        cases h
        exact hs
      | cons f rest =>
        simp only [hport] at h
        cases hdec : decodeFrame f with
        | ok i =>
          simp only [hdec] at h
          exact exec_keeps k i (fun _ _ => trivial) _ t (k.moved _ .ready true (port s f rest hs)) h
        | error e =>
          simp only [hdec] at h
          cases h
          exact k.effect .ready _ _ _ trivial (k.moved _ .ready true (port s s.opf rest hs)) (.finished _ _) rfl
  · rw [step_running s s.seq rfl hready] at h
    exact runOne_keeps P s.seq (fun u q hu => k.moved u q u.done hu)
      (fun u r v => k.effect s.seq u r v trivial) s t hs h

/-! ## The frame the operands come from -/

/-- No statement writes OPF (R28). -/
theorem Effect.opf {p : Seq} {s t : State} (h : Effect p s (.go t)) : t.opf = s.opf := by
  cases h
  case passed u hp hu => simpa using hu.opf
  all_goals rfl

/-- The operands of a decoded frame, as far as the statements of its operation read them (R81–R84). -/
theorem operandsIn_agree (f : Frame) (i : Instr) (op : HostOp) (hf : decodeFrame f = .ok i) (hop : hostOpOf i = some op)
    (p : Seq) (hp : p ∈ operationProgram op) (s : State) :
    enabledWith (operandsIn i) p s = enabledWith (operandsOf f) p s
      ∧ runWith (operandsIn i) p s = runWith (operandsOf f) p s := by
  have driver := driver_no_operand (operandsIn i) (operandsOf f) p
  unfold decodeFrame at hf
  split at hf <;> cases hf <;> cases hop
  case h_1 => obtain ⟨h1, h2⟩ := driver (.inl hp); exact ⟨congrFun h1 s, congrFun h2 s⟩
  case h_5 => obtain ⟨h1, h2⟩ := driver (.inr hp); exact ⟨congrFun h1 s, congrFun h2 s⟩
  case h_2 =>
    simp only [operationProgram, fillProgram, List.mem_cons, List.not_mem_nil, or_false] at hp
    rcases hp with rfl | rfl | rfl | rfl | rfl | rfl | rfl <;> exact ⟨rfl, rfl⟩
  case h_3 =>
    simp only [operationProgram, setPixelProgram, List.mem_cons, List.not_mem_nil, or_false] at hp
    rcases hp with rfl | rfl | rfl | rfl | rfl | rfl | rfl | rfl | rfl | rfl <;> exact ⟨rfl, rfl⟩
  case h_4 =>
    simp only [operationProgram, getPixelProgram, List.mem_cons, List.not_mem_nil, or_false] at hp
    rcases hp with rfl | rfl | rfl | rfl | rfl | rfl | rfl | rfl | rfl | rfl | rfl <;> exact ⟨rfl, rfl⟩
  case h_6 =>
    simp only [operationProgram, setDsbuProgram, List.mem_cons, List.not_mem_nil, or_false] at hp
    rcases hp with rfl | rfl <;> exact ⟨rfl, rfl⟩
  case h_7 =>
    simp only [operationProgram, readRegProgram, List.mem_cons, List.not_mem_nil, or_false] at hp
    rcases hp with rfl | rfl | rfl | rfl <;> exact ⟨rfl, rfl⟩

/-- With its own frame latched a host operation is its statements as the pointer runs them (R28, R262). -/
theorem exec_eq_runList (s : State) (i : Instr) (op : HostOp) (hf : decodeFrame s.opf = .ok i)
    (hop : hostOpOf i = some op) : exec i s = (runList (operationProgram op) (s.start op)).outcome := by
  rw [exec_hostOp i op s hop]
  congr 1
  refine runSteps_congr _ _ _ _ (fun u => u.opf = s.opf) _ (fun p hp u hu => ?_) (fun p hp u v hu hv => ?_) _ rfl
  · simp only [seqEnabled, runStatement, hu]
    exact ⟨(operandsIn_agree s.opf i op hf hop p hp u).1, (operandsIn_agree s.opf i op hf hop p hp _).2⟩
  · have w := runWith_effect { u with seq := p } (operandsIn i) p
    rw [hv] at w
    exact w.opf.trans hu

/-- A run of `k + 1` steps whose first answers a next state. -/
theorem run_succ (k : Nat) (s t : State) (h : step s = .next t) :
    Host.Core.run core (k + 1) s = Host.Core.run core k t := by
  have general (M : Host.Core) (x y : M.State) (h : M.step x = .next y) : M.run (k + 1) x = M.run k y := by
    simp only [Host.Core.run, h]
  exact general core s t h

end Sys2Proof.Machine
end

