-- ==== Sys2Proof/Tests/Slice0.lean ====
section
/-! SUPPORT. Tests of the model against the vectors of spec/95_test_vectors.md (each names its set or worked example), the
ill-formed terms the checks refuse, a word for every row of the opcode table, and, for every obligation with hypotheses,
a concrete input that meets them. Calibration bytes and waveform tables are made up: the spec gives none. -/

namespace Sys2Proof.Machine.Tests

/-! ## Instances and states -/

/-- The small geometry of spec/95_test_vectors.md, `N = 3`. -/
def smallRecord : ParamRecord where
  vw := 10
  cw := 16
  h := 3
  n := 3
  hasRst := true
  hasBusy := true
  busyActiveLevel := true
  idleTimeoutMs := 5000
  pollMs := 1000
  longWaitMs := 5000
  tRstLowMs := 11
  tRstHighMs := 12
  lutFull := List.replicate 70 0xA1
  lutPartial := List.replicate 70 0xA2
  opc := Config.opcodes
  cal :=
    { docMode := 0xC0, booster := #v[0xC1, 0xC2, 0xC3], vcomInit := 0xC4, dummyLine := 0xC5, gateTime := 0xC6,
      dataEntry := 0xC7, ramOption := #v[0xC8, 0xC9], vcomFull := 0xD0, vcomPartial := 0xD1,
      pingpong := #v[1, 2, 3, 4, 5, 6, 7], duc2PartialFlag := 0xD2, borderFull := 0xD3, borderPartial := 0xD4,
      duc2Full := 0xD5, duc2Partial := 0xD6, sleepData := [0x01] }

def small : Params := { toParamRecord := smallRecord, ok := by decide }

/-- The small geometry without RST, BUSY and sleep data. -/
def bare : Params :=
  { toParamRecord :=
      { smallRecord with hasRst := false, hasBusy := false, cal := { smallRecord.cal with sleepData := [] } },
    ok := by decide }

/-- The reference geometry, `N = 5`. -/
def reference : Params := { toParamRecord := { smallRecord with vw := 122, cw := 128, h := 250, n := 5 }, ok := by decide }

/-- The largest geometry R9 admits. -/
def largest : Params :=
  { toParamRecord := { smallRecord with vw := 2048, cw := 2048, h := 65536 }, ok := by decide }

/-- `IDLE_TIMEOUT_MS = 0`. -/
def impatient : Params := { toParamRecord := { smallRecord with idleTimeoutMs := 0 }, ok := by decide }

/-- `LONG_WAIT_MS = 1000`, below the timeout. -/
def talkative : Params := { toParamRecord := { smallRecord with longWaitMs := 1000 }, ok := by decide }

/-- A block before SETUP whose panel reads idle. -/
def fresh (p : Params) : State := { State.construct p with busyIn := List.replicate 8 false }

/-- A block after SETUP, framebuffer as given, whose panel reads idle. -/
def ready (p : Params) (fb : Memory) : State :=
  { fresh p with setupDone := true, panelState := .idle, dirDc := .out, dirRst := .out, dirBusy := .input, fb := fb }

/-- The framebuffer FILL leaves white in the small geometry: plane 1 all 0xFF. -/
def whiteFb : Memory := [(0, 0xFF), (1, 0xFF), (2, 0xFF), (3, 0xFF), (4, 0xFF), (5, 0xFF)]

/-- The framebuffer of vector set 2.3's second row: (0,0) RED, (9,2) BLACK on white. -/
def drawnFb : Memory := [(0, 0xFF), (1, 0xFF), (2, 0xFF), (3, 0xFF), (4, 0xFF), (5, 0xBF), (6, 0x80)]

/-- The framebuffer FILL leaves red in the small geometry. -/
def redFb : Memory := (List.range 12).map (fun i => (i, 0xFF))

/-- BUSY stuck active. -/
def stuck (p : Params) (times : List U32) : State :=
  { ready p drawnFb with busyIn := List.replicate 9 true, timeIn := times }

/-- What an outcome's next state gives, if there is one. -/
def after {α : Type} (o : Host.Outcome State Fault Refusal) (f : State → α) : Option α :=
  match o with
  | .next t => some (f t)
  | .fault _ => none
  | .refused _ => none

/-- An outcome that is a next state, shown by evaluation. -/
theorem answers (o : Host.Outcome State Fault Refusal) (h : (after o State.done).isSome = true) : ∃ t, o = .next t := by
  cases o with
  | next t => exact ⟨t, rfl⟩
  | fault r => simp [after] at h
  | refused r => simp [after] at h

def red : Colour := ⟨0xFF, 0x00, 0x00, 0x00⟩
def black : Colour := ⟨0xFF, 0xFF, 0xFF, 0xFF⟩
def white : Colour := ⟨0x00, 0x00, 0x00, 0x00⟩

/-! ## Ill-formed terms and records, refused (R82, R9, R101) -/

theorem test_wf_setPixel_x_below : (Instr.setPixel (-32769) 0 red).wf = false := by decide
theorem test_wf_setPixel_x_above : (Instr.setPixel 32768 0 red).wf = false := by decide
theorem test_wf_setPixel_y_below : (Instr.setPixel 0 (-32769) red).wf = false := by decide
theorem test_wf_setPixel_y_above : (Instr.setPixel 0 32768 red).wf = false := by decide
theorem test_wf_getPixel_x : (Instr.getPixel 32768 0).wf = false := by decide
theorem test_wf_getPixel_y : (Instr.getPixel 0 (-32769)).wf = false := by decide
theorem test_wf_limits : (Instr.setPixel (-32768) 32767 red).wf = true ∧ (Instr.getPixel 32767 (-32768)).wf = true := by
  decide

theorem test_check_cw : ({ smallRecord with cw := 12 }).check = false ∧ ({ smallRecord with cw := 0, vw := 0 }).check = false
    ∧ ({ smallRecord with cw := 2056 }).check = false := by decide
theorem test_check_vw : ({ smallRecord with vw := 0 }).check = false ∧ ({ smallRecord with vw := 17 }).check = false := by
  decide
theorem test_check_h : ({ smallRecord with h := 0 }).check = false ∧ ({ smallRecord with h := 65537 }).check = false := by
  decide
theorem test_check_lut : ({ smallRecord with lutFull := List.replicate 69 0 }).check = false
    ∧ ({ smallRecord with lutPartial := List.replicate 71 0 }).check = false := by decide
theorem test_check_timing : ({ smallRecord with pollMs := 0 }).check = false
    ∧ ({ smallRecord with idleTimeoutMs := 2147482648 }).check = false
    ∧ ({ smallRecord with idleTimeoutMs := 2147482647 }).check = true := by decide
theorem test_check_opcodes :
    ({ smallRecord with opc := { Config.opcodes with border := 0x32 } }).check = false := by decide

/-! ## Decoding: a word for every row (R80–R85, R101, R106) -/

theorem test_decode_setup : decodeTableWord 72 0x010000000000000000 = some .setup := by decide
theorem test_decode_fill : decodeTableWord 72 0x0212345678FF000102 = some (.fill ⟨0xFF, 0x00, 0x01, 0x02⟩) := by decide
theorem test_decode_setPixel : decodeTableWord 72 0x0300F90079FF000000 = some (.setPixel 121 249 red) := by decide
theorem test_decode_getPixel : decodeTableWord 72 0x047FFF800000000000 = some (.getPixel (-32768) 32767) := by decide
theorem test_decode_display : decodeTableWord 72 0x05FFFFFFFFFFFFFFFF = some .display := by decide
theorem test_decode_setDsbu : decodeTableWord 72 0x06FFFFFFFFFFFFFFFE = some (.setDsbu false) := by decide
theorem test_decode_readReg : decodeTableWord 72 0x07FFFFFFFF00000000 = some (.readReg 0xFFFFFFFF) := by decide
theorem test_decode_illegal : decodeFrame 0x000000000000000000 = .error (.illegalSelector 0x00)
    ∧ decodeFrame 0x080000000000000000 = .error (.illegalSelector 0x08)
    ∧ decodeFrame 0xFFFFFFFFFFFFFFFFFF = .error (.illegalSelector 0xFF) := by decide
theorem test_decode_panel :
    [0x12, 0x01, 0x0C, 0x2C, 0x3A, 0x3B, 0x11, 0x21, 0x32, 0x37, 0x22].map (decodeTableWord 8)
      = [.swReset, .driverOutput, .booster, .vcom, .dummyLine, .gateTime, .dataEntry, .ramOption, .lut, .pingpong,
          .duc2].map some := by decide
theorem test_decode_panel_refresh :
    [0x20, 0x3C, 0x44, 0x45, 0x4E, 0x4F, 0x24, 0x26, 0xFF, 0x10].map (decodeTableWord 8)
      = [.masterAct, .border, .ramXWindow, .ramYWindow, .ramXCounter, .ramYCounter, .writeBw, .writeRed, .terminate,
          .deepSleep].map some := by decide
theorem test_decode_panel_unknown : decodeOpcode Config.opcodes 0x00 = .error (.unknownOpcode 0x00) := by decide
theorem test_encode_frames :
    encode Config.opcodes (.setPixel 9 2 black) = .frame 0x0300020009FFFFFFFF
    ∧ encode Config.opcodes (.getPixel (-1) 0) = .frame 0x040000FFFF00000000
    ∧ encode Config.opcodes (.setDsbu true) = .frame 0x060000000000000001
    ∧ encode Config.opcodes .lut = .opcode 0x32 := by decide
theorem test_assembly : assemblyText (.setPixel 9 2 red) = some "SET_PIXEL 9, 2, #FF000000" := by decide

/-! ## Framebuffer operations (sets 2.1 to 2.5) -/

/-- Set 2.1. -/
theorem test_classify :
    [(⟨0, 0, 0, 0⟩ : Colour), ⟨255, 255, 255, 255⟩, ⟨1, 0, 0, 0⟩, ⟨255, 0, 0, 255⟩, ⟨128, 0, 0, 7⟩,
      ⟨255, 255, 255, 254⟩, ⟨255, 255, 255, 0⟩, ⟨255, 0, 1, 0⟩, ⟨0, 255, 0, 0⟩, ⟨0, 0, 0, 255⟩].map classify
      = [.white, .black, .red, .red, .red, .white, .white, .white, .white, .white] := by decide

/-- Set 2.2. -/
theorem test_fill_white : after (exec (.fill white) (ready small redFb)) (fun t => (t.resStatus, t.fb.readBytes 0 12))
    = some (0, [0xFF, 0xFF, 0xFF, 0xFF, 0xFF, 0xFF, 0, 0, 0, 0, 0, 0]) := by decide
theorem test_fill_red : after (exec (.fill red) (ready small [])) (fun t => t.fb.readBytes 0 12)
    = some (List.replicate 12 0xFF) := by decide

/-- Set 2.3, first and third row. -/
theorem test_setPixel_red : after (exec (.setPixel 0 0 red) (ready small whiteFb)) (fun t => t.fb.readBytes 0 12)
    = some [0xFF, 0xFF, 0xFF, 0xFF, 0xFF, 0xFF, 0x80, 0, 0, 0, 0, 0] := by decide
theorem test_setPixel_white : after (exec (.setPixel 3 1 white) (ready small redFb)) (fun t => t.fb.readBytes 0 12)
    = some [0xFF, 0xFF, 0xFF, 0xFF, 0xFF, 0xFF, 0xFF, 0xFF, 0xEF, 0xFF, 0xFF, 0xFF] := by decide

/-- Set 2.3, the GET_PIXEL table, and W3. -/
theorem test_getPixel_codes :
    [((0 : Int), (0 : Int)), (9, 2), (1, 0)].map
      (fun c => after (exec (.getPixel c.1 c.2) (ready small drawnFb)) (fun t => (t.resStatus, t.resValue)))
      = [some (0, 3), some (0, 0), some (0, 2)] := by decide
theorem test_getPixel_out_of_range :
    [((10 : Int), (0 : Int)), (-1, 0), (0, 3), (-32768, 32767)].map
      (fun c => after (exec (.getPixel c.1 c.2) (ready small drawnFb)) (fun t => (t.resStatus, t.resValue)))
      = [some (3, 0), some (3, 0), some (3, 0), some (3, 0)] := by decide

/-- Set 2.4. -/
theorem test_addressing :
    [(0, 0), (7, 0), (8, 0), (121, 0), (0, 1), (5, 3), (120, 249), (121, 249)].map
      (fun c => (reference.pixelOff c.1 c.2, reference.half + reference.pixelOff c.1 c.2, pixelMask c.1))
      = [(0, 4000, 0x80), (0, 4000, 0x01), (1, 4001, 0x80), (15, 4015, 0x40), (16, 4016, 0x80), (48, 4048, 0x04),
          (3999, 7999, 0x80), (3999, 7999, 0x40)] := by decide

/-! ## Register operations (set 2.10) -/

theorem test_readReg_reset :
    [0, 1, 2, 3, 4, 5, 6, 7, 8, 0xFFFFFFFF].map
      (fun n => after (exec (.readReg n) (State.construct reference)) (fun t => (t.resStatus, t.resValue)))
      = [some (0, 0x60), some (0, 0), some (0, 5), some (0, 122), some (0, 128), some (0, 250), some (0, 8000),
          some (0, 5000), some (3, 0), some (3, 0)] := by decide
theorem test_readReg_status :
    [ready reference [], { ready reference [] with warning := true },
      { ready reference [] with dsbu := true, panelState := .sleeping }].map (fun s => s.statusWord)
      = [0x6A, 0x6B, 0x7E] := by decide
theorem test_setDsbu : after (exec (.setDsbu true) (State.construct small)) (fun t => (t.dsbu, t.resStatus, t.resValue))
    = some (true, 0, 0) := by decide

/-! ## Panel commands (sets 2.7, 2.8; R188, R189) -/

/-- What a command appends to the trace of a state. -/
def sent (i : Instr) (s : State) : Option (List Event) := after (exec i s) State.tr

theorem test_swReset : sent .swReset (fresh small) = some [.line .dc false, .cs true, .tx 0x12, .cs false] := by decide
theorem test_driverOutput : sent .driverOutput (fresh reference)
    = some [.line .dc false, .cs true, .tx 0x01, .cs false, .line .dc true, .cs true, .tx 0xF9, .tx 0x00, .tx 0xC0,
        .cs false] := by decide
theorem test_driverOutput_largest : sent .driverOutput (fresh largest) = some (evCmd 0x01 ++ evDat [0xFF, 0xFF, 0xC0]) := by
  decide
theorem test_booster : sent .booster (fresh small) = some (evCmd 0x0C ++ evDat [0xC1, 0xC2, 0xC3]) := by decide
theorem test_vcom : sent .vcom { fresh small with seq := .setup (.init .vcom) } = some (evCmd 0x2C ++ evDat [0xC4])
    ∧ sent .vcom { fresh small with seq := .display .vcom, full := true } = some (evCmd 0x2C ++ evDat [0xD0]) := by decide
theorem test_vcom_partial : sent .vcom { fresh small with seq := .display .vcom } = some (evCmd 0x2C ++ evDat [0xD1]) := by
  decide
theorem test_dummyLine : sent .dummyLine (fresh small) = some (evCmd 0x3A ++ evDat [0xC5]) := by decide
theorem test_gateTime : sent .gateTime (fresh small) = some (evCmd 0x3B ++ evDat [0xC6]) := by decide
theorem test_dataEntry : sent .dataEntry (fresh small) = some (evCmd 0x11 ++ evDat [0xC7]) := by decide
theorem test_ramOption : sent .ramOption (fresh small) = some (evCmd 0x21 ++ evDat [0xC8, 0xC9]) := by decide
theorem test_lut : sent .lut { fresh small with full := true }
    = some ([Event.line .dc false, Event.cs true, Event.tx 0x32, Event.line .dc true]
      ++ List.replicate 70 (Event.tx 0xA1) ++ [Event.cs false]) := by decide
theorem test_pingpong : sent .pingpong (fresh small) = some (evCmd 0x37 ++ evDat [1, 2, 3, 4, 5, 6, 7]) := by decide
theorem test_duc2_flag : sent .duc2 { fresh small with seq := .display .duc2Flag } = some (evCmd 0x22 ++ evDat [0xD2]) := by
  decide
theorem test_duc2_activation :
    sent .duc2 { fresh small with seq := .display .duc2, full := true } = some (evCmd 0x22 ++ evDat [0xD5])
    ∧ sent .duc2 { fresh small with seq := .display .duc2 } = some (evCmd 0x22 ++ evDat [0xD6]) := by decide
theorem test_masterAct : sent .masterAct (fresh small) = some (evCmd 0x20)
    ∧ after (exec .masterAct (ready small [])) State.panelState = some .busy := by decide
theorem test_masterAct_sleeping :
    after (exec .masterAct { ready small [] with panelState := .sleeping }) State.panelState = some .sleeping := by decide
theorem test_border : sent .border { fresh small with full := true } = some (evCmd 0x3C ++ evDat [0xD3])
    ∧ sent .border (fresh small) = some (evCmd 0x3C ++ evDat [0xD4]) := by decide
theorem test_ramXWindow : sent .ramXWindow (fresh reference) = some (evCmd 0x44 ++ evDat [0x00, 0x0F])
    ∧ sent .ramXWindow (fresh largest) = some (evCmd 0x44 ++ evDat [0x00, 0xFF]) := by decide
theorem test_ramYWindow : sent .ramYWindow (fresh reference) = some (evCmd 0x45 ++ evDat [0x00, 0x00, 0xF9, 0x00]) := by
  decide
theorem test_ramXCounter : sent .ramXCounter (fresh small) = some (evCmd 0x4E ++ evDat [0x00]) := by decide
theorem test_ramYCounter : sent .ramYCounter (fresh small) = some (evCmd 0x4F ++ evDat [0x00, 0x00]) := by decide
theorem test_writeBw : sent .writeBw (ready small drawnFb)
    = some (evCmd 0x24 ++ evDat [0xFF, 0xFF, 0xFF, 0xFF, 0xFF, 0xBF]) := by decide
theorem test_writeRed : sent .writeRed (ready small drawnFb)
    = some (evCmd 0x26 ++ evDat [0x80, 0x00, 0x00, 0x00, 0x00, 0x00]) := by decide
theorem test_terminate : sent .terminate (fresh small) = some [.line .dc false, .cs true, .tx 0xFF, .cs false] := by decide
theorem test_deepSleep : sent .deepSleep (fresh small) = some (evCmd 0x10 ++ evDat [0x01])
    ∧ after (exec .deepSleep (ready small [])) State.panelState = some .sleeping := by decide
theorem test_deepSleep_no_data : sent .deepSleep (fresh bare) = some (evCmd 0x10) := by decide

/-! ## The busy gate (set 2.6) -/

/-- Idle at the second sample, PANEL_STATE BUSY to IDLE. -/
theorem test_gate_second_sample :
    ({ stuck small [7, 7] with busyIn := [true, false], panelState := .busy }).waitUntilIdle 5000
      = (true,
          { stuck small [7] with
            bgStart := 7
            busyIn := []
            lastNow := some 7
            tr := [.busy true, .now 7, .busy false] }) := by decide

/-- Stuck, `T = 0`. -/
theorem test_gate_no_patience :
    ((stuck impatient [7, 7, 1007]).waitUntilIdle 0).1 = false
    ∧ ((stuck impatient [7, 7, 1007]).waitUntilIdle 0).2.tr
      = [.busy true, .now 7, .busy true, .now 7, .wdt, .yield, .sleep 1000, .busy true, .now 1007, .log .idleTimeout] := by
  decide

/-- Stuck, `T = 5000`, the time base wrapping: six sleeps and the log at elapsed 6000. -/
theorem test_gate_wraps :
    (((stuck small [0xFFFFEC78, 0xFFFFEC78, 0xFFFFF060, 0xFFFFF448, 0xFFFFF830, 0xFFFFFC18, 0, 0x3E8]).waitUntilIdle
      5000).2.tr.filter (fun e => decide (e = .sleep 1000 ∨ e = .now 0x3E8 ∨ e = .log .idleTimeout)))
      = List.replicate 6 (Event.sleep 1000) ++ [Event.now 0x3E8, Event.log .idleTimeout] := by decide

/-- R153: the long wait is logged strictly past LONG_WAIT_MS, before `wdt`, and not in the iteration that returns. -/
theorem test_gate_long_wait :
    ((stuck talkative [0, 1000, 2001, 6000]).waitUntilIdle 5000).2.tr
      = [.busy true, .now 0, .busy true, .now 1000, .wdt, .yield, .sleep 1000,
        .busy true, .now 2001, .log .longWait, .wdt, .yield, .sleep 1000, .busy true, .now 6000, .log .idleTimeout] := by
  decide

/-- R150 across gates: after a read of 7 and a sleep of 1000 the next gate reads no time before 1007. -/
theorem test_time_axiom_across_gates :
    ({ stuck small [8] with lastNow := some 7, slept := 1000 }).nowMs.1 = 1007
    ∧ ({ stuck small [2000] with lastNow := some 7, slept := 1000 }).nowMs.1 = 2000 := by decide

/-! ## The step pointer (R27) -/

/-- A running operation at a position, the frame latched. -/
def runningAt (p : Seq) (f : Frame) : State := { ready small drawnFb with seq := p, done := false, opf := f }

/-- R122: from FILL's first statement through its body to READY. -/
theorem test_pointer_fill :
    [Seq.entry .fill, .fill .planes, .fill .value1, .fill .value2, .fill .plane1, .fill .plane2, .fill .ret].map
      (fun p => after (step (runningAt p 0x0200000000FF000000)) State.seq)
      = [Seq.fill .planes, .fill .value1, .fill .value2, .fill .plane1, .fill .plane2, .fill .ret, .ready].map some := by
  decide

/-- R123, R124: the range check's `if`, taken at (10, 0) and passed over at (9, 2). -/
theorem test_pointer_range :
    [(Seq.setPixel .coordY, (0x030000000AFF000000 : Frame)), (.setPixel .outside, 0x030000000AFF000000),
      (.setPixel .coordY, 0x0300020009FF000000), (.setPixel .plane1, 0x0300020009FF000000),
      (.getPixel .coordY, 0x040000000A00000000), (.getPixel .zero, 0x040000000A00000000),
      (.getPixel .coordY, 0x040002000900000000), (.getPixel .bit2, 0x040002000900000000)].map
      (fun c => after (step (runningAt c.1 c.2)) State.seq)
      = [Seq.setPixel .outside, .ready, .setPixel .planes, .setPixel .plane2, .getPixel .zero, .getPixel .outside,
          .getPixel .offset, .getPixel .value].map some := by decide

/-- R123: the first of SET_PIXEL's two writes alone has been made between them; R227, R228: SET_DSBU and READ_REG (of a
register that exists, and of none) from their first statement on. -/
theorem test_pointer_statements :
    after (step (runningAt (.setPixel .plane1) 0x0300000000FFFFFFFF)) (fun t => (t.fb.read 0, t.fb.read 6, t.done))
      = some (0x7F, 0x80, false)
    ∧ after (step (runningAt (.entry .setDsbu) 0x060000000000000001)) (fun t => (t.dsbu, t.seq, t.done))
      = some (true, .setDsbu .ret, false)
    ∧ after (step (runningAt (.entry .readReg) 0x070000000300000000)) (fun t => (t.resValue, t.seq))
      = some (10, .readReg .ret)
    ∧ after (step (runningAt (.entry .readReg) 0x070000000800000000)) State.seq = some (.readReg .zero) := by decide

/-! ## SETUP and DISPLAY (P1, P2, P4, P5; W9) -/

/-- P1 step 1. -/
theorem test_setup_trace : sent .setup (fresh small) =
    some ([Event.cfg .dc .out, Event.cfg .rst .out, Event.line .rst true, Event.cfg .busy .input,
        Event.line .rst false, Event.sleep 11, Event.line .rst true, Event.sleep 12, Event.busy false] ++ evCmd 0x12 ++ [Event.busy false]
      ++ evCmd 0x01 ++ evDat [0x02, 0x00, 0xC0] ++ evCmd 0x0C ++ evDat [0xC1, 0xC2, 0xC3] ++ evCmd 0x2C ++ evDat [0xC4]
      ++ evCmd 0x3A ++ evDat [0xC5] ++ evCmd 0x3B ++ evDat [0xC6] ++ evCmd 0x11 ++ evDat [0xC7]
      ++ evCmd 0x21 ++ evDat [0xC8, 0xC9]) := by decide +kernel
theorem test_setup_timeout :
    after (exec .setup { fresh small with busyIn := List.replicate 9 true, timeIn := [0, 0, 6000] })
      (fun t => (t.resStatus, t.warning, t.setupDone, t.panelState)) = some (1, true, true, .uninitialized) := by decide

/-- P2 step 1. -/
theorem test_display_full_trace : sent .display (ready small drawnFb) =
    some ([Event.busy false] ++ evCmdDat 0x32 (List.replicate 70 0xA1) ++ evCmd 0x2C ++ evDat [0xD0] ++ evCmd 0x3C
      ++ evDat [0xD3] ++ evCmd 0x44 ++ evDat [0x00, 0x01] ++ evCmd 0x45 ++ evDat [0x00, 0x00, 0x02, 0x00] ++ evCmd 0x4E
      ++ evDat [0x00] ++ evCmd 0x4F ++ evDat [0x00, 0x00] ++ [Event.busy false]
      ++ evCmd 0x24 ++ evDat [0xFF, 0xFF, 0xFF, 0xFF, 0xFF, 0xBF] ++ evCmd 0x26 ++ evDat [0x80, 0, 0, 0, 0, 0]
      ++ evCmd 0x22 ++ evDat [0xD5] ++ evCmd 0x20 ++ evCmd 0xFF) := by decide +kernel

/-- P2 step 3 (the last call of a cycle: partial, WARNING cleared, the counter wraps), P5 step 2 (the sleep, whose
STATUS is `0x7E`) and W9 (stuck at the first gate). -/
theorem test_display_modes :
    after (exec .display { ready small drawnFb with atUpdate := 2, warning := true })
      (fun t => (t.full, t.prev, t.warning, t.atUpdate)) = some (false, false, false, 0)
    ∧ after (exec .display { ready small drawnFb with dsbu := true })
      (fun t => (t.panelState, t.dsbu, t.setupDone, t.warning, t.atUpdate)) = some (.sleeping, true, true, false, 1)
    ∧ after (exec .display (stuck small [0, 0, 6000])) (fun t => (t.resStatus, t.warning, t.atUpdate, commandBytes t.tr))
      = some (1, true, 0, []) := ⟨by decide, by decide, by decide⟩

/-! ## Cadence (set 2.9, W5) -/

theorem test_cadence : nextUpdate 0xFFFFFFFF 0xFFFFFFFE = 0
    ∧ ((List.range 6).map (fun k => (nextUpdate 5)^[k] 3) = [3, 4, 0, 1, 2, 3]) := by decide
theorem test_cadence_one : nextUpdate 1 0 = 0 ∧ nextUpdate 0 0 = 0 := by decide

/-! ## Refusals and reset (sets 2.11, 2.12, P6) -/

theorem test_illegal_before_setup : after (step { State.construct small with hostIn := [0x090000000000000000] })
    (fun t => (t.resStatus, t.tr, t.opf)) = some (2, [], 0) := by decide
theorem test_seqError_before_range : after (exec (.getPixel (-1) 0) (State.construct small)) State.resStatus = some 4 := by
  decide
theorem test_reset : (State.construct reference).statusWord = 0x60 ∧ (State.construct reference).tr = []
    ∧ after (exec (.readReg 0) (State.construct reference)) State.seq = some .ready := by decide

/-- A table word runs as the first instruction after reset. -/
theorem test_first_frame : after (step (State.reset.withFetchWord 72 0x060000000000000001)) State.dsbu = some true := by
  decide
theorem test_first_opcode : after (step (State.reset.withFetchWord 8 0xFF)) State.tr = some (evCmd 0xFF) := by decide

/-! ## Witnesses: for every obligation with hypotheses, inputs that meet them, clause by clause -/

theorem witness_ConstructionRefusesBadRecords :
    State.build { smallRecord with cw := 12 } = .refused .misconfigured
    ∧ State.build smallRecord = .next (State.construct small)
    ∧ largest.cw.toNat = 2048 ∧ largest.vw.toNat = 2048 ∧ largest.h.toNat = 65536
    ∧ ¬ ({ smallRecord with opc := { Config.opcodes with border := 0x32 } }).opc.all.Nodup := ⟨rfl, rfl, by decide⟩

theorem witness_ConstructionRefusesBadRecords_bounds :
    ∀ r ∈ [{ smallRecord with cw := 0 }, { smallRecord with cw := 2056 }, { smallRecord with vw := 0 },
      { smallRecord with vw := 17 }, { smallRecord with h := 0 }, { smallRecord with h := 65537 },
      { smallRecord with pollMs := 0 }, { smallRecord with idleTimeoutMs := 2147482648 }],
      ¬ (r.cw.toNat % 8 = 0 ∧ 8 ≤ r.cw.toNat ∧ r.cw.toNat ≤ 2048 ∧ 1 ≤ r.vw.toNat ∧ r.vw.toNat ≤ r.cw.toNat
        ∧ 1 ≤ r.h.toNat ∧ r.h.toNat ≤ 65536 ∧ r.lutFull.length = 70 ∧ r.lutPartial.length = 70
        ∧ 1 ≤ r.pollMs.toNat ∧ r.idleTimeoutMs.toNat + r.pollMs.toNat < 2 ^ 31) := by decide

theorem witness_ReadyBlockWaits : (ready small []).seq = .ready ∧ (ready small []).hostIn = [] := ⟨rfl, rfl⟩

theorem witness_StepRunsTheFrameAtThePort :
    ((ready small []).placeFrame 0x050000000000000000).seq = .ready
    ∧ ((ready small []).placeFrame 0x050000000000000000).done = true
    ∧ ((ready small []).placeFrame 0x050000000000000000).hostIn = 0x050000000000000000 :: []
    ∧ decodeFrame 0x050000000000000000 = .ok .display := by decide

/-- A position that sends a command, the entry of an operation, and another position that sends none. -/
theorem witness_StepRunsTheCommandAtThePointer :
    commandAt (.display .terminate) = some .terminate
    ∧ commandAt (.entry .readReg) = none ∧ Seq.entry .readReg ≠ .ready
    ∧ commandAt (.display .gateRam) = none ∧ Seq.display .gateRam ≠ .ready := by decide

theorem witness_FramesAreTakenOnlyWhenReady :
    (∃ t, step { ready small [] with seq := .display .terminate, done := false } = .next t)
    ∧ (∃ t, step { ready small [] with done := false, hostIn := [0x050000000000000000] } = .next t)
    ∧ ∃ t, step ((ready small []).placeFrame 0x060000000000000001) = .next t := ⟨answers _ (by decide), answers _ (by decide), answers _ (by decide)⟩

theorem witness_IllegalFrameIsAnswered :
    frameOp 0x00FFFFFFFFFFFFFFFF = 0x00 ∧ 0x08 ≤ (frameOp 0x080000000000000000).toNat
    ∧ 0x08 ≤ (frameOp 0xFF0000000000000000).toNat
    ∧ ((ready small []).placeFrame 0x080000000000000000).hostIn = 0x080000000000000000 :: [] := by decide

theorem witness_SeqErrorIsAnswered :
    (ready small []).setupDone = true ∧ (fresh small).setupDone = false ∧ ∃ c, Instr.fill red = .fill c :=
  ⟨rfl, rfl, red, rfl⟩

theorem witness_EveryHostOperationEnds : ∃ x y c, Instr.setPixel (-1) 250 red = .setPixel x y c := ⟨_, _, _, rfl⟩

theorem witness_DecodeOfEncodeIsTheInstruction :
    Config.opcodes.distinct = true ∧ (Instr.setPixel (-32768) 32767 red).wf = true
    ∧ (Instr.getPixel 32767 (-32768)).wf = true := by decide

theorem witness_UnreadFrameBitsAreIgnored :
    frameOp 0x02AAAAAAAAFF000000 = frameOp 0x0255555555FF000000
    ∧ frameB 0x02AAAAAAAAFF000000 = frameB 0x0255555555FF000000
    ∧ frameA 0x0400020009AAAAAAAA = frameA 0x040002000955555555
    ∧ (0x06FFFFFFFFFFFFFFFE : Frame).getLsbD 0 = (0x060000000000000000 : Frame).getLsbD 0 := by decide

theorem witness_OpcodeNamesItsCommand : Config.opcodes.distinct = true := by decide

theorem witness_ByteWriteReadsBack : Memory.wf drawnFb := by decide

theorem witness_MemWriteIsAscendingByteWrites : Memory.wf redFb := by decide

theorem witness_FillSetsBothPlanes :
    frameOp 0x0200000000FF000000 = 0x02 ∧ (ready small redFb).setupDone = true ∧ (fresh small).setupDone = false :=
  ⟨by decide, rfl, rfl⟩

/-- The corners of the visible area and the coordinates just outside them. -/
theorem witness_SetPixelSetsOnePixel :
    frameOp 0x0300020009FF000000 = 0x03 ∧ (ready small drawnFb).fb.wf ∧ (ready small drawnFb).setupDone = true
    ∧ ((0 : Int) ≤ 0 ∧ (9 : Int) < (ready small drawnFb).params.vw.toNat ∧ (2 : Int) < (ready small drawnFb).params.h.toNat)
    ∧ ¬ (0 ≤ (10 : Int) ∧ (10 : Int) < (ready small drawnFb).params.vw.toNat ∧ 0 ≤ (0 : Int)
      ∧ (0 : Int) < (ready small drawnFb).params.h.toNat)
    ∧ ¬ (0 ≤ (-1 : Int)) ∧ (fresh small).setupDone = false := by decide

theorem witness_GetPixelReturnsThePlaneCode :
    frameOp 0x047FFF800000000000 = 0x04
    ∧ (ready small drawnFb).setupDone = true ∧ (9 : Int) < (ready small drawnFb).params.vw.toNat
    ∧ (2 : Int) < (ready small drawnFb).params.h.toNat ∧ ¬ (3 : Int) < (ready small drawnFb).params.h.toNat
    ∧ (fresh small).setupDone = false := by decide

theorem witness_DrawnPixelReadsBack :
    (ready small drawnFb).fb.wf ∧ (ready small drawnFb).setupDone = true ∧ (9 : Int) < (ready small drawnFb).params.vw.toNat
    ∧ (∃ t, exec (.setPixel 9 2 red) (ready small drawnFb) = .next t)
    ∧ ∃ t, exec (.fill white) (ready small drawnFb) = .next t := ⟨by decide, rfl, by decide, answers _ (by decide), answers _ (by decide)⟩

theorem witness_FillAgreesWithSetPixel :
    (ready small drawnFb).fb.wf ∧ (ready small drawnFb).setupDone = true ∧ 9 < (ready small drawnFb).params.vw.toNat
    ∧ 2 < (ready small drawnFb).params.h.toNat ∧ (∃ t, exec (.fill red) (ready small drawnFb) = .next t)
    ∧ ∃ u, exec (.setPixel 9 2 red) (ready small drawnFb) = .next u :=
  ⟨by decide, rfl, by decide, by decide, answers _ (by decide), answers _ (by decide)⟩

/-- Another pixel of the same byte. -/
theorem witness_SetPixelTouchesNoOtherPixel :
    (ready small drawnFb).fb.wf ∧ 15 < (ready small drawnFb).params.cw.toNat ∧ 2 < (ready small drawnFb).params.h.toNat
    ∧ ((15 : Int) ≠ 9 ∨ (2 : Int) ≠ 2) ∧ ∃ t, exec (.setPixel 9 2 red) (ready small drawnFb) = .next t :=
  ⟨by decide, by decide, by decide, by decide, answers _ (by decide)⟩

theorem witness_SetDsbuWritesDsbu : frameOp 0x06FFFFFFFFFFFFFFFE = 0x06 := by decide

theorem witness_ReadRegReturnsTheRegister :
    frameOp 0x070000000600000000 = 0x07 ∧ (7 : U32).toNat < 8 ∧ 8 ≤ (8 : U32).toNat ∧ 8 ≤ (0xFFFFFFFF : U32).toNat := by
  decide

theorem witness_ModeCommandsSendTheModesBytes :
    ({ fresh small with seq := .setup (.init .vcom) }).seq = .setup (.init .vcom)
    ∧ ({ fresh small with seq := .display (.wake .vcom) }).seq = .display (.wake .vcom)
    ∧ ∀ q, ({ fresh small with seq := .display .vcom }).seq ≠ .setup (.init q)
        ∧ ({ fresh small with seq := .display .vcom }).seq ≠ .display (.wake q) :=
  ⟨rfl, rfl, fun _ => ⟨(nomatch ·), (nomatch ·)⟩⟩

theorem witness_StreamAndActivationCommands :
    PanelState.busy = (if (ready small []).panelState = .uninitialized ∨ (ready small []).panelState = .sleeping
      then (ready small []).panelState else .busy)
    ∧ bare.cal.sleepData = [] ∧ small.cal.sleepData ≠ [] := by decide

/-- A position of `Init` with PANEL_STATE as its clause asks, its last statement, and positions outside `Init`: a RAM
write, the sleep, and a gate that finds BUSY. -/
theorem witness_PanelStateMovesAsTheTableSays :
    ∀ c ∈ [(Seq.setup (.init .start), PanelState.idle), (.display (.wake .finish), .uninitialized),
      (.setup (.init .finish), .uninitialized), (.display .writeBw, .idle), (.display .sleep, .busy),
      (.display .gateStart, .busy), (.display .activate, .sleeping)],
      (insideInit c.1 = true → c.2 = .uninitialized)
      ∧ (after (runStatement c.1 { ready small drawnFb with seq := c.1, panelState := c.2 }).outcome
          State.panelState).isSome = true := by decide

theorem witness_GateFastPaths :
    (ready bare []).params.hasBusy = false ∧ (ready small []).params.hasBusy = true
    ∧ (ready small []).busyIn = (!(ready small []).params.busyActiveLevel) :: List.replicate 7 false := by decide

/-- No busy line; a pass at the first sample and one after it; a fail. -/
theorem witness_GateChangesNothingElse :
    (ready bare []).params.hasBusy = false ∧ (ready small []).params.hasBusy = true
    ∧ (∃ t, (ready bare []).waitUntilIdle 5000 = (true, t)) ∧ (∃ t, (ready small []).waitUntilIdle 5000 = (true, t))
    ∧ (∃ t, ({ stuck small [7, 7] with busyIn := [true, false] }).waitUntilIdle 5000 = (true, t))
    ∧ ∃ t, (stuck small [0, 0, 6000]).waitUntilIdle 5000 = (false, t) :=
  ⟨by decide, by decide, ⟨_, Prod.ext (by decide) rfl⟩, ⟨_, Prod.ext (by decide) rfl⟩, ⟨_, Prod.ext (by decide) rfl⟩,
    ⟨_, Prod.ext (by decide) rfl⟩⟩

theorem witness_GateFailsOnlyAfterTheTimeout :
    ∃ t, (stuck small [0, 0, 6000]).waitUntilIdle (stuck small [0, 0, 6000]).params.idleTimeoutMs = (false, t) :=
  ⟨_, Prod.ext (by decide) rfl⟩

/-- A pass at the first sample, one after polling and a fail, none with a long wait below the timeout; and a fail of an
instance that logs long waits. -/
theorem witness_GateTraceIsThatOfTheLoop :
    (∀ s ∈ [ready small [], { stuck small [7, 7] with busyIn := [true, true, false] }, stuck small [0, 0, 6000]],
      s.params.hasBusy = true ∧ s.params.idleTimeoutMs ≤ s.params.longWaitMs)
    ∧ (∃ t, (ready small []).waitUntilIdle (ready small []).params.idleTimeoutMs = (true, t))
    ∧ (∃ t, ({ stuck small [7, 7] with busyIn := [true, true, false] }).waitUntilIdle
        (stuck small [7, 7]).params.idleTimeoutMs = (true, t))
    ∧ (∃ t, (stuck small [0, 0, 6000]).waitUntilIdle (stuck small [0, 0, 6000]).params.idleTimeoutMs = (false, t))
    ∧ (stuck talkative [0, 1000, 2001, 6000]).params.hasBusy = true
    ∧ ∃ t, (stuck talkative [0, 1000, 2001, 6000]).waitUntilIdle
        (stuck talkative [0, 1000, 2001, 6000]).params.idleTimeoutMs = (false, t) :=
  ⟨by decide, ⟨_, Prod.ext (by decide) rfl⟩, ⟨_, Prod.ext (by decide) rfl⟩, ⟨_, Prod.ext (by decide) rfl⟩, by decide,
    ⟨_, Prod.ext (by decide) rfl⟩⟩

/-- The eight samples the bound admits at `T = 5000`, `POLL_MS = 1000`, before SETUP and after it. -/
theorem witness_StuckBusyEndsInIdleTimeout :
    (∀ s ∈ [{ fresh small with busyIn := List.replicate 9 true }, stuck small []],
      s.params.hasBusy = true
      ∧ s.busyIn
        = List.replicate (s.params.idleTimeoutMs.toNat / s.params.pollMs.toNat + 3) s.params.busyActiveLevel ++ [true])
    ∧ (fresh small).setupDone = false ∧ (stuck small []).setupDone = true := by decide

theorem witness_GateKeepsTheHostAlive :
    ((stuck impatient [7, 7, 1007]).waitUntilIdle 0).2.tr
      = (stuck impatient [7, 7, 1007]).tr ++ [Event.busy true, Event.now 7, Event.busy true, Event.now 7]
        ++ [Event.wdt, Event.yield] ++ [Event.sleep (stuck impatient [7, 7, 1007]).params.pollMs]
        ++ [Event.busy true, Event.now 1007, Event.log .idleTimeout] := by decide

theorem witness_SetupRunsWhole : (fresh small).setupDone = false ∧ (fresh small).idleFor 2 ∧ (fresh bare).idleFor 2 :=
  ⟨rfl, fun _ => ⟨List.replicate 6 false, rfl⟩, fun h => nomatch h⟩

theorem witness_SetupEndsOkOrTimeout : (fresh small).setupDone = false := rfl

theorem witness_DisplayRunsWhole :
    (ready small drawnFb).setupDone = true ∧ (ready small drawnFb).idleFor 2
    ∧ ({ ready small drawnFb with dsbu := true }).idleFor 4 :=
  ⟨rfl, fun _ => ⟨List.replicate 6 false, rfl⟩, fun _ => ⟨List.replicate 4 false, rfl⟩⟩

/-- What a sequence that goes on leaves. -/
def goesOn : Flow → Option State
  | .go s => some s
  | .ended _ => none
  | .fault _ => none

/-- BUSY inactive at the next samples as listed, then stuck. -/
def stuckAfter (levels : List Bool) (dsbu : Bool) (times : List U32) : State :=
  { stuck small times with dsbu := dsbu, busyIn := levels ++ List.replicate 9 true }

/-- Stuck at the wake's first gate, and at its second. -/
theorem witness_DisplayAbortsInTheWake :
    ∀ levels ∈ [[], [false]],
      (stuckAfter levels true [0, 0, 6000]).setupDone = true ∧ (stuckAfter levels true [0, 0, 6000]).dsbu = true
      ∧ (match runList wakeProgram ((stuckAfter levels true [0, 0, 6000]).start .display) with
          | .ended _ => true
          | .go _ => false
          | .fault _ => false) = true := by decide

/-- Stuck at step 2, with DSBU = 0 and after a wake. -/
theorem witness_DisplayAbortsAtTheFirstGate :
    ∀ c ∈ [(false, []), (true, [false, false])],
      (stuckAfter c.2 c.1 [0, 0, 6000]).setupDone = true
      ∧ ((goesOn (runList wakeProgram ((stuckAfter c.2 c.1 [0, 0, 6000]).start .display))).map
          (fun u => (({ u with seq := .display .gateStart }).waitUntilIdle
            (stuckAfter c.2 c.1 [0, 0, 6000]).params.idleTimeoutMs).1)) = some false := by decide

/-- P4 step 1, stuck at step 10: after a step-2 gate that passes at once, one that passes after polling, and, with
DSBU = 1, one that passes after polling behind a wake. -/
theorem witness_DisplayAbortAtTheSecondGateConsumesASlot :
    ∀ c ∈ [(false, [false]), (false, [true, false]), (true, [false, false, true, false])],
      (stuckAfter c.2 c.1 [0, 0, 0, 6000]).setupDone = true
      ∧ (goesOn (runList (wakeProgram ++ [.display .gateStart])
          ((stuckAfter c.2 c.1 [0, 0, 0, 6000]).start .display))).isSome = true
      ∧ after (exec .display (stuckAfter c.2 c.1 [0, 0, 0, 6000])) State.resStatus = some 1 := by decide

/-- OK after polling, with either DSBU; TIMEOUT before the mode is sampled and after. -/
theorem witness_DisplayEndsOkOrTimeout :
    ∀ c ∈ [({ stuck small [0, 0] with busyIn := [true, true, false, false] }, 0),
      ({ stuck small [0, 0] with dsbu := true, busyIn := [true, false, false, false, false] }, 0),
      (stuck small [0, 0, 6000], 1), (stuckAfter [false] false [0, 0, 6000], 1)],
      c.1.setupDone = true ∧ after (exec .display c.1) State.resStatus = some c.2 := by decide

theorem witness_PanelRamEqualsTheFramebuffer :
    (ready small drawnFb).setupDone = true ∧ after (exec .display (ready small drawnFb)) State.resStatus = some 0 := by
  decide

theorem witness_CadenceCountsModuloN : (0xFFFFFFFF : U32) ≠ 0 ∧ (0xFFFFFFFE : U32) < 0xFFFFFFFF ∧ (1 : U32) ≠ 0
    ∧ (0 : U32) < 1 := by decide

theorem witness_LutIsReloadedAtTheModeChange :
    (ready small []).atUpdate = 0 ∧ ({ ready small [] with atUpdate := 1 }).atUpdate = 1 := ⟨rfl, rfl⟩

theorem witness_OnlySetupAndDisplayWriteWarning :
    Instr.terminate ≠ .setup ∧ Instr.terminate ≠ .display ∧ ∃ t, exec .terminate (ready small []) = .next t :=
  ⟨by decide, by decide, answers _ (by decide)⟩

theorem witness_OnlySetDsbuWritesDsbu : (∀ b, Instr.setup ≠ .setDsbu b) ∧ ∃ t, exec .setup (fresh small) = .next t :=
  ⟨fun _ h => (nomatch h), answers _ (by decide)⟩

theorem witness_OnlyDisplayWritesAtUpdate : Instr.setup ≠ .display ∧ ∃ t, exec .setup (fresh small) = .next t :=
  ⟨by decide, answers _ (by decide)⟩

theorem witness_PanelCommandsTouchOnlyTheLink : Instr.deepSleep ∈ panelCommands ∧ Instr.lut ∈ panelCommands := by decide

/-- A state of a running DISPLAY that meets the invariant, holds no reserved code and sends known commands. -/
def running : State := { ready small drawnFb with seq := .display .terminate, done := false, resStatus := 4 }

/-- The states between FILL's and SET_PIXEL's two plane writes. -/
def betweenPlanes : List State :=
  [{ ready small whiteFb with seq := .fill .plane2, done := false, opf := 0x0200000000FF000000 },
    { ready small drawnFb with seq := .setPixel .plane2, done := false, opf := 0x030000000000000000 }]

theorem running_inv : running.Inv :=
  ⟨by decide, by decide, ⟨by decide, by decide⟩, by decide, by decide, by decide, by unfold framed; decide,
    by unfold State.pixelInside; decide, by decide⟩

theorem witness_EveryStepKeepsTheInvariant : running.Inv ∧ ∃ t, step running = .next t := ⟨running_inv, answers _ (by decide)⟩

/-- A state past the range check, and the invariant there. -/
theorem witness_EveryStateSteps :
    (runningAt (.setPixel .plane2) 0x0300020009FF000000).pixelInside
    ∧ pastRangeCheck (runningAt (.setPixel .plane2) 0x0300020009FF000000).seq = true := by
  unfold State.pixelInside
  decide

/-- The refresh at the terminate-frame command, and both operations between their plane writes. -/
theorem witness_NoStepWritesTheReservedCode :
    running.Inv ∧ ∀ s ∈ running :: betweenPlanes, s.settled.noReservedCode
      ∧ after (step s) (fun t => t.seq) = (laterPositions s.seq).head? := by
  refine ⟨running_inv, ?_⟩
  unfold State.noReservedCode
  decide

theorem witness_TimeReadsKeepTheAxiom :
    ({ running with tr := [.now 7, .sleep 1000, .now 1007, .sleep 5], lastNow := some 1007, slept := 5 }).timeKept
    ∧ ∃ t, step { running with tr := [.now 7, .sleep 1000, .now 1007, .sleep 5], lastNow := some 1007, slept := 5 }
      = .next t := ⟨by unfold State.timeKept; decide, answers _ (by decide)⟩

theorem witness_EveryCommandByteIsAnOpcode : running.knownCommands ∧ ∃ t, step running = .next t :=
  ⟨by unfold State.knownCommands; decide, answers _ (by decide)⟩

theorem witness_ParametersAreFixed : ∃ t, step (fresh small) = .next t := answers _ (by decide)

theorem witness_TraceOnlyGrows : ∃ t, step running = .next t := answers _ (by decide)

theorem witness_StatementStepsReachTheWholeOperation :
    ((runningAt (.entry .getPixel) 0x040002000900000000).done = false
      ∧ decodeFrame 0x040002000900000000 = .ok (.getPixel 9 2) ∧ hostOpOf (.getPixel 9 2) = some .getPixel)
    ∧ setupProgram.dropWhile (fun q => !seqEnabled q { fresh small with seq := .setup .cfgDc })
      = .setup .cfgDc :: setupProgram.tail
    ∧ displayProgram.dropWhile (fun q => !seqEnabled q { ready small [] with seq := .display .gateStart })
      = .display .gateStart :: displayProgram.drop 17 := by decide

end Sys2Proof.Machine.Tests
end

namespace Sys2Proof.Machine

/-! ## Every command byte the block sends is one of the 21 opcodes (R105)

The claim is about the bytes of the trace alone, so a statement keeps it if what it appends sends known opcodes,
whatever the level of DC before it. -/

/-- Every byte the events send with DC = 0 is one of `ops`, at whatever level DC stands before them. -/
def CommandsIn (ops : List Byte) (es : List Event) : Prop := ∀ dc b, (false, b) ∈ linkBytes dc es → b ∈ ops

/-- R89: the command bytes of a trace are its link bytes sent with DC = 0. -/
theorem mem_commandBytes (tr : List Event) (b : Byte) : b ∈ commandBytes tr ↔ (false, b) ∈ linkBytes false tr := by
  simp [commandBytes]

/-- A gate's events send no byte. -/
theorem commandsIn_quiet (ops : List Byte) (es : List Event) (h : ∀ e ∈ es, e.quiet = true) : CommandsIn ops es := by
  intro dc b hb
  simp [linkBytes_quiet dc es h] at hb

/-- Line events send no byte. -/
theorem commandsIn_lineSetup (ops : List Byte) (es : List Event) (h : ∀ e ∈ es, e.lineSetup = true) :
    CommandsIn ops es := by
  intro dc b hb
  simp [(linkBytes_lineSetup dc es h).1] at hb

/-- A panel command sends its opcode with DC = 0 and its data with DC = 1. -/
theorem LinkCommand.commandsIn {ops : List Byte} {b : Byte} {es : List Event} (h : LinkCommand b es) (hb : b ∈ ops) :
    CommandsIn ops es := by
  intro dc c hc
  obtain ⟨bs, hbs⟩ := h.bytes dc
  have hcb : c = b := by simpa [hbs] using hc
  exact hcb ▸ hb

/-- Events that send known opcodes, appended under the same parameters, keep `knownCommands`. -/
theorem State.knownCommands_append {s t : State} (hs : s.knownCommands) (hp : t.params = s.params) (es : List Event)
    (ht : t.tr = s.tr ++ es) (hes : CommandsIn s.params.opc.all es) : t.knownCommands := by
  intro b hb
  rw [mem_commandBytes, ht, linkBytes_append, List.mem_append] at hb
  rw [hp]
  rcases hb with hb | hb
  · exact hs b ((mem_commandBytes s.tr b).mpr hb)
  · exact hes _ b hb

/-- What part of a gate appends keeps `knownCommands`. -/
theorem GateChange.knownCommands {s t : State} (h : GateChange s t) (hs : s.knownCommands) : t.knownCommands := by
  obtain ⟨es, htr, hq, -⟩ := h.2
  exact State.knownCommands_append hs h.params es htr (commandsIn_quiet _ es hq)

/-- Every statement keeps `knownCommands`: only a panel command sends bytes, and its opcode is one of the 21. -/
theorem Effect.knownCommands {p : Seq} {s t : State} {r : Flow} (e : Effect p s r) (hs : s.knownCommands)
    (h : r.outcome = .next t) : t.knownCommands := by
  cases e <;> cases h
  case lines es _ hl _ => exact State.knownCommands_append hs rfl es rfl (commandsIn_lineSetup _ es hl)
  case link es _ _ _ hb hl _ => exact State.knownCommands_append hs rfl es rfl (hl.commandsIn hb)
  case passed hg => exact hg.knownCommands hs
  case aborted hg => exact hg.knownCommands hs
  all_goals exact hs

/-- `knownCommands` speaks of the trace and the parameters, so no pointer move and no statement breaks it. -/
theorem kept_knownCommands : Kept (fun _ => True) State.knownCommands where
  moved _ _ _ hs := hs
  effect _ _ _ _ _ hs e h := e.knownCommands hs h

/-- Construction leaves an empty trace (R280). -/
theorem construct_knownCommands (p : Params) : (State.construct p).knownCommands := by
  intro b hb
  simp [State.construct, commandBytes, linkBytes] at hb

/-- Settles O56: an empty trace at reset, and every step keeps the claim because every statement does. -/
theorem everyCommandByteIsAnOpcode : Obligations.EveryCommandByteIsAnOpcode := by
  unfold Obligations.EveryCommandByteIsAnOpcode
  exact ⟨construct_knownCommands, fun s t hs h => step_keeps kept_knownCommands (fun _ _ _ hu => hu) s t hs h⟩

end Sys2Proof.Machine

namespace Sys2Proof

/-! ## The framebuffer operations FILL, SET_PIXEL and GET_PIXEL (spec/40_framebuffer_ops.md)

Laws/Driver.lean gives the state each operation leaves. Below stand the fields of a frame, the plane bits and bytes of a
class, and a pixel's plane bits after a write; the statements are assembled from them. -/

/-! ### The fields of a frame (R80–R83) -/

/-- A field of `A` is the field of the frame 32 bits higher. -/
theorem extractLsb'_frameA (f : Frame) (i n : Nat) (h : i + n ≤ 32) :
    (frameA f).extractLsb' i n = f.extractLsb' (32 + i) n := by
  ext j hj
  have hlt : i + j < 32 := by omega
  simp [frameA, hlt, Nat.add_assoc]

theorem coordX_frameA (f : Frame) : coordX (frameA f) = (f.extractLsb' 32 16).toInt := by
  rw [coordX, extractLsb'_frameA f 0 16 (by decide)]

theorem coordY_frameA (f : Frame) : coordY (frameA f) = (f.extractLsb' 48 16).toInt := by
  rw [coordY, extractLsb'_frameA f 16 16 (by decide)]

/-- The components of the colour in `B` are the frame's four low bytes. -/
theorem colourOf_frameB (f : Frame) : colourOf (frameB f) =
    ⟨f.extractLsb' 24 8, f.extractLsb' 16 8, f.extractLsb' 8 8, f.extractLsb' 0 8⟩ := by
  have hbyte : ∀ i, i + 8 ≤ 32 → (frameB f).extractLsb' i 8 = f.extractLsb' i 8 :=
    fun _ h => BitVec.extractLsb'_extractLsb'_of_le h
  simp only [colourOf, hbyte, Nat.reduceAdd, Nat.reduceLeDiff]

/-- R81: the selector 0x02 is FILL of the colour in `B`. -/
theorem decodeFrame_fill (f : Frame) (h : frameOp f = 0x02) : decodeFrame f =
    .ok (.fill ⟨f.extractLsb' 24 8, f.extractLsb' 16 8, f.extractLsb' 8 8, f.extractLsb' 0 8⟩) := by
  simp [decodeFrame, h, colourOf_frameB]

/-- R81: the selector 0x03 is SET_PIXEL of the coordinates in `A` and the colour in `B`. -/
theorem decodeFrame_setPixel (f : Frame) (h : frameOp f = 0x03) : decodeFrame f =
    .ok (.setPixel (f.extractLsb' 32 16).toInt (f.extractLsb' 48 16).toInt
      ⟨f.extractLsb' 24 8, f.extractLsb' 16 8, f.extractLsb' 8 8, f.extractLsb' 0 8⟩) := by
  simp [decodeFrame, h, colourOf_frameB, coordX_frameA, coordY_frameA]

/-- R81: the selector 0x04 is GET_PIXEL of the coordinates in `A`. -/
theorem decodeFrame_getPixel (f : Frame) (h : frameOp f = 0x04) : decodeFrame f =
    .ok (.getPixel (f.extractLsb' 32 16).toInt (f.extractLsb' 48 16).toInt) := by
  simp [decodeFrame, h, coordX_frameA, coordY_frameA]

/-! ### The range check (R123) -/

/-- The range check as the four bounds on the coordinates. -/
theorem ParamRecord.inRange_iff_bounds (p : ParamRecord) (x y : Int) :
    p.inRange x y = true ↔ 0 ≤ x ∧ x < p.vw.toNat ∧ 0 ≤ y ∧ y < p.h.toNat := by
  simp [ParamRecord.inRange, and_assoc]

theorem ParamRecord.inRange_eq_false (p : ParamRecord) {x y : Int}
    (h : ¬ (0 ≤ x ∧ x < p.vw.toNat ∧ 0 ≤ y ∧ y < p.h.toNat)) : p.inRange x y = false := by
  rwa [← p.inRange_iff_bounds, Bool.not_eq_true] at h

/-- R9: an in-range pixel lies in the controller's area. -/
theorem Params.inRange_area (p : Params) {x y : Int} (h : p.inRange x y = true) :
    x.toNat < p.cw.toNat ∧ y.toNat < p.h.toNat := by
  obtain ⟨a, b, rfl, rfl, hx, hy⟩ := (p.inRange_iff x y).mp h
  obtain ⟨-, -, -, -, hv, -⟩ := p.geometry
  exact ⟨Nat.lt_of_lt_of_le hx hv, hy⟩

namespace Machine

/-! ### Classes, plane bits and bytes (R87, R120, R122) -/

theorem classify_eq_black_iff (c : Colour) :
    classify c = .black ↔ c.white = 255 ∧ c.red = 255 ∧ c.green = 255 ∧ c.blue = 255 := by
  unfold classify
  split_ifs with hb <;> simp only [hb, and_self]

/-- The match before RED's takes no colour from it: an all-255 colour has green 255, so it fails RED's condition. -/
theorem classify_eq_red_iff (c : Colour) :
    classify c = .red ↔ 0 < c.red.toNat ∧ c.green = 0 ∧ c.blue = 0 := by
  have hpos : 0 < c.red.toNat ↔ c.red ≠ 0 := by bv_omega
  rw [hpos]
  unfold classify
  split_ifs with hb hr
  · simp [hb]
  · simp only [hr, ne_eq, not_false_eq_true, and_self]
  · simp only [hr]

/-- WHITE is the class of what is neither BLACK nor RED. -/
theorem classify_eq_white_iff (c : Colour) :
    classify c = .white ↔ classify c ≠ .black ∧ classify c ≠ .red := by
  cases classify c <;> simp

/-- Settles O17: the class of each branch, RED's because an all-255 colour fails its condition. -/
theorem classifyIsThePartition : Obligations.ClassifyIsThePartition := by
  unfold Obligations.ClassifyIsThePartition
  intro c
  refine ⟨classify_eq_black_iff c, classify_eq_red_iff c, ?_⟩
  rw [classify_eq_white_iff, ne_eq, ne_eq, classify_eq_black_iff, classify_eq_red_iff]

/-- FILL's plane-1 byte is clear for BLACK alone. -/
theorem fillByte_planes_fst (k : ColourClass) : fillByte (planes k).1 = if k = .black then 0x00 else 0xFF := by
  cases k <;> rfl

/-- FILL's plane-2 byte is set for RED alone. -/
theorem fillByte_planes_snd (k : ColourClass) : fillByte (planes k).2 = if k = .red then 0xFF else 0x00 := by
  cases k <;> rfl

/-- SET_PIXEL clears the plane-1 bit for BLACK alone. -/
theorem plotBits_planes_fst (b m : Byte) (k : ColourClass) :
    plotBits b m (planes k).1 = if k = .black then b &&& ~~~m else b ||| m := by
  cases k <;> rfl

/-- SET_PIXEL sets the plane-2 bit for RED alone. -/
theorem plotBits_planes_snd (b m : Byte) (k : ColourClass) :
    plotBits b m (planes k).2 = if k = .red then b ||| m else b &&& ~~~m := by
  cases k <;> rfl

/-- A plane byte of FILL has the plane's bit in every column (R122). -/
theorem testBits_fillByte (p : Bool) (x : Nat) : testBits (fillByte p) (pixelMask x) = p := by
  have key : ∀ k : Fin 8, ∀ p : Bool, testBits (fillByte p) ((0x80 : Byte) >>> k.val) = p := by decide
  exact key ⟨x % 8, Nat.mod_lt _ (by decide)⟩ p

/-- The 2-bit plane code as a number (R87, R124). -/
theorem planeCode_zeroExtend (p : Bool × Bool) :
    (planeCode p).zeroExtend 32 = ((if p.1 then 2 else 0) + (if p.2 then 1 else 0) : U32) := by
  obtain ⟨p1, p2⟩ := p
  cases p1 <;> cases p2 <;> rfl

/-! ### A pixel's plane bits after a write -/

@[simp] theorem State.finish_pixelPlanes (s : State) (st : Status) (v : U32) (x y : Nat) :
    (s.finish st v).pixelPlanes x y = s.pixelPlanes x y := rfl

/-- FILL leaves the class's plane bits at every pixel of the controller's area (R122). -/
theorem State.pixelPlanes_fillPlanes (s : State) (c : Colour) (x y : Nat) (hx : x < s.params.cw.toNat)
    (hy : y < s.params.h.toNat) : (s.fillPlanes c).pixelPlanes x y = planes (classify c) := by
  have ho := s.params.pixelOff_lt x y hx hy
  have hl := s.params.bufLen_eq
  have h1 : (s.fillPlanes c).fb.read (s.params.pixelOff x y) = fillByte (planes (classify c)).1 := by
    rw [State.read_fillPlanes, if_pos ho]
  have h2 : (s.fillPlanes c).fb.read (s.params.half + s.params.pixelOff x y) = fillByte (planes (classify c)).2 := by
    rw [State.read_fillPlanes, if_neg (by omega), if_pos (by omega)]
  simp only [State.pixelPlanes, State.fillPlanes_params, h1, h2, testBits_fillByte]

/-- A pixel's plane bits after SET_PIXEL at `(x, y)` (R123), both pixels in the controller's area: they can change only
where the two pixels share their bytes. -/
theorem State.pixelPlanes_plotPixel (s : State) (x y : Nat) (c : Colour) (x' y' : Nat) (hw : s.fb.wf)
    (hx : x < s.params.cw.toNat) (hy : y < s.params.h.toNat) (hx' : x' < s.params.cw.toNat)
    (hy' : y' < s.params.h.toNat) :
    (s.plotPixel x y c).pixelPlanes x' y' =
      if s.params.pixelOff x' y' = s.params.pixelOff x y then
        (testBits (plotBits (s.fb.read (s.params.pixelOff x y)) (pixelMask x) (planes (classify c)).1) (pixelMask x'),
         testBits (plotBits (s.fb.read (s.params.half + s.params.pixelOff x y)) (pixelMask x) (planes (classify c)).2)
          (pixelMask x'))
      else s.pixelPlanes x' y' := by
  have ho := s.params.pixelOff_lt x y hx hy
  have ho' := s.params.pixelOff_lt x' y' hx' hy'
  simp only [State.pixelPlanes, State.plotPixel_params, State.read_plotPixel s x y c hw hx hy]
  by_cases h : s.params.pixelOff x' y' = s.params.pixelOff x y
  · rw [h, if_pos rfl, if_neg (by omega), if_pos rfl, if_pos rfl]
  · rw [if_neg h, if_neg (by omega), if_neg (by omega), if_neg (by omega), if_neg h]

/-- SET_PIXEL leaves the class's plane bits at its pixel (R123). -/
theorem State.pixelPlanes_plotPixel_same (s : State) (x y : Nat) (c : Colour) (hw : s.fb.wf)
    (hx : x < s.params.cw.toNat) (hy : y < s.params.h.toNat) :
    (s.plotPixel x y c).pixelPlanes x y = planes (classify c) := by
  rw [s.pixelPlanes_plotPixel x y c x y hw hx hy hx hy, if_pos rfl, testBits_plotBits, testBits_plotBits]

/-- SET_PIXEL's two writes leave every other pixel of the controller's area (R127): it lies in other bytes, or in the
same bytes and then in the same row and another column, so under a disjoint mask. -/
theorem State.pixelPlanes_plotPixel_of_ne (s : State) (x y : Nat) (c : Colour) (x' y' : Nat) (hw : s.fb.wf)
    (hx : x < s.params.cw.toNat) (hy : y < s.params.h.toNat) (hx' : x' < s.params.cw.toNat)
    (hy' : y' < s.params.h.toNat) (hne : x' ≠ x ∨ y' ≠ y) :
    (s.plotPixel x y c).pixelPlanes x' y' = s.pixelPlanes x' y' := by
  rw [s.pixelPlanes_plotPixel x y c x' y' hw hx hy hx' hy']
  split_ifs with hoff
  · obtain ⟨hrow, hbyte⟩ := pixelOff_inj_row s.params x' y' x y hx' hx hoff
    have hmask : pixelMask x &&& pixelMask x' = 0 := pixelMask_disjoint x x' (by omega)
    rw [testBits_plotBits_of_disjoint _ _ _ _ hmask, testBits_plotBits_of_disjoint _ _ _ _ hmask,
      State.pixelPlanes, hoff]
  · rfl

/-! ### The statements -/

/-- Settles O18: FILL's two plane writes, byte by byte, and its answer before SETUP. -/
theorem fillSetsBothPlanes : Obligations.FillSetsBothPlanes := by
  unfold Obligations.FillSetsBothPlanes
  refine ⟨decodeFrame_fill, fun s c => ⟨fun hs => ?_, execFill_early s c⟩⟩
  refine ⟨_, execFill_ready s c hs, rfl, fun i hi => ?_, fun i hlo hhi => ?_, fun i hi => ?_⟩
  all_goals rw [State.finish_fb, State.read_fillPlanes]
  · rw [if_pos hi, fillByte_planes_fst]
  · rw [if_neg (by omega), if_pos hhi, fillByte_planes_snd]
  · have hl := s.params.bufLen_eq
    rw [if_neg (by omega), if_neg (by omega)]

/-- Settles O19: the two byte writes of an in-range pixel, and the two answers that write nothing. -/
theorem setPixelSetsOnePixel : Obligations.SetPixelSetsOnePixel := by
  unfold Obligations.SetPixelSetsOnePixel
  refine ⟨decodeFrame_setPixel, fun s x y c hw =>
    ⟨fun hs hx hxv hy hyh => ?_, fun hs hout => ?_, execSetPixel_early s x y c⟩⟩
  · have hr := (s.params.inRange_iff_bounds x y).mpr ⟨hx, hxv, hy, hyh⟩
    obtain ⟨hxa, hya⟩ := s.params.inRange_area hr
    refine ⟨_, execSetPixel_inRange s x y c hs hr, rfl, fun i => ?_⟩
    rw [State.finish_fb, State.read_plotPixel s _ _ c hw hxa hya, plotBits_planes_fst, plotBits_planes_snd]
    rfl
  · exact execSetPixel_outside s x y c hs (s.params.inRange_eq_false hout)

/-- Settles O20: the plane code of the two bits under the pixel's mask, and the two answers that read none. -/
theorem getPixelReturnsThePlaneCode : Obligations.GetPixelReturnsThePlaneCode := by
  unfold Obligations.GetPixelReturnsThePlaneCode
  refine ⟨decodeFrame_getPixel, fun s x y =>
    ⟨fun hs hx hxv hy hyh => ?_, fun hs hout => ?_, execGetPixel_early s x y⟩⟩
  · have hr := (s.params.inRange_iff_bounds x y).mpr ⟨hx, hxv, hy, hyh⟩
    refine (execGetPixel_inRange s x y hs hr).trans ?_
    rw [planeCode_zeroExtend, State.pixelPlanes, testBits_mask, testBits_mask]
    rfl
  · exact execGetPixel_outside s x y hs (s.params.inRange_eq_false hout)

/-- Settles O22: both operations leave the class's plane bits at the pixel. -/
theorem fillAgreesWithSetPixel : Obligations.FillAgreesWithSetPixel := by
  unfold Obligations.FillAgreesWithSetPixel
  intro s t u x y c hw hs hx hy hfill hset
  have hr := (s.params.inRange_iff x y).mpr ⟨x, y, rfl, rfl, hx, hy⟩
  obtain ⟨hxa, hya⟩ : x < s.params.cw.toNat ∧ y < s.params.h.toNat := s.params.inRange_area hr
  obtain rfl := Host.Outcome.next.inj ((execFill_ready s c hs).symm.trans hfill)
  obtain rfl := Host.Outcome.next.inj ((execSetPixel_inRange s x y c hs hr).symm.trans hset)
  exact ⟨s.pixelPlanes_fillPlanes c x y hxa hya, s.pixelPlanes_plotPixel_same x y c hw hxa hya⟩

/-- SET_PIXEL run whole either writes its in-range pixel's two bits or leaves the framebuffer (R123, R252, R255). -/
theorem exec_setPixel_cases (s t : State) (x y : Int) (c : Colour) (h : exec (.setPixel x y c) s = .next t) :
    (s.params.inRange x y = true ∧ t = (s.plotPixel x.toNat y.toNat c).finish .ok 0)
      ∨ ∃ st, t = s.finish st 0 := by
  change execSetPixel x y c s = .next t at h
  cases hs : s.setupDone with
  | false => exact .inr ⟨_, Host.Outcome.next.inj (h.symm.trans (execSetPixel_early s x y c hs))⟩
  | true =>
    cases hr : s.params.inRange x y with
    | false => exact .inr ⟨_, Host.Outcome.next.inj (h.symm.trans (execSetPixel_outside s x y c hs hr))⟩
    | true => exact .inl ⟨rfl, Host.Outcome.next.inj (h.symm.trans (execSetPixel_inRange s x y c hs hr))⟩

/-- Settles O23: SET_PIXEL writes nothing, or its own pixel's two bits. -/
theorem setPixelTouchesNoOtherPixel : Obligations.SetPixelTouchesNoOtherPixel := by
  unfold Obligations.SetPixelTouchesNoOtherPixel
  intro s t x y c x' y' hw hx' hy' hne h
  rcases exec_setPixel_cases s t x y c h with ⟨hr, rfl⟩ | ⟨st, rfl⟩
  · obtain ⟨hxa, hya⟩ := s.params.inRange_area hr
    obtain ⟨a, b, rfl, rfl, -, -⟩ := (s.params.inRange_iff x y).mp hr
    exact s.pixelPlanes_plotPixel_of_ne a b c x' y' hw hxa hya hx' hy' (by omega)
  · rfl

end Machine
end Sys2Proof

namespace Sys2Proof.Machine

/-! ## The panel commands one at a time (spec/42_panel_protocol.md)

Laws/Panel.lean gives `Cmd` and `Cmd` then `Dat` as whole states. Below stand the state after a command whose payload is
spelled as the spec spells it, the state after a command that moves PANEL_STATE, and the payloads; the statements are
assembled from them. -/

/-! ### Commands as whole states -/

/-- `Cmd(b)` then `Dat` (R103), for a payload `bs` that the spec spells `ds`. -/
theorem State.cmd_dat_payload (s : State) (b : Byte) {bs ds : List Byte} (h : bs = ds) :
    (s.cmd b).dat bs = { s with dcLvl := true, cs := false, tr := s.tr ++ evCmd b ++ evDat ds } :=
  h ▸ s.cmd_dat_eq b bs

/-- A command that moves PANEL_STATE as R40 says, after its opcode (R186). -/
theorem State.cmd_markBusy_eq (s : State) (b : Byte) :
    (s.cmd b).markBusy
      = { s with dcLvl := false, cs := false, panelState := s.markBusy.panelState, tr := s.tr ++ evCmd b } := by
  rw [State.cmd_eq]
  rfl

/-- The stream of a plane (R184, R185): PANEL_STATE moves between the opcode and the data. -/
theorem State.cmd_markBusy_dat_payload (s : State) (b : Byte) {bs ds : List Byte} (h : bs = ds) :
    (s.cmd b).markBusy.dat bs
      = { s with
          dcLvl := true
          cs := false
          panelState := s.markBusy.panelState
          tr := s.tr ++ evCmd b ++ evDat ds } := by
  rw [State.dat_eq, State.cmd_markBusy_eq, h]

/-- Panel sleep without sleep data (R189). -/
theorem sendDeepSleep_of_no_data (s : State) (h : s.params.cal.sleepData = []) :
    sendDeepSleep s
      = { s with
          dcLvl := false, cs := false, panelState := .sleeping, tr := s.tr ++ evCmd s.params.opc.deepSleep } := by
  rw [sendDeepSleep, if_pos h, State.cmd_eq]

/-- Panel sleep with sleep data (R189). -/
theorem sendDeepSleep_of_data (s : State) (h : s.params.cal.sleepData ≠ []) :
    sendDeepSleep s
      = { s with
          dcLvl := true
          cs := false
          panelState := .sleeping
          tr := s.tr ++ evCmd s.params.opc.deepSleep ++ evDat s.params.cal.sleepData } := by
  rw [sendDeepSleep, if_neg h, State.cmd_dat_eq]

/-! ### Payloads -/

/-- A calibration record's bytes in order (R103). -/
theorem toList_eq_ofFn {n : Nat} (v : Vector Byte n) : v.toList = List.ofFn (fun i : Fin n => v[i.val]) := by
  rw [← Vector.toList_ofFn, Vector.ofFn_getElem]

/-- Driver output's payload (R179, R104). -/
theorem driverOutput_payload (p : Params) :
    p.heightBytes ++ [p.cal.docMode]
      = [BitVec.ofNat 8 ((p.h.toNat - 1) % 256), BitVec.ofNat 8 ((p.h.toNat - 1) / 256), p.cal.docMode] :=
  congrArg (· ++ [p.cal.docMode]) (heightBytes_eq p)

/-- The RAM Y window's payload (R197, R104). -/
theorem ramYWindow_payload (p : Params) :
    [0x00, 0x00] ++ p.heightBytes
      = [0x00, 0x00, BitVec.ofNat 8 ((p.h.toNat - 1) % 256), BitVec.ofNat 8 ((p.h.toNat - 1) / 256)] :=
  congrArg ([0x00, 0x00] ++ ·) (heightBytes_eq p)

/-- `MemRead(0, n)` (R62) reads the indices below `n`. -/
theorem Memory.readBytes_zero (m : Memory) (n : Nat) :
    m.readBytes 0 n = (List.range n).map (fun k => m.read k) := by
  simp only [Memory.readBytes, Nat.zero_add]

/-! ### The statements -/

/-- Settles O26: each command is `Cmd`, or `Cmd` then `Dat` of its payload. -/
theorem initCommandsSendTheirPayload : Obligations.InitCommandsSendTheirPayload := by
  unfold Obligations.InitCommandsSendTheirPayload
  refine fun s => ⟨?swReset, ?driverOutput, ?booster, ?dummyLine, ?gateTime, ?dataEntry, ?ramOption⟩
  case swReset => exact congrArg Host.Outcome.next (s.cmd_eq _)
  case driverOutput => exact congrArg Host.Outcome.next (s.cmd_dat_payload _ (driverOutput_payload s.params))
  case booster => exact congrArg Host.Outcome.next (s.cmd_dat_payload _ (toList_eq_ofFn s.params.cal.booster))
  case ramOption => exact congrArg Host.Outcome.next (s.cmd_dat_payload _ (toList_eq_ofFn s.params.cal.ramOption))
  all_goals exact congrArg Host.Outcome.next (s.cmd_dat_eq _ _)

/-- Settles O28: each command is `Cmd` then `Dat`; the Y window's end is `H - 1` low byte first. -/
theorem ramWindowCoversTheController : Obligations.RamWindowCoversTheController := by
  unfold Obligations.RamWindowCoversTheController
  refine fun s => ⟨?xWindow, ?yWindow, ?xCounter, ?yCounter⟩
  case yWindow => exact congrArg Host.Outcome.next (s.cmd_dat_payload _ (ramYWindow_payload s.params))
  all_goals exact congrArg Host.Outcome.next (s.cmd_dat_eq _ _)

/-- Settles O29: the plane streams and the activation move PANEL_STATE as `markBusy` does, the sleep by its data. -/
theorem streamAndActivationCommands : Obligations.StreamAndActivationCommands := by
  unfold Obligations.StreamAndActivationCommands
  rintro s _ rfl
  refine ⟨?writeBw, ?writeRed, ?masterAct, ?terminate, fun h => ?sleepBare, fun h => ?sleepData⟩
  case writeBw =>
    exact congrArg Host.Outcome.next (s.cmd_markBusy_dat_payload _ (s.fb.readBytes_zero s.params.half))
  case writeRed => exact congrArg Host.Outcome.next (s.cmd_markBusy_dat_payload _ rfl)
  case masterAct => exact congrArg Host.Outcome.next (s.cmd_markBusy_eq _)
  case terminate => exact congrArg Host.Outcome.next (s.cmd_eq _)
  case sleepBare => exact congrArg Host.Outcome.next (sendDeepSleep_of_no_data s h)
  case sleepData => exact congrArg Host.Outcome.next (sendDeepSleep_of_data s h)

end Sys2Proof.Machine

namespace Sys2Proof

/-! ## The register operations SET_DSBU and READ_REG (spec/43_scheduler_and_driver.md, section 4)

Laws/Driver.lean gives the state each operation leaves. Below stand the two selectors, READ_REG's answer for every number,
and what the registers hold: the fields of STATUS, and the buffer length as a 32-bit value. -/

/-! ### The selectors (R81, R84) -/

/-- R84: SET_DSBU's value is the frame's bit 0. -/
theorem decodeFrame_setDsbu (f : Frame) (h : frameOp f = 0x06) : decodeFrame f = .ok (.setDsbu (f.getLsbD 0)) := by
  simp [decodeFrame, h, frameB]

/-- R84: READ_REG's number is the frame's whole `A` field. -/
theorem decodeFrame_readReg (f : Frame) (h : frameOp f = 0x07) :
    decodeFrame f = .ok (.readReg (f.extractLsb' 32 32)) := by
  simp [decodeFrame, h, frameA]

/-! ### The buffer length (R8, R9) -/

/-- R9: the area is at most 2048 by 65536 pixels, so `L` is a 32-bit value. -/
theorem Params.bufLen_lt (p : Params) : p.bufLen < 2 ^ 32 := by
  obtain ⟨-, -, hcw, -, -, -, hh⟩ := p.geometry
  have harea : p.cw.toNat * p.h.toNat ≤ 2048 * 65536 := Nat.mul_le_mul hcw hh
  rw [ParamRecord.bufLen]
  omega

/-- R34: the number BUFFER_LENGTH holds is `CW * H / 4`. -/
theorem Params.bufLen_toNat (p : Params) : (BitVec.ofNat 32 p.bufLen).toNat = p.cw.toNat * p.h.toNat / 4 := by
  rw [BitVec.toNat_ofNat, Nat.mod_eq_of_lt p.bufLen_lt, ParamRecord.bufLen]

namespace Machine

/-! ### The fields of STATUS (R35) -/

/-- R35: the low seven bits of STATUS; bits 31:7 read as 0. -/
theorem State.statusWord_getLsbD (s : State) (k : Nat) : s.statusWord.getLsbD k =
    match k with
    | 0 => s.warning
    | 1 => s.panelState.code.getLsbD 0
    | 2 => s.panelState.code.getLsbD 1
    | 3 => s.setupDone
    | 4 => s.dsbu
    | 5 => s.params.hasBusy
    | 6 => s.params.hasRst
    | _ => false := by
  simp only [State.statusWord, BitVec.getLsbD_append]
  match k with
  | 0 | 1 | 2 | 3 | 4 | 5 | 6 => simp
  | k + 7 => simp

/-- R35: bits 2:1 of STATUS are PANEL_STATE. -/
theorem State.statusWord_panelState (s : State) : s.statusWord.extractLsb' 1 2 = s.panelState.code := by
  refine BitVec.eq_of_getLsbD_eq fun i hi => ?_
  rw [BitVec.getLsbD_extractLsb', s.statusWord_getLsbD]
  match i, hi with
  | 0, _ | 1, _ => rfl

/-! ### READ_REG's answer (R228) -/

/-- R34: the numbers 0 to 7 name a register, no other does. -/
theorem State.reg_eq_none_iff (s : State) (n : U32) : s.reg n = none ↔ 8 ≤ n.toNat := by
  match hn : n.toNat with
  | 0 | 1 | 2 | 3 | 4 | 5 | 6 | 7 => simp [State.reg, hn]
  | k + 8 => simp [State.reg, hn]

/-- READ_REG of any number: the register it names with OK, or 0 with OUT_OF_RANGE. -/
theorem exec_readReg (s : State) (n : U32) : exec (.readReg n) s =
    .next (s.finish (if 8 ≤ n.toNat then .outOfRange else .ok) ((s.reg n).getD 0)) := by
  simp only [← s.reg_eq_none_iff]
  cases hr : s.reg n with
  | none => exact execReadReg_none s n hr
  | some v => exact execReadReg_some s n v hr

/-! ### The statements -/

/-- Settles O24: the whole run writes DSBU and the answer. -/
theorem setDsbuWritesDsbu : Obligations.SetDsbuWritesDsbu :=
  ⟨decodeFrame_setDsbu, execSetDsbu_eq⟩

/-- Settles O25: READ_REG's answer for every number, the registers' contents read off one by one. -/
theorem readRegReturnsTheRegister : Obligations.ReadRegReturnsTheRegister := by
  unfold Obligations.ReadRegReturnsTheRegister
  refine ⟨decodeFrame_readReg, fun s n => ⟨_, exec_readReg s n, rfl, fun hlt => ?inside, fun hge => ?outside,
    ?status, ?atUpdate, ?every, ?visibleWidth, ?controllerWidth, ?height, ?bufferLength, ?idleTimeout⟩⟩
  case inside =>
    rw [if_neg (by omega)]
    rfl
  case outside =>
    rw [if_pos hge, (s.reg_eq_none_iff n).mpr hge]
    exact ⟨rfl, rfl⟩
  case status =>
    rintro rfl
    have hbit := s.statusWord_getLsbD
    refine ⟨hbit 0, s.statusWord_panelState.trans rfl, hbit 3, hbit 4, hbit 5, hbit 6, fun k hk => ?_⟩
    obtain ⟨j, rfl⟩ := Nat.exists_eq_add_of_le' hk
    exact hbit (j + 7)
  case visibleWidth =>
    rintro rfl
    exact s.params.vw.toNat_setWidth_of_le (by decide)
  case controllerWidth =>
    rintro rfl
    exact s.params.cw.toNat_setWidth_of_le (by decide)
  case bufferLength =>
    rintro rfl
    exact s.params.bufLen_toNat
  all_goals
    rintro rfl
    rfl

end Machine
end Sys2Proof

namespace Sys2Proof.Machine

/-! ## Operations the lifecycle state does not allow (spec/60_exceptions.md, R255)

`exec` of a refused operation is `finish` with SEQ_ERROR on the state the operation was issued in: the check is its first
statement, so nothing else has run. -/

/-- R250: no other status has SEQ_ERROR's code. -/
theorem Status.code_eq_four_iff (st : Status) : st.code = 4 ↔ st = .seqError := by
  cases st <;> decide

/-- SETUP after SETUP (R255). -/
theorem execSetup_again (s : State) (h : s.setupDone = true) : execSetup s = .next (s.finish .seqError 0) := by
  rw [execSetup_eq, if_pos h]

/-- DISPLAY before SETUP (R255). -/
theorem execDisplay_early (s : State) (h : s.setupDone = false) : execDisplay s = .next (s.finish .seqError 0) := by
  rw [execDisplay_eq, if_neg (Bool.eq_false_iff.mp h)]

/-- Settles O8: the five refused operations by their lifecycle checks; SET_DSBU answers OK, READ_REG OK or
OUT_OF_RANGE. -/
theorem seqErrorIsAnswered : Obligations.SeqErrorIsAnswered := by
  unfold Obligations.SeqErrorIsAnswered
  refine ⟨execSetup_again, fun s i h hi => ?refused, fun s i hi => ?accepted⟩
  case refused =>
    obtain ⟨c, rfl⟩ | ⟨x, y, c, rfl⟩ | ⟨x, y, rfl⟩ | rfl := hi
    · exact execFill_early s c h
    · exact execSetPixel_early s x y c h
    · exact execGetPixel_early s x y h
    · exact execDisplay_early s h
  case accepted =>
    obtain ⟨b, rfl⟩ | ⟨n, rfl⟩ := hi
    · exact ⟨_, execSetDsbu_eq s b, (Status.code_eq_four_iff .ok).not.mpr (by decide)⟩
    · refine ⟨_, exec_readReg s n, (Status.code_eq_four_iff _).not.mpr ?_⟩
      split <;> decide

end Sys2Proof.Machine

namespace Sys2Proof

/-! ## The two encoded interfaces (spec/30_encoding.md)

A panel command is found by its opcode because the 21 opcodes are distinct; a host frame is decoded field by field, so
decoding an encoded operation and ignoring the unread bits are facts about `frameOp`, `frameA` and `frameB`. -/

/-! ### Opcode bytes (R101, R105) -/

/-- Exactly the panel commands have an opcode. -/
theorem mem_panelCommands_iff (o : Opcodes) (i : Instr) : i ∈ panelCommands ↔ (opcodeOf o i).isSome = true := by
  cases i <;> simp [panelCommands, opcodeOf]

/-- Under distinct opcodes no two panel commands share one (R101). -/
theorem opcodeOf_injOn (o : Opcodes) (ho : o.distinct = true) {i j : Instr} (hi : i ∈ panelCommands)
    (hj : j ∈ panelCommands) (h : opcodeOf o i = opcodeOf o j) : i = j := by
  have hnodup : (panelCommands.map (opcodeOf o)).Nodup := by
    rw [Machine.panelCommands_opcodes]
    exact (of_decide_eq_true ho).map (Option.some_injective _)
  exact List.inj_on_of_nodup_map hnodup hi hj h

/-- R101, R105: a byte decodes to the command whose opcode it is. -/
theorem decodeOpcode_eq_ok_iff (o : Opcodes) (b : Byte) (i : Instr) (ho : o.distinct = true) :
    decodeOpcode o b = .ok i ↔ opcodeOf o i = some b := by
  unfold decodeOpcode
  cases hfind : panelCommands.find? (fun j => decide (opcodeOf o j = some b)) with
  | none =>
    have hno : ∀ j ∈ panelCommands, opcodeOf o j ≠ some b := by simpa using hfind
    simp only [reduceCtorEq, false_iff]
    exact fun h => hno i ((mem_panelCommands_iff o i).mpr (by rw [h]; rfl)) h
  | some j =>
    have hj : opcodeOf o j = some b := by simpa using List.find?_some hfind
    simp only [Except.ok.injEq]
    constructor
    · rintro rfl
      exact hj
    · intro hi
      exact opcodeOf_injOn o ho (List.mem_of_find?_eq_some hfind)
        ((mem_panelCommands_iff o i).mpr (by rw [hi]; rfl)) (hj.trans hi.symm)

/-! ### The fields of an encoded frame (R80–R84) -/

@[simp] theorem frameOp_encodeFrame (i : Instr) : frameOp (encodeFrame i) = selectorOf i :=
  (BitVec.extractLsb'_append_eq_of_le (by decide)).trans BitVec.extractLsb'_append_eq_left

@[simp] theorem frameA_encodeFrame (i : Instr) : frameA (encodeFrame i) = encodeA i :=
  (BitVec.extractLsb'_append_eq_of_le (by decide)).trans BitVec.extractLsb'_append_eq_right

@[simp] theorem frameB_encodeFrame (i : Instr) : frameB (encodeFrame i) = encodeB i :=
  BitVec.extractLsb'_append_eq_right

/-- A signed 16-bit number survives its encoding (R82). -/
theorem toInt_ofInt_of_coordOk {v : Int} (h : coordOk v = true) : (BitVec.ofInt 16 v).toInt = v := by
  simp only [coordOk, Bool.and_eq_true, decide_eq_true_eq] at h
  exact BitVec.toInt_ofInt_eq_self (by decide) h.1 (by omega)

theorem coordX_encodeCoords {x : Int} (y : Int) (h : coordOk x = true) : coordX (encodeCoords x y) = x := by
  rw [coordX, encodeCoords, BitVec.extractLsb'_append_eq_right, toInt_ofInt_of_coordOk h]

theorem coordY_encodeCoords (x : Int) {y : Int} (h : coordOk y = true) : coordY (encodeCoords x y) = y := by
  rw [coordY, encodeCoords, BitVec.extractLsb'_append_eq_left, toInt_ofInt_of_coordOk h]

/-- A colour survives its encoding (R83). -/
theorem colourOf_encodeColour (c : Colour) : colourOf (encodeColour c) = c := by
  obtain ⟨r, g, b, w⟩ := c
  rw [colourOf, Colour.mk.injEq]
  exact ⟨(BitVec.extractLsb'_append_eq_of_le (by decide)).trans ((BitVec.extractLsb'_append_eq_of_le (by decide)).trans
      BitVec.extractLsb'_append_eq_left),
    (BitVec.extractLsb'_append_eq_of_le (by decide)).trans ((BitVec.extractLsb'_append_eq_of_le (by decide)).trans
      BitVec.extractLsb'_append_eq_right),
    (BitVec.extractLsb'_append_eq_of_le (by decide)).trans BitVec.extractLsb'_append_eq_right,
    BitVec.extractLsb'_append_eq_right⟩

/-- Every well-formed host operation survives its frame (R80–R84). -/
theorem decodeFrame_encodeFrame (i : Instr) (hi : i.wf = true) (hhost : i ∉ panelCommands) :
    decodeFrame (encodeFrame i) = .ok i := by
  unfold decodeFrame
  rw [frameOp_encodeFrame, frameA_encodeFrame, frameB_encodeFrame]
  cases i
  case setup => rfl
  case display => rfl
  case readReg n => rfl
  case fill c => simp [selectorOf, encodeB, colourOf_encodeColour]
  case setDsbu b => cases b <;> rfl
  case getPixel x y =>
    obtain ⟨hx, hy⟩ := Bool.and_eq_true_iff.mp hi
    simp [selectorOf, encodeA, coordX_encodeCoords y hx, coordY_encodeCoords x hy]
  case setPixel x y c =>
    obtain ⟨hx, hy⟩ := Bool.and_eq_true_iff.mp hi
    simp [selectorOf, encodeA, encodeB, coordX_encodeCoords y hx, coordY_encodeCoords x hy, colourOf_encodeColour]
  all_goals exact absurd (by decide) hhost

/-! ### The statements -/

/-- Settles O11: a panel command by its opcode, a host operation by the fields of its frame. -/
theorem decodeOfEncodeIsTheInstruction : Obligations.DecodeOfEncodeIsTheInstruction := by
  unfold Obligations.DecodeOfEncodeIsTheInstruction
  intro o i ho hi
  cases hop : opcodeOf o i with
  | some b => simpa only [encode, hop, decode] using (decodeOpcode_eq_ok_iff o b i ho).mpr hop
  | none =>
    have hhost : i ∉ panelCommands := by simp [mem_panelCommands_iff o, hop]
    simpa only [encode, hop, decode] using decodeFrame_encodeFrame i hi hhost

/-- Settles O13. -/
theorem opcodeNamesItsCommand : Obligations.OpcodeNamesItsCommand :=
  decodeOpcode_eq_ok_iff

/-- Settles O12: each branch of the decoder reads the fields its selector is given, and no others. -/
theorem unreadFrameBitsAreIgnored : Obligations.UnreadFrameBitsAreIgnored := by
  unfold Obligations.UnreadFrameBitsAreIgnored
  intro f g hop hB hA hbit
  unfold decodeFrame
  rw [← hop]
  have hsel : ∀ n : Nat, n < 256 → (frameOp f).toNat = n → frameOp f = BitVec.ofNat 8 n :=
    fun n hn h => BitVec.eq_of_toNat_eq (by rw [h, BitVec.toNat_ofNat, Nat.mod_eq_of_lt hn])
  split
  case h_2 h => rw [hB (.inl (hsel 2 (by decide) h))]
  case h_3 h =>
    have h3 := hsel 3 (by decide) h
    rw [hA (.inl h3), hB (.inr h3)]
  case h_4 h => rw [hA (.inr (.inl (hsel 4 (by decide) h)))]
  case h_6 h =>
    have hlow : ∀ u : Frame, (frameB u).getLsbD 0 = u.getLsbD 0 := fun u => BitVec.getLsbD_extractLsb' ..
    rw [hlow, hlow, hbit (hsel 6 (by decide) h)]
  case h_7 h => rw [hA (.inr (.inr (hsel 7 (by decide) h)))]
  all_goals rfl

/-- Settles O14: closed words, evaluated. -/
theorem specWordsDecode : Obligations.SpecWordsDecode := by
  unfold Obligations.SpecWordsDecode
  decide

end Sys2Proof

namespace Sys2Proof

/-! ## Construction, reset and the host port (R9, R254, R280, R281, R262)

Construction accepts a record exactly when its checks hold; a step of a READY block is one of four equations, by what
stands at its port. -/

/-- R9, R101: what construction requires of a record, check by check. -/
theorem ParamRecord.check_eq_true_iff (r : ParamRecord) :
    r.check = true ↔
      (r.cw.toNat % 8 = 0 ∧ 8 ≤ r.cw.toNat ∧ r.cw.toNat ≤ 2048 ∧ 1 ≤ r.vw.toNat ∧ r.vw.toNat ≤ r.cw.toNat
        ∧ 1 ≤ r.h.toNat ∧ r.h.toNat ≤ 65536 ∧ r.lutFull.length = 70 ∧ r.lutPartial.length = 70
        ∧ 1 ≤ r.pollMs.toNat ∧ r.idleTimeoutMs.toNat + r.pollMs.toNat < 2 ^ 31)
      ∧ r.opc.all.Nodup := by
  simp only [ParamRecord.check, ParamRecord.geometryOk, ParamRecord.lutOk, ParamRecord.timingOk, Opcodes.distinct,
    Bool.and_eq_true, decide_eq_true_eq, and_assoc]

/-- R85: a selector outside 1 to 7 is no operation. -/
theorem decodeFrame_illegal (f : Frame) (h : frameOp f = 0x00 ∨ 0x08 ≤ (frameOp f).toNat) :
    decodeFrame f = .error (.illegalSelector (frameOp f)) := by
  have hsel : (frameOp f).toNat = 0 ∨ 8 ≤ (frameOp f).toNat := h.imp_left fun h0 => by rw [h0]; rfl
  unfold decodeFrame
  split
  case h_8 => rfl
  all_goals omega

namespace Machine

/-- R254: construction refuses a record that fails a check. -/
theorem State.build_of_not_check (r : ParamRecord) (h : r.check ≠ true) : State.build r = .refused .misconfigured :=
  dif_neg h

/-- R281: a block whose host presents nothing, or may present nothing yet, waits. -/
theorem step_ready_idle (s : State) (hseq : s.seq = .ready) (h : s.done = false ∨ s.hostIn = []) :
    step s = .next s := by
  have hfetch : fetch s = .idle := by
    rcases h with h | h <;> simp [fetch, hseq, h]
  rw [step, hfetch]

/-- R262: a frame that decodes is latched and run. -/
theorem step_ready_host (s : State) (f : Frame) (rest : List Frame) (i : Instr) (hseq : s.seq = .ready)
    (hdone : s.done = true) (hport : s.hostIn = f :: rest) (hf : decodeFrame f = .ok i) :
    step s = exec i { s with hostIn := rest, opf := f } := by
  have hfetch : fetch s = .host i { s with hostIn := rest, opf := f } := by
    simp [fetch, hseq, hdone, hport, hf]
  rw [step, hfetch]

/-- R256: a frame that does not decode is answered. -/
theorem step_ready_illegal (s : State) (f : Frame) (rest : List Frame) (e : DecodeError) (hseq : s.seq = .ready)
    (hdone : s.done = true) (hport : s.hostIn = f :: rest) (hf : decodeFrame f = .error e) :
    step s = .next { s with hostIn := rest }.answerIllegal := by
  have hfetch : fetch s = .illegal { s with hostIn := rest } := by
    simp [fetch, hseq, hdone, hport, hf]
  rw [step, hfetch]

/-- A command stands at no READY. -/
theorem ne_ready_of_commandAt {p : Seq} {i : Instr} (h : commandAt p = some i) : p ≠ .ready := by
  rintro rfl
  cases h

/-! ### The statements -/

/-- Settles O1: every field of a constructed state, read off. -/
theorem resetLeavesTheStatedValues : Obligations.ResetLeavesTheStatedValues := by
  unfold Obligations.ResetLeavesTheStatedValues
  exact fun p => ⟨rfl, fun _ => rfl, rfl, rfl, rfl, rfl, rfl, rfl, rfl, rfl, rfl, rfl, rfl, rfl, rfl, rfl, rfl⟩

/-- Settles O2: construction's check is the conjunction of the rule's checks and the distinctness of the opcodes. -/
theorem constructionRefusesBadRecords : Obligations.ConstructionRefusesBadRecords := by
  unfold Obligations.ConstructionRefusesBadRecords
  refine fun r => ⟨fun hbad => ?_, fun hgood => ?_, fun hdup => ?_⟩
  · exact State.build_of_not_check r fun h => hbad (r.check_eq_true_iff.mp h).1
  · have hok : r.check = true := r.check_eq_true_iff.mpr (by simpa only [and_assoc] using hgood)
    exact ⟨⟨r, hok⟩, rfl, dif_pos hok⟩
  · exact State.build_of_not_check r fun h => hdup (r.check_eq_true_iff.mp h).2

/-- Settles O3. -/
theorem readyBlockWaits : Obligations.ReadyBlockWaits :=
  ⟨fun s hseq hport => step_ready_idle s hseq (.inr hport), fun p => step_ready_idle (State.construct p) rfl (.inr rfl)⟩

/-- Settles O4. -/
theorem stepRunsTheFrameAtThePort : Obligations.StepRunsTheFrameAtThePort :=
  step_ready_host

/-- Settles O5: a step of a running operation is its statement, and a command's meaning is the statement at each
position that sends it. -/
theorem stepRunsTheCommandAtThePointer : Obligations.StepRunsTheCommandAtThePointer := by
  unfold Obligations.StepRunsTheCommandAtThePointer
  refine ⟨fun s p i hp hi => ?_, fun s p hp _ hready => ?_⟩
  · obtain ⟨t, hexec, hrun⟩ := exec_commandAt p i s hi
    rw [step_running s p hp (ne_ready_of_commandAt hi), hexec, hrun]
    rfl
  · rw [step_running s p hp hready]
    cases runStatement p s <;> rfl

/-- Settles O7: such a frame does not decode, and the answer writes the results alone. -/
theorem illegalFrameIsAnswered : Obligations.IllegalFrameIsAnswered := by
  unfold Obligations.IllegalFrameIsAnswered
  intro s f rest hseq hdone hport hsel
  rw [step_ready_illegal s f rest _ hseq hdone hport (decodeFrame_illegal f hsel)]
  simp [State.answerIllegal, State.finish, Status.code, hseq, hdone]

end Machine
end Sys2Proof

namespace Sys2Proof.Machine

/-! ## The framebuffer as a memory (R61, R62, R126)

Two canonical memories that read alike are equal, so `MemWrite` and the byte writes need only be read back. -/

/-- The byte writes `FB[i+k] <- v[k]` in ascending `k`, counted from `k₀`, keep the canonical form and read back as the
block (R62). -/
theorem Memory.foldl_write (i : Nat) (v : List Byte) (k₀ : Nat) (m : Memory) (hm : m.wf) :
    ((v.zipIdx k₀).foldl (fun n c => n.write (i + c.2) c.1) m).wf
      ∧ ∀ j, ((v.zipIdx k₀).foldl (fun n c => n.write (i + c.2) c.1) m).read j =
        if i + k₀ ≤ j ∧ j < i + k₀ + v.length then v.getD (j - (i + k₀)) Memory.unlisted else m.read j := by
  induction v generalizing k₀ m with
  | nil => exact ⟨hm, fun j => (if_neg (by simp)).symm⟩
  | cons b v ih =>
    obtain ⟨hwf, hread⟩ := ih (k₀ + 1) (m.write (i + k₀) b) (Memory.write_wf m hm _ _)
    refine ⟨hwf, fun j => (hread j).trans ?_⟩
    rw [Memory.read_write m hm, List.length_cons]
    rcases Nat.lt_trichotomy j (i + k₀) with hlt | rfl | hgt
    · rw [if_neg (by omega), if_neg (by omega), if_neg (by omega)]
    · rw [if_neg (by omega), if_pos rfl, if_pos (by omega), Nat.sub_self, List.getD_cons_zero]
    · obtain ⟨d, rfl⟩ := Nat.exists_eq_add_of_lt hgt
      have hsub : i + k₀ + d + 1 - (i + (k₀ + 1)) = d := by omega
      have hsub' : i + k₀ + d + 1 - (i + k₀) = d + 1 := by omega
      rw [hsub, hsub', List.getD_cons_succ, if_neg (by omega : i + k₀ + d + 1 ≠ i + k₀)]
      exact if_congr (by omega) rfl rfl

/-- Settles O15. -/
theorem byteWriteReadsBack : Obligations.ByteWriteReadsBack := by
  unfold Obligations.ByteWriteReadsBack
  intro m i v hm
  refine ⟨Memory.write_wf m hm i v, ?_, fun j hj => ?_⟩
  · rw [Memory.read_write m hm, if_pos rfl]
  · rw [Memory.read_write m hm, if_neg hj]

/-- Settles O16: both sides are canonical and read alike. -/
theorem memWriteIsAscendingByteWrites : Obligations.MemWriteIsAscendingByteWrites := by
  unfold Obligations.MemWriteIsAscendingByteWrites
  intro m i v hm
  obtain ⟨hwf, hread⟩ := Memory.foldl_write i v 0 m hm
  refine Memory.eq_of_read_eq _ _ (Memory.writeBytes_wf m hm i v) hwf fun j => ?_
  rw [Memory.read_writeBytes, hread, Nat.add_zero]

/-- After a drawing operation every in-range pixel it drew holds the plane bits of the class (R122, R123). -/
theorem exec_draw_pixelPlanes (s t : State) (x y : Int) (c : Colour) (hw : s.fb.wf) (hs : s.setupDone = true)
    (hr : s.params.inRange x y = true) (h : exec (.setPixel x y c) s = .next t ∨ exec (.fill c) s = .next t) :
    t.setupDone = true ∧ t.params = s.params ∧ t.pixelPlanes x.toNat y.toNat = planes (classify c) := by
  obtain ⟨hxa, hya⟩ := s.params.inRange_area hr
  rcases h with h | h
  · obtain rfl := Host.Outcome.next.inj ((execSetPixel_inRange s x y c hs hr).symm.trans h)
    exact ⟨hs, rfl, s.pixelPlanes_plotPixel_same _ _ c hw hxa hya⟩
  · obtain rfl := Host.Outcome.next.inj ((execFill_ready s c hs).symm.trans h)
    exact ⟨hs, rfl, s.pixelPlanes_fillPlanes c _ _ hxa hya⟩

/-- Settles O21: GET_PIXEL answers the code of the plane bits the drawing operation left. -/
theorem drawnPixelReadsBack : Obligations.DrawnPixelReadsBack := by
  unfold Obligations.DrawnPixelReadsBack
  intro s t x y c hw hs hx hxv hy hyh hdraw
  have hr := (s.params.inRange_iff_bounds x y).mpr ⟨hx, hxv, hy, hyh⟩
  obtain ⟨ht, hp, hplanes⟩ := exec_draw_pixelPlanes s t x y c hw hs hr hdraw
  refine (execGetPixel_inRange t x y ht (hp ▸ hr)).trans ?_
  rw [hplanes]
  cases classify c <;> rfl

/-! ## The commands whose payload the position or the mode selects (R103) -/

/-- Settles O27: each is `Cmd` then `Dat` of the byte its position and mode select, the LUT one transaction. -/
theorem modeCommandsSendTheModesBytes : Obligations.ModeCommandsSendTheModesBytes := by
  unfold Obligations.ModeCommandsSendTheModesBytes
  refine fun s => ⟨fun q hq => ?vcomInit, fun hq => ?vcomMode, ?lut, ?pingpong, ?duc2, ?border⟩
  case vcomInit =>
    exact congrArg Host.Outcome.next (s.cmd_dat_payload _ (congrArg (fun b => [b]) (vcomByte_init s q hq)))
  case vcomMode =>
    exact congrArg Host.Outcome.next (s.cmd_dat_payload _ (congrArg (fun b => [b]) (vcomByte_mode s hq)))
  case lut => exact congrArg Host.Outcome.next (s.cmdDat_eq _ _)
  case pingpong => exact congrArg Host.Outcome.next (s.cmd_dat_payload _ (toList_eq_ofFn s.params.cal.pingpong))
  case duc2 => exact congrArg Host.Outcome.next (s.cmd_dat_payload _ (congrArg (fun b => [b]) (duc2Byte_eq s)))
  case border => exact congrArg Host.Outcome.next (s.cmd_dat_eq _ _)

/-! ## The cadence (R220–R223) -/

/-- One advance counts modulo `N` (R221). -/
theorem nextUpdate_toNat {n : U32} (hn : n ≠ 0) (a : U32) : (nextUpdate n a).toNat = (a.toNat + 1) % n.toNat := by
  have hpos : 0 < n.toNat := by bv_omega
  rw [nextUpdate, if_neg hn, BitVec.toNat_ofNat, Nat.mod_eq_of_lt (Nat.lt_trans (Nat.mod_lt _ hpos) n.isLt)]

/-- Settles O47: by induction on the number of advances. -/
theorem cadenceCountsModuloN : Obligations.CadenceCountsModuloN := by
  unfold Obligations.CadenceCountsModuloN
  refine fun n a k => ⟨fun hn ha => ?_, ?_⟩
  · induction k with
    | zero => exact (Nat.mod_eq_of_lt ha).symm
    | succ k ih =>
      rw [Function.iterate_succ_apply', nextUpdate_toNat hn, ih, Nat.mod_add_mod, Nat.add_assoc]
  · rintro rfl
    exact congrFun (Function.iterate_id k) a

/-- Settles O48: FULL and PREV differ exactly at 0 and 1, and FULL selects the table. -/
theorem lutIsReloadedAtTheModeChange : Obligations.LutIsReloadedAtTheModeChange := by
  unfold Obligations.LutIsReloadedAtTheModeChange
  refine fun s => ⟨?_, fun h => ?_, fun h => ?_⟩
  · rw [State.reloadDue, Bool.and_eq_true, decide_eq_true_iff, decide_eq_true_iff]
    refine and_congr_right fun _ => ?_
    by_cases h0 : s.atUpdate = 0#32
    · simp [h0]
    · by_cases h1 : s.atUpdate = 1#32 <;> simp [h0, h1]
  · simp [State.lutTable, h]
  · simp [State.lutTable, h]

end Sys2Proof.Machine

namespace Sys2Proof.Machine

/-! ## What every instruction and every step leaves (R8, R22–R24, R33, R262, R250, R61)

`Effect` says once what a statement can do. Below stand the operation a position belongs to, what every effect leaves, how
an operation ends, and the statements about `exec` and `step` that follow. -/

/-! ### The operation a position belongs to (R27) -/

/-- The `op` of a position `RUNNING(op, _)`. -/
def opOf : Seq → Option HostOp
  | .ready => none
  | .entry op => some op
  | .setup _ => some .setup
  | .fill _ => some .fill
  | .setPixel _ => some .setPixel
  | .getPixel _ => some .getPixel
  | .display _ => some .display
  | .setDsbu _ => some .setDsbu
  | .readReg _ => some .readReg

/-- A sequence holds positions of its own operation alone. -/
theorem opOf_of_mem {op : HostOp} {p : Seq} (h : p ∈ operationProgram op) : opOf p = some op := by
  have hall : ∀ op : HostOp, ∀ q ∈ operationProgram op, opOf q = some op := by
    intro op
    cases op <;> decide
  exact hall op p h

theorem programOf_of_opOf {op : HostOp} {p : Seq} (h : opOf p = some op) : programOf p = operationProgram op := by
  cases p <;> cases h <;> rfl

theorem opOf_isSome_of_ne_ready {p : Seq} (h : p ≠ .ready) : ∃ op, opOf p = some op := by
  cases p
  case ready => exact absurd rfl h
  all_goals exact ⟨_, rfl⟩

/-- Only SETUP and DISPLAY drive the panel. -/
theorem opOf_of_drivesPanel {p : Seq} (h : drivesPanel p = true) : opOf p = some .setup ∨ opOf p = some .display := by
  cases p <;> simp_all [drivesPanel, opOf]

/-- Only SET_PIXEL and GET_PIXEL have a range check. -/
theorem opOf_of_pastRangeCheck {p : Seq} (h : pastRangeCheck p = true) :
    opOf p = some .setPixel ∨ opOf p = some .getPixel := by
  cases p <;> simp_all [pastRangeCheck, opOf]

theorem ne_ready_of_drivesPanel {p : Seq} (h : drivesPanel p = true) : p ≠ .ready := by
  rintro rfl
  cases h

theorem pastRangeCheck_of_drivesPanel {p : Seq} (h : drivesPanel p = true) : pastRangeCheck p = false := by
  cases p <;> simp_all [drivesPanel, pastRangeCheck]

/-- No host operation is sent as a panel command (R105). -/
theorem hostOpOf_of_commandAt {p : Seq} {i : Instr} (h : commandAt p = some i) : hostOpOf i = none := by
  cases p
  case setup q =>
    cases q
    case init r => cases r <;> cases h <;> rfl
    all_goals cases h
  case display q =>
    cases q
    case wake r => cases r <;> cases h <;> rfl
    all_goals cases h <;> rfl
  all_goals cases h

/-! ### What every effect leaves -/

/-- Every statement leaves the parameters, the port and the latched frame, and only appends to the trace. -/
theorem Effect.frame {p : Seq} {s t : State} {r : Flow} (e : Effect p s r) (h : r.outcome = .next t) :
    t.params = s.params ∧ t.hostIn = s.hostIn ∧ t.opf = s.opf ∧ s.tr <+: t.tr := by
  cases e <;> cases h
  case passed u _ hg =>
    obtain ⟨es, htr, -⟩ := hg.2
    exact ⟨hg.params, hg.hostIn, hg.opf, es, htr.symm⟩
  case aborted u _ _ hg =>
    obtain ⟨es, htr, -⟩ := hg.2
    exact ⟨hg.params, hg.hostIn, hg.opf, es, htr.symm⟩
  case lines => exact ⟨rfl, rfl, rfl, List.prefix_append ..⟩
  case link => exact ⟨rfl, rfl, rfl, List.prefix_append ..⟩
  all_goals exact ⟨rfl, rfl, rfl, List.prefix_rfl⟩

/-- While the operation goes on a statement moves neither the pointer nor DONE. -/
theorem Effect.go_pointer {p : Seq} {s t : State} (e : Effect p s (.go t)) : t.seq = s.seq ∧ t.done = s.done := by
  cases e
  case passed u _ hg => exact ⟨hg.seq, hg.done⟩
  all_goals exact ⟨rfl, rfl⟩

/-- An operation ends by a return or an abort, both of which are `finish` (R250, R253). -/
theorem Effect.ended_finish {p : Seq} {s t : State} (e : Effect p s (.ended t)) (hp : p ≠ .ready) :
    ∃ u st v, t = State.finish u st v := by
  cases e
  case aborted u site _ _ => exact ⟨{ u with warning := true }, .timeout, 0, rfl⟩
  case finished st v => exact ⟨s, st, v, rfl⟩
  case ready h => exact absurd h hp

/-- A statement faults behind the range check alone (R61). -/
theorem Effect.fault_pastRangeCheck {p : Seq} {s : State} {f : Fault} (e : Effect p s (.fault f)) :
    pastRangeCheck p = true := by
  cases e
  assumption

/-- Outside SETUP and DISPLAY no statement writes WARNING (R23). -/
theorem Effect.warning {p : Seq} {s t : State} {r : Flow} (e : Effect p s r) (hp : drivesPanel p = false)
    (h : r.outcome = .next t) : t.warning = s.warning := by
  cases e <;> cases h
  case passed hd _ => simp [hd] at hp
  case aborted hd _ => simp [hd] at hp
  case clearWarning h => simp [h, drivesPanel] at hp
  all_goals rfl

/-- A statement after which the operation goes on writes WARNING at DISPLAY's step 13 alone (R23). -/
theorem Effect.go_warning {p : Seq} {s t : State} (e : Effect p s (.go t)) (hp : p ≠ .display .clearWarning) :
    t.warning = s.warning := by
  cases e
  case passed u _ hg => exact hg.warning
  case clearWarning h => exact absurd h hp
  all_goals rfl

/-- DSBU is written by SET_DSBU's first statement alone (R24). -/
theorem Effect.dsbu_eq {p : Seq} {s t : State} {r : Flow} (e : Effect p s r) (hp : p ≠ .entry .setDsbu)
    (h : r.outcome = .next t) : t.dsbu = s.dsbu := by
  cases e <;> cases h
  case passed u _ hg => exact hg.dsbu
  case aborted u _ _ hg => exact hg.dsbu
  case dsbu h => exact absurd h hp
  all_goals rfl

/-- AT_UPDATE is written by DISPLAY's step 5 alone (R22). -/
theorem Effect.atUpdate {p : Seq} {s t : State} {r : Flow} (e : Effect p s r) (hp : p ≠ .display .advance)
    (h : r.outcome = .next t) : t.atUpdate = s.atUpdate := by
  cases e <;> cases h
  case passed u _ hg => exact hg.atUpdate
  case aborted u _ _ hg => exact hg.atUpdate
  case advance h => exact absurd h hp
  all_goals rfl

/-! ### How an operation ends (R250) -/

/-- R250: every status has a code from 0 to 4. -/
theorem Status.code_le (st : Status) : st.code.toNat ≤ 4 := by
  cases st <;> decide

/-- A sequence of SETUP or DISPLAY that closes with its return ends the operation (R250, R253). -/
theorem runList_driver_ends (ps : List Seq) (q : Seq) (hps : ∀ p ∈ ps, drivesPanel p = true)
    (hen : ∀ u, seqEnabled q u = true) (hq : ∀ u, runStatement q u = .ended (u.finish .ok 0)) (s : State) :
    ∃ u st v, runList (ps ++ [q]) s = .ended (State.finish u st v) := by
  have hbody := runSteps_induct seqEnabled runStatement (fun _ => True) (fun t => ∃ u st v, t = State.finish u st v)
    (fun _ => False) ps (fun p hp u _ _ => by
      have e := runStatement_effect { u with seq := p } p
      generalize runStatement p { u with seq := p } = r at e
      cases r with
      | go t => trivial
      | ended t => exact e.ended_finish (ne_ready_of_drivesPanel (hps p hp))
      | fault f => simpa [pastRangeCheck_of_drivesPanel (hps p hp)] using e.fault_pastRangeCheck) s trivial
  rw [runList_append, runList]
  generalize runSteps seqEnabled runStatement ps s = r at hbody ⊢
  cases r with
  | go u =>
    refine ⟨{ u with seq := q }, .ok, 0, ?_⟩
    rw [Flow.bind_go, runSteps_enabled _ _ _ _ _ (hen u), hq, Flow.bind_ended]
  | ended t =>
    obtain ⟨u, st, v, rfl⟩ := hbody
    exact ⟨u, st, v, rfl⟩
  | fault f => exact hbody.elim

/-- SETUP's body ends (R224). -/
theorem runList_setupProgram_ends (s : State) :
    ∃ u st v, runList setupProgram s = .ended (State.finish u st v) :=
  runList_driver_ends setupProgram.dropLast (.setup .ret) (by decide) (fun _ => rfl) (fun _ => rfl) s

/-- DISPLAY's body ends (R226). -/
theorem runList_displayProgram_ends (s : State) :
    ∃ u st v, runList displayProgram s = .ended (State.finish u st v) :=
  runList_driver_ends displayProgram.dropLast (.display .ret) (by decide) (fun _ => rfl) (fun _ => rfl) s

/-- Every host operation, on every operand, ends in a `finish` (R250). -/
theorem exec_hostOp_ends (s : State) (i : Instr) (op : HostOp) (h : hostOpOf i = some op) :
    ∃ u st v, exec i s = .next (State.finish u st v) := by
  cases i
  case setup =>
    change ∃ u st v, execSetup s = _
    rw [execSetup_eq]
    split
    · exact ⟨s, _, _, rfl⟩
    · obtain ⟨u, st, v, he⟩ := runList_setupProgram_ends (s.start .setup)
      exact ⟨u, st, v, congrArg Flow.outcome he⟩
  case display =>
    change ∃ u st v, execDisplay s = _
    rw [execDisplay_eq]
    split
    · obtain ⟨u, st, v, he⟩ := runList_displayProgram_ends (s.start .display)
      exact ⟨u, st, v, congrArg Flow.outcome he⟩
    · exact ⟨s, _, _, rfl⟩
  case fill c =>
    cases hs : s.setupDone
    · exact ⟨_, _, _, execFill_early s c hs⟩
    · exact ⟨_, _, _, execFill_ready s c hs⟩
  case setPixel x y c =>
    cases hs : s.setupDone
    · exact ⟨_, _, _, execSetPixel_early s x y c hs⟩
    · cases hr : s.params.inRange x y
      · exact ⟨_, _, _, execSetPixel_outside s x y c hs hr⟩
      · exact ⟨_, _, _, execSetPixel_inRange s x y c hs hr⟩
  case getPixel x y =>
    cases hs : s.setupDone
    · exact ⟨_, _, _, execGetPixel_early s x y hs⟩
    · cases hr : s.params.inRange x y
      · exact ⟨_, _, _, execGetPixel_outside s x y hs hr⟩
      · exact ⟨_, _, _, execGetPixel_inRange s x y hs hr⟩
  case setDsbu b => exact ⟨_, _, _, execSetDsbu_eq s b⟩
  case readReg n => exact ⟨_, _, _, exec_readReg s n⟩
  all_goals cases h

/-- No instruction faults or is refused. -/
theorem exec_answers (s : State) (i : Instr) : ∃ t, exec i s = .next t := by
  rcases hostOp_or_panel i with ⟨op, hop⟩ | ⟨p, hp⟩
  · obtain ⟨u, st, v, he⟩ := exec_hostOp_ends s i op hop
    exact ⟨_, he⟩
  · obtain ⟨t, he, -⟩ := exec_commandAt p i s hp
    exact ⟨t, he⟩

/-! ### No statement of a reachable state faults (R61) -/

/-- An access to a byte that exists runs. -/
theorem State.accessFb_of_lt (s : State) {i : Nat} (f : Flow) (h : i < s.params.bufLen) : s.accessFb i f = f :=
  if_pos h

/-- Behind the range check the latched frame's pixel has its byte in each plane (R61). -/
theorem pixelByte_lt (s : State) (o : Operands) (h : s.params.inRange o.x o.y = true) :
    s.pixelByte o < s.params.bufLen ∧ s.params.half + s.pixelByte o < s.params.bufLen := by
  have hin : s.params.half + s.pixelByte o < s.params.bufLen := s.params.pixel_inside o.x o.y h
  exact ⟨by omega, hin⟩

/-- A statement behind the range check, with the pixel in range, does not fault (R61). -/
theorem runStatement_ne_fault (s : State) (p : Seq)
    (h : pastRangeCheck p = true → s.params.inRange (operandsOf s.opf).x (operandsOf s.opf).y = true) (f : Fault) :
    runStatement p s ≠ .fault f := by
  intro hf
  have hpast : pastRangeCheck p = true := (hf ▸ runStatement_effect s p).fault_pastRangeCheck
  obtain ⟨hlt, hlt'⟩ := pixelByte_lt s _ (h hpast)
  cases p
  case setPixel q =>
    cases q <;> simp [runStatement, runWith, runSetPixel, State.accessFb_of_lt, hlt, hlt'] at hf
  case getPixel q =>
    cases q <;> simp [runStatement, runWith, runGetPixel, State.accessFb_of_lt, hlt, hlt'] at hf
  all_goals simp [pastRangeCheck] at hpast

/-! ### Steps by cases -/

/-- A step of a READY block changes nothing, answers an illegal frame, or runs the frame's operation (R262). -/
theorem step_ready_cases (s t : State) (hseq : s.seq = .ready) (h : step s = .next t) :
    ((s.done = false ∨ s.hostIn = []) ∧ t = s)
      ∨ s.done = true ∧ ∃ f rest, s.hostIn = f :: rest
        ∧ (t = { s with hostIn := rest }.answerIllegal
          ∨ ∃ i, decodeFrame f = .ok i ∧ exec i { s with hostIn := rest, opf := f } = .next t) := by
  rcases Bool.eq_false_or_eq_true s.done with hdone | hdone
  · cases hport : s.hostIn with
    | nil =>
      rw [step_ready_idle s hseq (.inr hport)] at h
      exact .inl ⟨.inr rfl, (Host.Outcome.next.inj h).symm⟩
    | cons f rest =>
      refine .inr ⟨hdone, f, rest, rfl, ?_⟩
      cases hf : decodeFrame f with
      | error e =>
        rw [step_ready_illegal s f rest e hseq hdone hport hf] at h
        exact .inl (Host.Outcome.next.inj h).symm
      | ok i =>
        rw [step_ready_host s f rest i hseq hdone hport hf] at h
        exact .inr ⟨i, rfl, h⟩
  · rw [step_ready_idle s hseq (.inl hdone)] at h
    exact .inl ⟨.inl hdone, (Host.Outcome.next.inj h).symm⟩

/-- What a decoded frame runs is a host operation (R81). -/
theorem hostOpOf_of_decodeFrame {f : Frame} {i : Instr} (h : decodeFrame f = .ok i) : ∃ op, hostOpOf i = some op := by
  unfold decodeFrame at h
  split at h <;> cases h <;> exact ⟨_, rfl⟩

/-! ### Properties every update keeps -/

theorem kept_params (p : Params) : Kept (fun _ => True) (fun u => u.params = p) where
  moved _ _ _ hs := hs
  effect _ _ _ _ _ hs e h := (e.frame h).1.trans hs

theorem kept_hostIn (port : List Frame) : Kept (fun _ => True) (fun u => u.hostIn = port) where
  moved _ _ _ hs := hs
  effect _ _ _ _ _ hs e h := (e.frame h).2.1.trans hs

theorem kept_prefix (tr : List Event) : Kept (fun _ => True) (fun u => tr <+: u.tr) where
  moved _ _ _ hs := hs
  effect _ _ _ _ _ hs e h := hs.trans (e.frame h).2.2.2

theorem kept_warning (w : Bool) : Kept (fun p => drivesPanel p = false) (fun u => u.warning = w) where
  moved _ _ _ hs := hs
  effect _ _ _ _ hp hs e h := (e.warning hp h).trans hs

theorem kept_dsbu (d : Bool) : Kept (fun p => p ≠ .entry .setDsbu) (fun u => u.dsbu = d) where
  moved _ _ _ hs := hs
  effect _ _ _ _ hp hs e h := (e.dsbu_eq hp h).trans hs

theorem kept_atUpdate (a : U32) : Kept (fun p => p ≠ .display .advance) (fun u => u.atUpdate = a) where
  moved _ _ _ hs := hs
  effect _ _ _ _ hp hs e h := (e.atUpdate hp h).trans hs

/-- Every read of the trace so far kept the time axiom, and what a statement appends does from there on (R150). -/
theorem State.timeKept_append {s t : State} (hs : s.timeKept) (es : List Event) (htr : t.tr = s.tr ++ es)
    (hes : TimeFollows s t es) : t.timeKept := by
  unfold State.timeKept at hs ⊢
  rw [htr, List.foldl_append, hs, hes]

theorem GateChange.timeKept {s t : State} (h : GateChange s t) (hs : s.timeKept) : t.timeKept := by
  obtain ⟨es, htr, -, hes⟩ := h.2
  exact s.timeKept_append hs es htr hes

/-- No statement breaks the time axiom: a gate keeps it, a sleep is counted, and nothing else takes time (R150). -/
theorem Effect.timeKept {p : Seq} {s t : State} {r : Flow} (e : Effect p s r) (hs : s.timeKept)
    (h : r.outcome = .next t) : t.timeKept := by
  cases e <;> cases h
  case lines es _ _ ht => exact s.timeKept_append hs es rfl ht
  case link es _ _ _ _ hl _ => exact s.timeKept_append hs es rfl (foldl_timeTrack_timeless es hl.timeless _)
  case passed hg => exact hg.timeKept hs
  case aborted hg => exact hg.timeKept hs
  all_goals exact hs

theorem kept_timeKept : Kept (fun _ => True) State.timeKept where
  moved _ _ _ hs := hs
  effect _ _ _ _ _ hs e h := e.timeKept hs h

/-! ### The statements -/

/-- Settles O37: an empty trace at reset, and every step keeps the axiom because every statement does. -/
theorem timeReadsKeepTheAxiom : Obligations.TimeReadsKeepTheAxiom :=
  ⟨fun _ => rfl, fun s t hs h => step_keeps kept_timeKept (fun _ _ _ hu => hu) s t hs h⟩

/-- Settles O57. -/
theorem parametersAreFixed : Obligations.ParametersAreFixed :=
  fun s t h => step_keeps (kept_params s.params) (fun _ _ _ hu => hu) s t rfl h

/-- Settles O58. -/
theorem traceOnlyGrows : Obligations.TraceOnlyGrows := by
  unfold Obligations.TraceOnlyGrows
  intro s t h
  obtain ⟨es, hes⟩ := step_keeps (kept_prefix s.tr) (fun _ _ _ hu => hu) s t List.prefix_rfl h
  exact ⟨es, hes.symm⟩

/-- Settles O6: no statement touches the port, and a step of a READY block takes the frame it answers or runs. -/
theorem framesAreTakenOnlyWhenReady : Obligations.FramesAreTakenOnlyWhenReady := by
  unfold Obligations.FramesAreTakenOnlyWhenReady
  intro s t h
  by_cases hseq : s.seq = .ready
  · rcases step_ready_cases s t hseq h with ⟨hwait, rfl⟩ | ⟨hdone, f, rest, hport, rfl | ⟨i, -, hexec⟩⟩
    · refine ⟨fun _ => rfl, fun _ _ => rfl, fun _ hdone => ?_⟩
      have hport : t.hostIn = [] := hwait.resolve_left (by simp [hdone])
      rw [hport, List.tail_nil]
    · exact ⟨fun hne => absurd hseq hne, fun _ hnot => absurd hdone (by simp [hnot]), fun _ _ => by rw [hport]; rfl⟩
    · have hrest := exec_keeps (kept_hostIn rest) i (fun _ _ => trivial) _ t rfl hexec
      exact ⟨fun hne => absurd hseq hne, fun _ hnot => absurd hdone (by simp [hnot]),
        fun _ _ => by rw [hport, hrest, List.tail_cons]⟩
  · rw [step_running s s.seq rfl hseq] at h
    have hsame := runOne_keeps (fun u => u.hostIn = s.hostIn) s.seq (fun _ _ hu => hu)
      (fun _ _ _ hu e ho => (e.frame ho).2.1.trans hu) s t rfl h
    exact ⟨fun _ => hsame, fun hr => absurd hr hseq, fun hr => absurd hr hseq⟩

/-- Settles O9: every host operation ends in a `finish`, and no status has a code above 4. -/
theorem everyHostOperationEnds : Obligations.EveryHostOperationEnds := by
  unfold Obligations.EveryHostOperationEnds
  intro s i hi
  have hop : ∃ op, hostOpOf i = some op := by
    rcases hi with rfl | ⟨c, rfl⟩ | ⟨x, y, c, rfl⟩ | ⟨x, y, rfl⟩ | rfl | ⟨b, rfl⟩ | ⟨n, rfl⟩ <;> exact ⟨_, rfl⟩
  obtain ⟨op, hop⟩ := hop
  obtain ⟨u, st, v, he⟩ := exec_hostOp_ends s i op hop
  exact ⟨_, he, rfl, rfl, st.code_le⟩

/-- Settles O10: an instruction always answers, and a single statement faults only on a pixel out of range. -/
theorem everyStateSteps : Obligations.EveryStateSteps := by
  unfold Obligations.EveryStateSteps
  refine ⟨exec_answers, fun s hs => ?_⟩
  by_cases hseq : s.seq = .ready
  · by_cases hwait : s.done = false ∨ s.hostIn = []
    · exact ⟨s, step_ready_idle s hseq hwait⟩
    · rw [not_or, Bool.not_eq_false] at hwait
      obtain ⟨hdone, hport⟩ := hwait
      obtain ⟨f, rest, hport⟩ := List.exists_cons_of_ne_nil hport
      cases hf : decodeFrame f with
      | error e => exact ⟨_, step_ready_illegal s f rest e hseq hdone hport hf⟩
      | ok i =>
        rw [step_ready_host s f rest i hseq hdone hport hf]
        exact exec_answers _ i
  · rw [step_running s s.seq rfl hseq]
    cases hr : runStatement s.seq s with
    | go t => exact ⟨_, rfl⟩
    | ended t => exact ⟨_, rfl⟩
    | fault f => exact absurd hr (runStatement_ne_fault s s.seq hs f)

/-- The positions a host operation runs are its own (R27, R103). -/
theorem opOf_of_runsAt {i : Instr} {p : Seq} {op : HostOp} (hop : hostOpOf i = some op) (h : RunsAt i p) :
    opOf p = some op := by
  rcases h with hc | ⟨op', hop', hp⟩
  · simp [hostOpOf_of_commandAt hc] at hop
  · exact (opOf_of_mem hp).trans (hop'.symm.trans hop)

/-- An instruction runs a position that sends no command only as the host operation the position belongs to. -/
theorem hostOpOf_of_runsAt {i : Instr} {p : Seq} (h : RunsAt i p) (hc : commandAt p = none) : hostOpOf i = opOf p := by
  rcases h with h | ⟨op, hop, hp⟩
  · simp [hc] at h
  · exact hop.trans (opOf_of_mem hp).symm

/-- Settles O49: the positions of the five other operations drive no panel, and a panel command goes on. -/
theorem onlySetupAndDisplayWriteWarning : Obligations.OnlySetupAndDisplayWriteWarning := by
  unfold Obligations.OnlySetupAndDisplayWriteWarning
  intro i s t hsetup hdisplay h
  rcases hostOp_or_panel i with ⟨op, hop⟩ | ⟨p, hp⟩
  · refine exec_keeps (kept_warning s.warning) i (fun p hp => ?_) s t rfl h
    rw [← Bool.not_eq_true]
    intro hdrives
    rcases opOf_of_drivesPanel hdrives with hd | hd
    · cases i <;> cases hop <;> cases hd.symm.trans (opOf_of_runsAt rfl hp)
      exact hsetup rfl
    · cases i <;> cases hop <;> cases hd.symm.trans (opOf_of_runsAt rfl hp)
      exact hdisplay rfl
  · obtain ⟨u, hexec, e⟩ := exec_command_effect i p s hp
    obtain rfl := Host.Outcome.next.inj (hexec.symm.trans h)
    refine e.go_warning ?_
    rintro rfl
    cases hp

/-- Settles O50: only SET_DSBU runs the statement that writes DSBU. -/
theorem onlySetDsbuWritesDsbu : Obligations.OnlySetDsbuWritesDsbu := by
  unfold Obligations.OnlySetDsbuWritesDsbu
  intro i s t hi h
  refine exec_keeps (kept_dsbu s.dsbu) i (fun p hp => ?_) s t rfl h
  rintro rfl
  have hop := hostOpOf_of_runsAt hp rfl
  cases i <;> cases hop
  exact hi _ rfl

/-- Settles O51: only DISPLAY runs the statement that writes AT_UPDATE. -/
theorem onlyDisplayWritesAtUpdate : Obligations.OnlyDisplayWritesAtUpdate := by
  unfold Obligations.OnlyDisplayWritesAtUpdate
  intro i s t hi h
  refine exec_keeps (kept_atUpdate s.atUpdate) i (fun p hp => ?_) s t rfl h
  rintro rfl
  have hop := hostOpOf_of_runsAt hp rfl
  cases i <;> cases hop
  exact hi rfl

end Sys2Proof.Machine

namespace Sys2Proof.Machine

/-! ## Where the step pointer moves (R27)

The pointer stops at the first later statement no `if` passes over. So a statement that always runs is a barrier: the
pointer does not pass it. -/

/-- The pointer does not pass an enabled statement `q`. -/
theorem moveOn_seq_of_barrier (s : State) (p : Seq) (l₁ : List Seq) (q : Seq) (l₂ : List Seq)
    (hp : laterPositions p = l₁ ++ q :: l₂) (hq : seqEnabled q s = true) :
    (s.moveOn p).seq ∈ l₁ ∨ (s.moveOn p).seq = q := by
  rw [State.moveOn, hp, List.find?_append]
  cases h : l₁.find? (fun r => seqEnabled r s) with
  | some r => exact .inl (List.mem_of_find?_eq_some h)
  | none => simp [hq]

/-- The pointer stays in the running operation. -/
theorem opOf_moveOn (s : State) (p : Seq) (hseq : s.seq = p) : opOf (s.moveOn p).seq = opOf p := by
  rcases moveOn_seq s p with h | ⟨h, -⟩
  · rw [h, hseq]
  · have hmem : (s.moveOn p).seq ∈ programOf p := (List.dropWhile_sublist _).mem (List.mem_of_mem_tail h)
    cases p
    case ready => cases hmem
    all_goals exact opOf_of_mem hmem

@[simp] theorem State.moveOn_params (s : State) (p : Seq) : (s.moveOn p).params = s.params := by
  obtain ⟨q, hq⟩ := moveOn_change s p
  rw [hq]

@[simp] theorem State.moveOn_opf (s : State) (p : Seq) : (s.moveOn p).opf = s.opf := by
  obtain ⟨q, hq⟩ := moveOn_change s p
  rw [hq]

@[simp] theorem State.moveOn_done (s : State) (p : Seq) : (s.moveOn p).done = s.done := by
  obtain ⟨q, hq⟩ := moveOn_change s p
  rw [hq]

@[simp] theorem State.moveOn_panelState (s : State) (p : Seq) : (s.moveOn p).panelState = s.panelState := by
  obtain ⟨q, hq⟩ := moveOn_change s p
  rw [hq]

@[simp] theorem State.moveOn_fb (s : State) (p : Seq) : (s.moveOn p).fb = s.fb := by
  obtain ⟨q, hq⟩ := moveOn_change s p
  rw [hq]

/-- From the positions before the range check the pointer does not pass the check of a pixel out of range (R123, R124). -/
theorem moveOn_before_rangeCheck (s : State) (p : Seq) (hseq : s.seq = p) (hpast : pastRangeCheck p = false)
    (hset : p ≠ .setPixel .outside) (hget : p ≠ .getPixel .outside)
    (hout : s.params.inRange (operandsOf s.opf).x (operandsOf s.opf).y = false) :
    pastRangeCheck (s.moveOn p).seq = false := by
  have hchecked : ∀ q, q = .setPixel .outside ∨ q = .getPixel .zero ∨ q = .getPixel .outside →
      seqEnabled q s = true := by
    rintro q (rfl | rfl | rfl) <;> simp [seqEnabled, enabledWith, hout]
  have hstop : ∀ q l₂, laterPositions p = q :: l₂ → seqEnabled q s = true → pastRangeCheck q = false →
      pastRangeCheck (s.moveOn p).seq = false := by
    intro q l₂ hp hq hqpast
    rcases moveOn_seq_of_barrier s p [] q l₂ hp hq with h | h
    · cases h
    · rw [h, hqpast]
  have hother : opOf p ≠ some .setPixel → opOf p ≠ some .getPixel → pastRangeCheck (s.moveOn p).seq = false := by
    intro h1 h2
    rw [← opOf_moveOn s p hseq] at h1 h2
    exact Bool.eq_false_iff.mpr fun h => (opOf_of_pastRangeCheck h).elim h1 h2
  cases p
  case setPixel q =>
    cases q
    case coordX => exact hstop _ _ rfl rfl rfl
    case coordY => exact hstop _ _ rfl (hchecked _ (.inl rfl)) rfl
    case outside => exact absurd rfl hset
    all_goals cases hpast
  case getPixel q =>
    cases q
    case coordX => exact hstop _ _ rfl rfl rfl
    case coordY => exact hstop _ _ rfl (hchecked _ (.inr (.inl rfl))) rfl
    case zero => exact hstop _ _ rfl (hchecked _ (.inr (.inr rfl))) rfl
    case outside => exact absurd rfl hget
    all_goals cases hpast
  case entry op =>
    cases op
    case setPixel => exact hstop _ _ rfl rfl rfl
    case getPixel => exact hstop _ _ rfl rfl rfl
    all_goals exact hother (by decide) (by decide)
  all_goals exact hother (by simp [opOf]) (by simp [opOf])

/-- Only SETUP and DISPLAY run `Init`. -/
theorem opOf_of_insideInit {p : Seq} (h : insideInit p = true) : opOf p = some .setup ∨ opOf p = some .display := by
  cases p <;> simp_all [insideInit, opOf]

/-- DISPLAY wakes the panel only with DSBU (R226). -/
theorem dsbu_of_wake_enabled (s : State) (q : Seq) (hq : opOf q = some .display) (hen : seqEnabled q s = true)
    (hin : insideInit q = true) : s.dsbu = true := by
  cases q <;> cases hq
  case entry => cases hin
  case display q =>
    cases q
    case wake r => exact (Bool.and_eq_true_iff.mp hen).1
    all_goals cases hin

/-- The pointer comes to stand inside `Init` only from its first statement, or from inside and not from its last (R190). -/
theorem moveOn_insideInit (s : State) (p : Seq) (hseq : s.seq = p) (h : insideInit (s.moveOn p).seq = true) :
    atInit .start p ∨ insideInit p = true ∧ ¬ atInit .finish p := by
  have hstop : ∀ l₁ q l₂, laterPositions p = l₁ ++ q :: l₂ → seqEnabled q s = true →
      ((l₁ ++ [q]).all fun r => !insideInit r) = true → False := by
    intro l₁ q l₂ hp hq hall
    have hmem : (s.moveOn p).seq ∈ l₁ ++ [q] := by
      simpa using moveOn_seq_of_barrier s p l₁ q l₂ hp hq
    simpa [h] using List.all_eq_true.mp hall _ hmem
  have hnone : insideInit p = false → ((laterPositions p).all fun r => !insideInit r) = true → False := by
    intro hpin hall
    rcases moveOn_seq s p with hs | ⟨hmem, -⟩
    · rw [hs, hseq, hpin] at h
      cases h
    · simpa [h] using List.all_eq_true.mp hall _ hmem
  have hother : opOf p ≠ some .setup → opOf p ≠ some .display → False := by
    intro h1 h2
    rw [← opOf_moveOn s p hseq] at h1 h2
    exact (opOf_of_insideInit h).elim h1 h2
  cases p
  case setup q =>
    cases q
    case cfgDc => exact (hstop [.setup .cfgRst, .setup .driveRst, .setup .cfgBusy] (.setup .clearFb) _ rfl rfl rfl).elim
    case cfgRst => exact (hstop [.setup .driveRst, .setup .cfgBusy] (.setup .clearFb) _ rfl rfl rfl).elim
    case driveRst => exact (hstop [.setup .cfgBusy] (.setup .clearFb) _ rfl rfl rfl).elim
    case cfgBusy => exact (hstop [] (.setup .clearFb) _ rfl rfl rfl).elim
    case clearFb => exact (hstop [] (.setup .markDone) _ rfl rfl rfl).elim
    case markDone => exact (hstop [] (.setup (.init .start)) _ rfl rfl rfl).elim
    case ret => exact (hnone rfl rfl).elim
    case init r =>
      by_cases hfinish : r = .finish
      · subst hfinish
        exact (hstop [] (.setup .ret) _ rfl rfl rfl).elim
      · by_cases hstart : r = .start
        · exact .inl (.inl (congrArg _ (congrArg _ hstart)))
        · exact .inr ⟨decide_eq_true hstart, by simp [atInit, hfinish]⟩
  case display q =>
    cases q
    case wake r =>
      by_cases hfinish : r = .finish
      · subst hfinish
        exact (hstop [] (.display .gateStart) _ rfl rfl rfl).elim
      · by_cases hstart : r = .start
        · exact .inl (.inr (congrArg _ (congrArg _ hstart)))
        · exact .inr ⟨decide_eq_true hstart, by simp [atInit, hfinish]⟩
    all_goals exact (hnone rfl rfl).elim
  case entry op =>
    cases op
    case setup => exact (hstop [] (.setup .cfgDc) _ rfl rfl rfl).elim
    case display =>
      cases hd : s.dsbu with
      | true => exact (hstop [] (.display (.wake .start)) _ rfl (by simp [seqEnabled, enabledWith, initEnabled, hd]) rfl).elim
      | false =>
        rcases moveOn_seq s (.entry .display) with hs | ⟨hmem, hen⟩
        · rw [hs, hseq] at h
          cases h
        · have hop : opOf (s.moveOn (.entry .display)).seq = some .display := opOf_moveOn s _ hseq
          simp [dsbu_of_wake_enabled s _ hop hen h] at hd
    all_goals exact (hother (by decide) (by decide)).elim
  all_goals exact (hother (by simp [opOf]) (by simp [opOf])).elim

/-! ## The invariant (State.Inv)

It has a part about the data, which every update keeps, and a part about the step pointer, which is empty at READY and is
kept by a running statement and the move after it. -/

/-- The part of the invariant that does not speak of the step pointer. -/
structure State.DataInv (s : State) : Prop where
  fbWf : s.fb.wf
  fbRange : ∀ c ∈ s.fb, c.1 < s.params.bufLen
  cadence : s.cadenceOk
  status : s.resStatus.toNat ≤ 4
  csLow : s.cs = false
  traceFramed : framed s.tr

/-- The part of the invariant that speaks of the step pointer. -/
structure State.PointerInv (s : State) : Prop where
  doneReady : s.done = true ↔ s.seq = .ready
  pixelInside : s.pixelInside
  initPanel : insideInit s.seq = true → s.panelState = .uninitialized

/-- The invariant is its two parts. -/
theorem State.inv_iff (s : State) : s.Inv ↔ s.DataInv ∧ s.PointerInv :=
  ⟨fun h => ⟨⟨h.fbWf, h.fbRange, h.cadence, h.status, h.csLow, h.traceFramed⟩,
      ⟨h.doneReady, h.pixelInside, h.initPanel⟩⟩,
    fun ⟨d, p⟩ => ⟨d.fbWf, d.fbRange, d.cadence, d.status, d.csLow, p.doneReady, d.traceFramed, p.pixelInside,
      p.initPanel⟩⟩

/-! ### The data -/

/-- An advance counts below `N`, or not at all (R36, R221). -/
theorem State.cadenceOk_advance (s : State) (h : s.cadenceOk) : s.advanceCadence.cadenceOk := by
  obtain ⟨h0, -⟩ := h
  refine ⟨fun hn => ?_, fun hn => ?_⟩
  · exact (if_pos hn).trans (h0 hn)
  · have hpos : 0 < s.params.n.toNat := by
      have : s.params.n ≠ 0 := hn
      bv_omega
    rw [BitVec.lt_def]
    exact (nextUpdate_toNat hn s.atUpdate).trans_lt (Nat.mod_lt _ hpos)

/-- A gate's change leaves the data as it was but for a longer framed trace. -/
theorem GateChange.dataInv {s t : State} (h : GateChange s t) (hs : s.DataInv) : t.DataInv := by
  obtain ⟨es, htr, hquiet, -⟩ := h.2
  refine ⟨?_, ?_, ?_, ?_, ?_, ?_⟩
  · rw [h.fb]
    exact hs.fbWf
  · rw [h.fb, h.params]
    exact hs.fbRange
  · rw [State.cadenceOk, h.params, h.atUpdate]
    exact hs.cadence
  · rw [h.resStatus]
    exact hs.status
  · rw [h.cs]
    exact hs.csLow
  · rw [htr]
    exact framed_append _ _ hs.traceFramed (framed_quiet es hquiet)

/-- A return writes a status from 0 to 4 and leaves the rest of the data. -/
theorem State.DataInv.finish {s : State} (hs : s.DataInv) (st : Status) (v : U32) : (s.finish st v).DataInv :=
  ⟨hs.fbWf, hs.fbRange, hs.cadence, st.code_le, hs.csLow, hs.traceFramed⟩

/-- Every statement keeps the data part. -/
theorem Effect.dataInv {p : Seq} {s t : State} {r : Flow} (e : Effect p s r) (hs : s.DataInv)
    (h : r.outcome = .next t) : t.DataInv := by
  have hsame : s.DataInv := hs
  obtain ⟨hwf, hrange, hcadence, hstatus, hcs, hframed⟩ := hs
  have hlen := s.params.bufLen_eq
  cases e <;> cases h
  case lines es _ hl _ =>
    exact ⟨hwf, hrange, hcadence, hstatus, hcs, framed_append _ _ hframed (framed_lineSetup es hl)⟩
  case link es _ _ _ _ hl _ =>
    exact ⟨hwf, hrange, hcadence, hstatus, rfl, framed_append _ _ hframed hl.framed⟩
  case passed u _ hg =>
    obtain ⟨hwf', hrange', hcadence', hstatus', hcs', hframed'⟩ := hg.dataInv hsame
    exact ⟨hwf', hrange', hcadence', hstatus', hcs', hframed'⟩
  case aborted u _ _ hg =>
    obtain ⟨hwf', hrange', hcadence', -, hcs', hframed'⟩ := hg.dataInv hsame
    exact ⟨hwf', hrange', hcadence', Status.timeout.code_le, hcs', hframed'⟩
  case clearFb =>
    refine ⟨Memory.writeBytes_wf _ hwf _ _, fun c hc => ?_, hcadence, hstatus, hcs, hframed⟩
    rcases Memory.mem_writeBytes _ _ _ c hc with h | h
    · simpa using h
    · exact hrange c h
  case advance => exact ⟨hwf, hrange, s.cadenceOk_advance hcadence, hstatus, hcs, hframed⟩
  case fillPlane i b _ hi =>
    refine ⟨s.fillPlane_wf i b hwf, fun c hc => ?_, hcadence, hstatus, hcs, hframed⟩
    rcases s.mem_fillPlane i b c hc with h | h
    · change c.1 < s.params.bufLen
      omega
    · exact hrange c h
  case plotPlane i x b _ hi =>
    refine ⟨s.plotPlane_wf i x b hwf, fun c hc => ?_, hcadence, hstatus, hcs, hframed⟩
    rcases s.mem_plotPlane i x b c hc with h | h
    · exact h ▸ hi
    · exact hrange c h
  case finished st v => exact hsame.finish st v
  all_goals exact ⟨hwf, hrange, hcadence, hstatus, hcs, hframed⟩

theorem kept_dataInv : Kept (fun _ => True) State.DataInv where
  moved _ _ _ hs := ⟨hs.fbWf, hs.fbRange, hs.cadence, hs.status, hs.csLow, hs.traceFramed⟩
  effect _ _ _ _ _ hs e h := e.dataInv hs h

/-! ### The pointer -/

/-- At READY with DONE = 1 the pointer's part asks nothing more. -/
theorem State.pointerInv_of_ready (s : State) (hseq : s.seq = .ready) (hdone : s.done = true) : s.PointerInv where
  doneReady := iff_of_true hdone hseq
  pixelInside h := by simp [hseq, pastRangeCheck] at h
  initPanel h := by simp [hseq, insideInit] at h

/-- Inside `Init`, but for its last statement, PANEL_STATE stays UNINITIALIZED while the operation goes on (R190). -/
theorem Effect.go_uninitialized {p : Seq} {s t : State} (e : Effect p s (.go t)) (hin : insideInit p = true)
    (hfinish : ¬ atInit .finish p) (hs : s.panelState = .uninitialized) : t.panelState = .uninitialized := by
  cases e
  case initFinish h => exact absurd h hfinish
  case link h => exact (h hin).trans hs
  case passed u _ hg =>
    have hu : u.panelState = .uninitialized := hg.panelState.trans hs
    simp [hu]
  case initStart => rfl
  all_goals exact hs

/-- `Init`'s first statement makes PANEL_STATE UNINITIALIZED (R190). -/
theorem runStatement_initStart (s : State) {p : Seq} (hp : atInit .start p) :
    runStatement p s = .go { s with panelState := .uninitialized } := by
  rcases hp with rfl | rfl <;> rfl

/-- The answer to a pixel out of range ends the operation (R123, R124). -/
theorem runStatement_outside_ne_go (s t : State) {p : Seq} (hp : p = .setPixel .outside ∨ p = .getPixel .outside) :
    runStatement p s ≠ .go t := by
  rcases hp with rfl | rfl <;> exact fun h => by cases h

/-- A statement after which the operation goes on, and the pointer's move after it, keep the pointer's part. -/
theorem runStatement_pointerInv (s u : State) (p : Seq) (hp : p ≠ .ready) (hseq : s.seq = p) (hs : s.PointerInv)
    (hrun : runStatement p s = .go u) : (u.moveOn p).PointerInv := by
  have e : Effect p s (.go u) := hrun ▸ runStatement_effect s p
  obtain ⟨hparams, -, hopf, -⟩ := e.frame rfl
  obtain ⟨huseq, hudone⟩ := e.go_pointer
  have hup : u.seq = p := huseq.trans hseq
  refine ⟨?_, fun hpast => ?_, fun hin => ?_⟩
  · have hready : (u.moveOn p).seq ≠ .ready := by
      intro h
      obtain ⟨op, hop⟩ := opOf_isSome_of_ne_ready hp
      rw [← opOf_moveOn u p hup, h] at hop
      cases hop
    have hdone : (u.moveOn p).done ≠ true := by
      rw [State.moveOn_done, hudone]
      exact fun h => hp (hseq.symm.trans (hs.doneReady.mp h))
    exact iff_of_false hdone hready
  · rw [State.moveOn_params, State.moveOn_opf]
    by_contra hout
    rw [Bool.not_eq_true] at hout
    have hnotpast : pastRangeCheck p = false := by
      rw [← Bool.not_eq_true]
      intro h
      have hin := hs.pixelInside (hseq.symm ▸ h)
      rw [hparams, hopf, hin] at hout
      cases hout
    have hstay := moveOn_before_rangeCheck u p hup hnotpast
      (fun h => runStatement_outside_ne_go s u (.inl h) hrun) (fun h => runStatement_outside_ne_go s u (.inr h) hrun) hout
    rw [hstay] at hpast
    cases hpast
  · rw [State.moveOn_panelState]
    rcases moveOn_insideInit u p hup hin with hstart | ⟨hpin, hfinish⟩
    · rw [runStatement_initStart s hstart] at hrun
      cases hrun
      rfl
    · exact e.go_uninitialized hpin hfinish (hs.initPanel (hseq.symm ▸ hpin))

/-! ### The statements -/

/-- A construction meets R36: the counter starts at 0. -/
theorem construct_cadenceOk (p : Params) : (State.construct p).cadenceOk := by
  refine ⟨fun _ => rfl, fun hn => ?_⟩
  change p.n ≠ 0 at hn
  change (0 : U32) < p.n
  bv_omega

/-- A constructed state meets the invariant (R280): its framebuffer and its trace are empty. -/
theorem construct_inv (p : Params) : (State.construct p).Inv := by
  refine (State.inv_iff _).mpr ⟨?_, State.pointerInv_of_ready _ rfl rfl⟩
  exact {
    fbWf := ⟨List.Pairwise.nil, fun c hc => absurd hc List.not_mem_nil⟩
    fbRange := fun c hc => absurd hc List.not_mem_nil
    cadence := construct_cadenceOk p
    status := Nat.zero_le 4
    csLow := rfl
    traceFramed := framed_nil }

/-- Settles O53. -/
theorem invariantAtReset : Obligations.InvariantAtReset :=
  ⟨construct_inv Config.params, construct_inv⟩

/-- The pointer's part after a step: READY with DONE = 1 where the step ends an operation, kept where it goes on. -/
theorem step_pointerInv (s t : State) (hs : s.PointerInv) (h : step s = .next t) : t.PointerInv := by
  by_cases hseq : s.seq = .ready
  · rcases step_ready_cases s t hseq h with ⟨-, rfl⟩ | ⟨-, f, rest, -, rfl | ⟨i, hf, hexec⟩⟩
    · exact hs
    · exact State.pointerInv_of_ready _ rfl rfl
    · obtain ⟨op, hop⟩ := hostOpOf_of_decodeFrame hf
      obtain ⟨u, st, v, he⟩ := exec_hostOp_ends _ i op hop
      obtain rfl := Host.Outcome.next.inj (he.symm.trans hexec)
      exact State.pointerInv_of_ready _ rfl rfl
  · rw [step_running s s.seq rfl hseq] at h
    have e := runStatement_effect s s.seq
    cases hrun : runStatement s.seq s with
    | go u =>
      rw [hrun] at h
      obtain rfl := Host.Outcome.next.inj h
      exact runStatement_pointerInv s u s.seq hseq rfl hs hrun
    | ended u =>
      rw [hrun] at h e
      obtain rfl := Host.Outcome.next.inj h
      obtain ⟨v, st, x, rfl⟩ := e.ended_finish hseq
      exact State.pointerInv_of_ready _ rfl rfl
    | fault f =>
      rw [hrun] at h
      cases h

/-- Settles O54: the data by what every update keeps, the pointer's part by the move after each statement. -/
theorem everyStepKeepsTheInvariant : Obligations.EveryStepKeepsTheInvariant := by
  unfold Obligations.EveryStepKeepsTheInvariant
  intro s t hs h
  obtain ⟨hdata, hpointer⟩ := s.inv_iff.mp hs
  exact t.inv_iff.mpr
    ⟨step_keeps kept_dataInv
      (fun _ _ _ hu => ⟨hu.fbWf, hu.fbRange, hu.cadence, hu.status, hu.csLow, hu.traceFramed⟩) s t hdata h,
      step_pointerInv s t hpointer h⟩

end Sys2Proof.Machine

namespace Sys2Proof.Machine

/-! ## The reserved plane code (R88)

The code `0b01` is a plane-2 bit over a clear plane-1 bit. No class of colours has it, so FILL and SET_PIXEL leave none
once both their writes are done; no other statement writes the framebuffer but SETUP's, which clears it. -/

/-- The claim is about the framebuffer and the parameters alone. -/
theorem State.noReservedCode_congr {s t : State} (hfb : t.fb = s.fb) (hp : t.params = s.params)
    (hs : s.noReservedCode) : t.noReservedCode := by
  unfold State.noReservedCode
  rw [hfb, hp]
  exact hs

/-- FILL's two bytes of a class hold no reserved code. -/
theorem fillByte_planes_noReserved (k : ColourClass) : fillByte (planes k).2 &&& ~~~(fillByte (planes k).1) = 0 := by
  cases k <;> decide

/-- Drawing a class under a mask makes no reserved code of two bytes that hold none. -/
theorem plotBits_planes_noReserved (a b m : Byte) (k : ColourClass) (h : b &&& ~~~a = 0) :
    plotBits b m (planes k).2 &&& ~~~(plotBits a m (planes k).1) = 0 := by
  ext i hi
  have hbit := congrArg (fun v => v.getLsbD i) h
  cases k <;> simp [plotBits, planes, hi, BitVec.getLsbD_eq_getElem] at hbit ⊢ <;> grind

theorem State.fillPlanes_noReservedCode (s : State) (c : Colour) : (s.fillPlanes c).noReservedCode := by
  intro i hi
  have hlen := s.params.bufLen_eq
  have hi' : i < s.params.half := hi
  rw [State.fillPlanes_params, State.read_fillPlanes, State.read_fillPlanes, if_neg (by omega), if_pos (by omega),
    if_pos hi', fillByte_planes_noReserved]

theorem State.plotPixel_noReservedCode (s : State) (x y : Nat) (c : Colour) (hw : s.fb.wf) (hx : x < s.params.cw.toNat)
    (hy : y < s.params.h.toNat) (hs : s.noReservedCode) : (s.plotPixel x y c).noReservedCode := by
  intro i hi
  have hi' : i < s.params.half := hi
  have ho := s.params.pixelOff_lt x y hx hy
  rw [State.plotPixel_params, State.read_plotPixel s x y c hw hx hy, State.read_plotPixel s x y c hw hx hy,
    if_neg (by omega : s.params.half + i ≠ s.params.pixelOff x y)]
  by_cases h : i = s.params.pixelOff x y
  · rw [if_pos (by omega), if_pos h]
    exact plotBits_planes_noReserved _ _ _ _ (hs i hi')
  · rw [if_neg (by omega), if_neg h, if_neg (by omega)]
    exact hs i hi'

/-- The cleared framebuffer reads back as 0x00 (R224, R283). -/
theorem read_clear (m : Memory) (n i : Nat) :
    (m.writeBytes 0 (List.replicate n 0x00)).read i = if i < n then 0x00 else m.read i := by
  rw [Memory.read_writeBytes, List.length_replicate]
  by_cases h : i < n
  · rw [if_pos (by omega), if_pos h]
    simp [h]
  · rw [if_neg (by omega), if_neg h]

/-- A cleared framebuffer holds no reserved code. -/
theorem State.clear_noReservedCode (s : State) :
    ({ s with fb := s.fb.writeBytes 0 (List.replicate s.params.bufLen 0x00) } : State).noReservedCode := by
  intro i hi
  have hlen := s.params.bufLen_eq
  have hi' : i < s.params.half := hi
  have hread := read_clear s.fb s.params.bufLen
  change (s.fb.writeBytes 0 _).read (s.params.half + i) &&& ~~~((s.fb.writeBytes 0 _).read i) = 0
  rw [hread, hread, if_pos (by omega), if_pos (by omega)]
  rfl

/-- Outside FILL and SET_PIXEL no statement writes a reserved code. -/
theorem Effect.noReservedCode {p : Seq} {s t : State} {r : Flow} (e : Effect p s r)
    (hfill : p ≠ .fill .plane1 ∧ p ≠ .fill .plane2) (hset : p ≠ .setPixel .plane1 ∧ p ≠ .setPixel .plane2)
    (hs : s.noReservedCode) (h : r.outcome = .next t) : t.noReservedCode := by
  cases e <;> cases h
  case passed u _ hg => exact State.noReservedCode_congr (s := s) hg.fb hg.params hs
  case aborted u _ _ hg => exact State.noReservedCode_congr (s := s) hg.fb hg.params hs
  case clearFb => exact s.clear_noReservedCode
  case fillPlane hp _ => exact absurd hp (not_or_intro hfill.1 hfill.2)
  case plotPlane hp _ => exact absurd hp (not_or_intro hset.1 hset.2)
  all_goals exact hs

theorem kept_noReservedCode : Kept (fun p => opOf p ≠ some .fill ∧ opOf p ≠ some .setPixel) State.noReservedCode where
  moved _ _ _ hs := hs
  effect p _ _ _ hp hs e h := by
    obtain ⟨hfill, hset⟩ := hp
    refine e.noReservedCode ⟨?_, ?_⟩ ⟨?_, ?_⟩ hs h <;> rintro rfl
    · exact hfill rfl
    · exact hfill rfl
    · exact hset rfl
    · exact hset rfl

/-- A state with no plane-2 write ahead counts as it is. -/
theorem State.settled_eq_self (s : State) (hfill : s.seq ≠ .fill .plane2) (hset : s.seq ≠ .setPixel .plane2) :
    s.settled = s := by
  unfold State.settled
  split
  case h_1 h => exact absurd h hfill
  case h_2 h => exact absurd h hset
  case h_3 => rfl

theorem State.settled_of_ready (s : State) (h : s.seq = .ready) : s.settled = s :=
  s.settled_eq_self (by simp [h]) (by simp [h])

/-- Every host operation run whole leaves no reserved code (R122, R123, R224). -/
theorem exec_noReservedCode (s t : State) (i : Instr) (op : HostOp) (hop : hostOpOf i = some op) (hw : s.fb.wf)
    (hs : s.noReservedCode) (h : exec i s = .next t) : t.noReservedCode := by
  have hother : op ≠ .fill → op ≠ .setPixel → t.noReservedCode := fun h1 h2 =>
    exec_keeps kept_noReservedCode i (fun p hp => by
      rw [opOf_of_runsAt hop hp]
      exact ⟨fun he => h1 (Option.some.inj he), fun he => h2 (Option.some.inj he)⟩) s t hs h
  cases i <;> cases hop
  case fill c =>
    cases hd : s.setupDone with
    | false =>
      obtain rfl := Host.Outcome.next.inj ((execFill_early s c hd).symm.trans h)
      exact hs
    | true =>
      obtain rfl := Host.Outcome.next.inj ((execFill_ready s c hd).symm.trans h)
      exact s.fillPlanes_noReservedCode c
  case setPixel x y c =>
    rcases exec_setPixel_cases s t x y c h with ⟨hr, rfl⟩ | ⟨st, rfl⟩
    · obtain ⟨hx, hy⟩ := s.params.inRange_area hr
      exact s.plotPixel_noReservedCode _ _ c hw hx hy hs
    · exact hs
  all_goals exact hother (by decide) (by decide)

/-- The pointer moves to the next statement if that one always runs. -/
theorem moveOn_of_next (s : State) (p q : Seq) (l : List Seq) (hp : laterPositions p = q :: l)
    (hq : seqEnabled q s = true) : s.moveOn p = { s with seq := q } := by
  simp [State.moveOn, hp, hq]

/-- The pointer comes to a plane-2 write from the plane-1 write before it alone. -/
theorem moveOn_ne_plane2 (s : State) (p : Seq) (hseq : s.seq = p) (hfill : p ≠ .fill .plane1 ∧ p ≠ .fill .plane2)
    (hset : p ≠ .setPixel .plane1 ∧ p ≠ .setPixel .plane2) :
    (s.moveOn p).seq ≠ .fill .plane2 ∧ (s.moveOn p).seq ≠ .setPixel .plane2 := by
  have hnext : ∀ q l, laterPositions p = q :: l → seqEnabled q s = true → q ≠ .fill .plane2 ∧ q ≠ .setPixel .plane2 →
      (s.moveOn p).seq ≠ .fill .plane2 ∧ (s.moveOn p).seq ≠ .setPixel .plane2 := by
    intro q l hp hq hne
    rw [moveOn_of_next s p q l hp hq]
    exact hne
  have hlast : laterPositions p = [] →
      (s.moveOn p).seq ≠ .fill .plane2 ∧ (s.moveOn p).seq ≠ .setPixel .plane2 := by
    intro hp
    have hstay : s.moveOn p = s := by simp [State.moveOn, hp]
    rw [hstay, hseq]
    exact ⟨hfill.2, hset.2⟩
  have hother : opOf p ≠ some .fill → opOf p ≠ some .setPixel →
      (s.moveOn p).seq ≠ .fill .plane2 ∧ (s.moveOn p).seq ≠ .setPixel .plane2 := by
    intro h1 h2
    rw [← opOf_moveOn s p hseq] at h1 h2
    exact ⟨fun h => h1 (by rw [h]; rfl), fun h => h2 (by rw [h]; rfl)⟩
  cases p
  case fill q =>
    cases q
    case plane1 => exact absurd rfl hfill.1
    case plane2 => exact absurd rfl hfill.2
    case ret => exact hlast rfl
    all_goals exact hnext _ _ rfl rfl (by decide)
  case setPixel q =>
    cases q
    case plane1 => exact absurd rfl hset.1
    case plane2 => exact absurd rfl hset.2
    case ret => exact hlast rfl
    case coordY =>
      rcases moveOn_seq_of_barrier s (.setPixel .coordY) [.setPixel .outside] (.setPixel .planes) _ rfl rfl with h | h
      · rw [List.mem_singleton.mp h]
        decide
      · rw [h]
        decide
    all_goals exact hnext _ _ rfl rfl (by decide)
  case entry op =>
    cases op
    case fill => exact hnext _ _ rfl rfl (by decide)
    case setPixel => exact hnext _ _ rfl rfl (by decide)
    all_goals exact hother (by decide) (by decide)
  all_goals exact hother (by simp [opOf]) (by simp [opOf])

/-- A step at a position that is no plane write leaves no reserved code and no plane-2 write ahead. -/
theorem runOne_noReservedCode (s t : State) (p : Seq) (hseq : s.seq = p) (hready : p ≠ .ready)
    (hfill : p ≠ .fill .plane1 ∧ p ≠ .fill .plane2) (hset : p ≠ .setPixel .plane1 ∧ p ≠ .setPixel .plane2)
    (hs : s.noReservedCode) (h : ((runStatement p s).moveOn p).outcome = .next t) : t.settled.noReservedCode := by
  have e := runStatement_effect s p
  cases hrun : runStatement p s with
  | go u =>
    rw [hrun] at h e
    obtain rfl := Host.Outcome.next.inj h
    obtain ⟨h1, h2⟩ := moveOn_ne_plane2 u p (e.go_pointer.1.trans hseq) hfill hset
    rw [State.settled_eq_self _ h1 h2]
    exact State.noReservedCode_congr (s := u) (u.moveOn_fb p) (u.moveOn_params p) (e.noReservedCode hfill hset hs rfl)
  | ended u =>
    rw [hrun] at h e
    obtain rfl := Host.Outcome.next.inj h
    have hu := e.noReservedCode hfill hset hs rfl
    obtain ⟨v, st, x, rfl⟩ := e.ended_finish hready
    rw [State.settled_of_ready _ rfl]
    exact hu
  | fault f =>
    rw [hrun] at h
    cases h

/-- A step at a plane write: the plane-1 write counts with the write ahead, the plane-2 write completes it. -/
theorem runOne_plane_noReservedCode (s t : State) (p : Seq) (hseq : s.seq = p) (hinv : s.Inv)
    (hp : (p = .fill .plane1 ∨ p = .fill .plane2) ∨ p = .setPixel .plane1 ∨ p = .setPixel .plane2)
    (hs : s.settled.noReservedCode) (h : ((runStatement p s).moveOn p).outcome = .next t) :
    t.settled.noReservedCode := by
  have hnext : ∀ u q l, runStatement p s = .go u → laterPositions p = q :: l → seqEnabled q u = true →
      t = { u with seq := q } := by
    intro u q l hu hl hq
    rw [hu] at h
    exact (Host.Outcome.next.inj h).symm.trans (moveOn_of_next u p q l hl hq)
  have hpixel : pastRangeCheck s.seq = true → s.params.inRange (operandsOf s.opf).x (operandsOf s.opf).y = true :=
    hinv.pixelInside
  rcases hp with (rfl | rfl) | rfl | rfl
  · obtain rfl := hnext _ _ _ rfl rfl rfl
    exact s.fillPlanes_noReservedCode (operandsOf s.opf).colour
  · obtain rfl := hnext _ _ _ rfl rfl rfl
    rw [State.settled, hseq] at hs
    exact hs
  · have hr := hpixel (by rw [hseq]; rfl)
    obtain rfl := hnext _ _ _ (s.accessFb_of_lt _ (pixelByte_lt s _ hr).1) rfl rfl
    rw [s.settled_eq_self (by simp [hseq]) (by simp [hseq])] at hs
    obtain ⟨hx, hy⟩ := s.params.inRange_area hr
    exact s.plotPixel_noReservedCode _ _ (operandsOf s.opf).colour hinv.fbWf hx hy hs
  · have hr := hpixel (by rw [hseq]; rfl)
    obtain rfl := hnext _ _ _ (s.accessFb_of_lt _ (pixelByte_lt s _ hr).2) rfl rfl
    rw [State.settled, hseq] at hs
    exact hs

/-- No step writes the reserved code, a plane-2 write ahead counted as done. -/
theorem step_noReservedCode (s t : State) (hinv : s.Inv) (hs : s.settled.noReservedCode) (h : step s = .next t) :
    t.settled.noReservedCode := by
  by_cases hseq : s.seq = .ready
  · have hs' := hs
    rw [s.settled_of_ready hseq] at hs'
    rcases step_ready_cases s t hseq h with ⟨-, rfl⟩ | ⟨-, f, rest, -, rfl | ⟨i, hf, hexec⟩⟩
    · exact hs
    · exact hs'
    · obtain ⟨op, hop⟩ := hostOpOf_of_decodeFrame hf
      obtain ⟨u, st, v, he⟩ := exec_hostOp_ends _ i op hop
      have ht := exec_noReservedCode { s with hostIn := rest, opf := f } t i op hop hinv.fbWf hs' hexec
      obtain rfl := Host.Outcome.next.inj (he.symm.trans hexec)
      rw [State.settled_of_ready _ rfl]
      exact ht
  · rw [step_running s s.seq rfl hseq] at h
    by_cases hp : (s.seq = .fill .plane1 ∨ s.seq = .fill .plane2) ∨ s.seq = .setPixel .plane1 ∨ s.seq = .setPixel .plane2
    · exact runOne_plane_noReservedCode s t s.seq rfl hinv hp hs h
    · simp only [not_or] at hp
      obtain ⟨hfill, hset⟩ := hp
      rw [s.settled_eq_self hfill.2 hset.2] at hs
      exact runOne_noReservedCode s t s.seq rfl hseq hfill hset hs h

/-- Settles O55: an empty framebuffer holds no code at all, and every step keeps the claim. -/
theorem noStepWritesTheReservedCode : Obligations.NoStepWritesTheReservedCode :=
  ⟨fun _ _ _ => BitVec.zero_and, step_noReservedCode, State.settled_of_ready⟩

end Sys2Proof.Machine

namespace Sys2Proof.Machine

/-! ## Every panel command (R90, R103) -/

/-- `t` is `s` after one panel command of opcode `b`: only the link and PANEL_STATE differ, and the trace has gained that
command (R90). -/
def CommandChange (b : Byte) (s t : State) : Prop :=
  t = { s with tr := t.tr, dcLvl := t.dcLvl, cs := t.cs, panelState := t.panelState }
    ∧ ∃ bs, commandsSent t.tr = commandsSent s.tr ++ [(b, bs)]

theorem commandChange_cmd (s : State) (b : Byte) : CommandChange b s (s.cmd b) := by
  rw [State.cmd_eq]
  exact ⟨rfl, [], commandsSent_evCmd s.tr b⟩

theorem commandChange_cmd_dat (s : State) (b : Byte) (bs : List Byte) : CommandChange b s ((s.cmd b).dat bs) := by
  rw [State.cmd_dat_eq]
  exact ⟨rfl, bs, commandsSent_evCmd_evDat s.tr b bs⟩

theorem commandChange_cmdDat (s : State) (b : Byte) (bs : List Byte) : CommandChange b s (s.cmdDat b bs) := by
  rw [State.cmdDat_eq]
  exact ⟨rfl, bs, commandsSent_evCmdDat s.tr b bs⟩

/-- The stream of a plane: PANEL_STATE moves between the opcode and the data (R184, R185). -/
theorem commandChange_stream (s : State) (b : Byte) (bs : List Byte) :
    CommandChange b s ((s.cmd b).markBusy.dat bs) := by
  rw [s.cmd_markBusy_dat_payload b rfl]
  exact ⟨rfl, bs, commandsSent_evCmd_evDat s.tr b bs⟩

/-- A command may move PANEL_STATE besides (R40). -/
theorem CommandChange.setPanelState {b : Byte} {s t : State} (h : CommandChange b s t) (v : PanelState) :
    CommandChange b s { t with panelState := v } := by
  obtain ⟨heq, hsent⟩ := h
  refine ⟨?_, hsent⟩
  rw [heq]

/-- The panel sleep, with its payload or without (R189). -/
theorem commandChange_deepSleep (s : State) : CommandChange s.params.opc.deepSleep s (sendDeepSleep s) := by
  unfold sendDeepSleep
  split
  · exact (commandChange_cmd s _).setPanelState _
  · exact (commandChange_cmd_dat s _ _).setPanelState _

/-- Each of the 21 commands sends its own opcode (R101, R103). -/
theorem exec_panelCommand (i : Instr) (s : State) (hi : i ∈ panelCommands) :
    ∃ t b, exec i s = .next t ∧ opcodeOf s.params.opc i = some b ∧ CommandChange b s t := by
  cases i
  case swReset => exact ⟨_, _, rfl, rfl, commandChange_cmd s _⟩
  case terminate => exact ⟨_, _, rfl, rfl, commandChange_cmd s _⟩
  case masterAct => exact ⟨_, _, rfl, rfl, (commandChange_cmd s _).setPanelState _⟩
  case lut => exact ⟨_, _, rfl, rfl, commandChange_cmdDat s _ _⟩
  case writeBw => exact ⟨_, _, rfl, rfl, commandChange_stream s _ _⟩
  case writeRed => exact ⟨_, _, rfl, rfl, commandChange_stream s _ _⟩
  case deepSleep => exact ⟨_, _, rfl, rfl, commandChange_deepSleep s⟩
  case setup => exact absurd hi (by decide)
  case display => exact absurd hi (by decide)
  case fill => simp [panelCommands] at hi
  case setPixel => simp [panelCommands] at hi
  case getPixel => simp [panelCommands] at hi
  case setDsbu => simp [panelCommands] at hi
  case readReg => simp [panelCommands] at hi
  all_goals exact ⟨_, _, rfl, rfl, commandChange_cmd_dat s _ _⟩

/-- Settles O52. -/
theorem panelCommandsTouchOnlyTheLink : Obligations.PanelCommandsTouchOnlyTheLink := by
  unfold Obligations.PanelCommandsTouchOnlyTheLink
  intro i s hi
  obtain ⟨t, b, hexec, hb, hframe, bs, hsent⟩ := exec_panelCommand i s hi
  exact ⟨t, hexec, hframe, b, bs, hb, hsent⟩

/-! ## PANEL_STATE over one statement (R40) -/

/-- A gate moves PANEL_STATE from BUSY to IDLE, where it passes, and no other way. -/
theorem gate_panelState (s t : State) (site : GateSite) (h : (s.gate site).outcome = .next t) :
    t.panelState = s.panelState ∨ s.gate site = .go t ∧ s.panelState = .busy ∧ t.panelState = .idle := by
  obtain ⟨u, hu, hgate | hgate⟩ := gate_cases s site
  · rw [hgate] at h
    obtain rfl := Host.Outcome.next.inj h
    rw [State.gatePassed_panelState, hu.panelState]
    split
    · next hbusy => exact .inr ⟨hgate, hbusy, rfl⟩
    · exact .inl rfl
  · rw [hgate] at h
    obtain rfl := Host.Outcome.next.inj h
    exact .inl hu.panelState

/-- `markBusy` moves PANEL_STATE to BUSY from neither UNINITIALIZED nor SLEEPING, or leaves it. -/
theorem State.markBusy_cases (s : State) :
    s.markBusy.panelState = s.panelState
      ∨ s.panelState ≠ .uninitialized ∧ s.panelState ≠ .sleeping ∧ s.markBusy.panelState = .busy := by
  rw [State.markBusy_panelState]
  split
  · exact .inl rfl
  · next h =>
    rw [not_or] at h
    exact .inr ⟨h.1, h.2, rfl⟩

theorem sendMasterAct_panelState (s : State) : (sendMasterAct s).panelState = s.markBusy.panelState := by
  rw [sendMasterAct, State.cmd_markBusy_eq]

theorem sendWriteBw_panelState (s : State) : (sendWriteBw s).panelState = s.markBusy.panelState := by
  rw [sendWriteBw, s.cmd_markBusy_dat_payload _ rfl]

theorem sendWriteRed_panelState (s : State) : (sendWriteRed s).panelState = s.markBusy.panelState := by
  rw [sendWriteRed, s.cmd_markBusy_dat_payload _ rfl]

/-- R40's table over one statement. -/
def PanelMove (p : Seq) (s t : State) : Prop :=
  t.panelState = s.panelState
    ∨ ((p = .setup (.init .start) ∨ p = .display (.wake .start)) ∧ t.panelState = .uninitialized)
    ∨ ((p = .setup (.init .finish) ∨ p = .display (.wake .finish))
        ∧ s.panelState = .uninitialized ∧ t.panelState = .idle)
    ∨ ((commandAt p = some .masterAct ∨ commandAt p = some .writeBw ∨ commandAt p = some .writeRed)
        ∧ s.panelState ≠ .uninitialized ∧ s.panelState ≠ .sleeping ∧ t.panelState = .busy)
    ∨ (commandAt p = some .deepSleep ∧ t.panelState = .sleeping)
    ∨ ((∃ site, runStatement p s = s.gate site ∧ s.gate site = .go t) ∧ s.panelState = .busy ∧ t.panelState = .idle)

section
variable {p : Seq} {s t : State}

/-- A gate's move is the table's. -/
theorem panelMove_gate (site : GateSite) (hrun : runStatement p s = s.gate site)
    (h : (runStatement p s).outcome = .next t) : PanelMove p s t := by
  rw [hrun] at h
  rcases gate_panelState s t site h with hsame | ⟨hgo, hmove⟩
  · exact .inl hsame
  · exact .inr (.inr (.inr (.inr (.inr ⟨⟨site, hrun, hgo⟩, hmove⟩))))

/-- A plane stream's or an activation's move is the table's. -/
theorem panelMove_markBusy
    (hc : commandAt p = some .masterAct ∨ commandAt p = some .writeBw ∨ commandAt p = some .writeRed)
    (h : t.panelState = s.markBusy.panelState) : PanelMove p s t := by
  unfold PanelMove
  rw [h]
  rcases s.markBusy_cases with hsame | hbusy
  · exact .inl hsame
  · exact .inr (.inr (.inr (.inl ⟨hc, hbusy⟩)))

/-- A statement of `Init` moves PANEL_STATE as the table says (R190). -/
theorem panelMove_init (q : InitStep) (hq : atInit q p) (hrun : runStatement p s = runInit q s)
    (hinit : insideInit p = true → s.panelState = .uninitialized) (h : (runStatement p s).outcome = .next t) :
    PanelMove p s t := by
  cases q
  case gateHwReset => exact panelMove_gate _ hrun h
  case gateSwReset => exact panelMove_gate _ hrun h
  all_goals
    rw [hrun] at h
    cases h
  case start => exact .inr (.inl ⟨hq, rfl⟩)
  case finish =>
    have hin : insideInit p = true := by rcases hq with rfl | rfl <;> rfl
    exact .inr (.inr (.inl ⟨hq, hinit hin, rfl⟩))
  case rstLow => exact .inl rfl
  case rstLowWait => exact .inl rfl
  case rstHigh => exact .inl rfl
  case rstHighWait => exact .inl rfl
  case swReset => exact .inl (State.cmd_panelState _ _)
  all_goals exact .inl ((State.dat_panelState _ _).trans (State.cmd_panelState _ _))

/-- A statement of DISPLAY moves PANEL_STATE as the table says (R226). -/
theorem panelMove_display (q : DisplayStep) (hinit : insideInit (.display q) = true → s.panelState = .uninitialized)
    (h : (runStatement (.display q) s).outcome = .next t) : PanelMove (.display q) s t := by
  cases q
  case wake r => exact panelMove_init r (.inr rfl) rfl hinit h
  case gateStart => exact panelMove_gate _ rfl h
  case gateRam => exact panelMove_gate _ rfl h
  all_goals cases h
  case preActivate => exact panelMove_markBusy (.inl rfl) (sendMasterAct_panelState s)
  case activate => exact panelMove_markBusy (.inl rfl) (sendMasterAct_panelState s)
  case writeBw =>
    exact panelMove_markBusy (.inr (.inl rfl)) (sendWriteBw_panelState s)
  case writeRed =>
    exact panelMove_markBusy (.inr (.inr rfl)) (sendWriteRed_panelState s)
  case sleep => exact .inr (.inr (.inr (.inr (.inl ⟨rfl, rfl⟩))))
  case lut => exact .inl (State.cmdDat_panelState _ _ _)
  case terminate => exact .inl (State.cmd_panelState _ _)
  case mode => exact .inl rfl
  case advance => exact .inl rfl
  case clearWarning => exact .inl rfl
  case ret => exact .inl rfl
  all_goals exact .inl ((State.dat_panelState _ _).trans (State.cmd_panelState _ _))

end

/-- Outside SETUP and DISPLAY no statement moves PANEL_STATE. -/
theorem Effect.panelState {p : Seq} {s t : State} {r : Flow} (e : Effect p s r) (hp : drivesPanel p = false)
    (h : r.outcome = .next t) : t.panelState = s.panelState := by
  have hinit : ∀ q, ¬ atInit q p := by
    rintro q (rfl | rfl) <;> cases hp
  cases e <;> cases h
  case initStart ha => exact absurd ha (hinit _)
  case initFinish ha => exact absurd ha (hinit _)
  case link hd _ _ _ => simp [hp] at hd
  case passed hd _ => simp [hp] at hd
  case aborted hd _ => simp [hp] at hd
  all_goals rfl

/-- Settles O30: `Init`'s two ends, the commands that mark the panel busy or asleep, and the gates, position by
position. -/
theorem panelStateMovesAsTheTableSays : Obligations.PanelStateMovesAsTheTableSays := by
  unfold Obligations.PanelStateMovesAsTheTableSays
  intro s t p hseq hinit h
  change PanelMove p s t
  cases p
  case setup q =>
    cases q
    case init r => exact panelMove_init r (.inl rfl) rfl hinit h
    all_goals
      cases h
      exact .inl rfl
  case display q => exact panelMove_display q hinit h
  all_goals exact .inl ((runStatement_effect s _).panelState rfl h)

/-! ## An operation run whole is its statements run one at a time (R27, R262) -/

/-- In its own program a position is followed by the positions after it there: no position stands twice. -/
theorem laterPositions_of_split {op : HostOp} {pre rest : List Seq} {p : Seq}
    (h : operationProgram op = pre ++ p :: rest) : laterPositions p = rest := by
  have hnodup : ∀ op, (operationProgram op).Nodup := by
    intro op
    cases op <;> decide
  have hp : p ∉ pre := by
    have hn := hnodup op
    rw [h] at hn
    exact fun hmem => (List.nodup_append.mp hn).2.2 p hmem p (by simp) rfl
  have hprog : programOf p = pre ++ p :: rest := by
    rw [← h]
    exact programOf_of_opOf (opOf_of_mem (op := op) (by rw [h]; simp))
  have hdrop : (pre ++ p :: rest).dropWhile (fun q => decide (q ≠ p)) = p :: rest := by
    rw [List.dropWhile_append_of_pos]
    · simp
    · intro q hq
      exact decide_eq_true fun heq => hp (heq ▸ hq)
  rw [laterPositions, hprog, hdrop, List.tail_cons]

/-- After a statement the pointer stands at the first later statement no `if` passes over. -/
theorem moveOn_eq_dropWhile (s : State) {p : Seq} {rest : List Seq} (h : laterPositions p = rest) :
    s.moveOn p = match rest.dropWhile (fun q => !seqEnabled q s) with
      | [] => s
      | q :: _ => { s with seq := q } := by
  rw [State.moveOn, h]
  clear h
  induction rest with
  | nil => rfl
  | cons q rest ih => cases hq : seqEnabled q s <;> simp [hq, ih]

/-- One step as a run. -/
theorem run_one (s : State) : Host.Core.run core 1 s = step s := by
  have general (M : Host.Core) (x : M.State) : M.run 1 x = M.step x := by
    cases h : M.step x <;> simp only [Host.Core.run, h]
  exact general core s

/-- From an enabled statement of an operation some number of steps reaches what running its sequence from there on
reaches. -/
theorem run_reaches_runList {op : HostOp} (n : Nat) (rest pre : List Seq) (p : Seq) (s : State)
    (hn : rest.length = n) (hprog : operationProgram op = pre ++ p :: rest) (hseq : s.seq = p)
    (hen : seqEnabled p s = true) : ∃ k, Host.Core.run core k s = (runList (p :: rest) s).outcome := by
  induction n using Nat.strong_induction_on generalizing rest pre p s with
  | _ n ih =>
    have hop : opOf p = some op := opOf_of_mem (by rw [hprog]; simp)
    have hready : p ≠ .ready := by
      rintro rfl
      cases hop
    have hstep := step_running s p hseq hready
    have hlist : runList (p :: rest) s = (runStatement p s).bind (runList rest) := by
      rw [runList_enabled p rest s hen, ← hseq]
    rw [hlist]
    cases hrun : runStatement p s with
    | fault f => exact ⟨1, by rw [run_one, hstep, hrun]; rfl⟩
    | ended u => exact ⟨1, by rw [run_one, hstep, hrun]; rfl⟩
    | go u =>
      have hnext : step s = .next (u.moveOn p) := by
        rw [hstep, hrun]
        rfl
      rw [Flow.bind_go, runList_dropWhile]
      rw [moveOn_eq_dropWhile u (laterPositions_of_split hprog)] at hnext
      cases hdrop : rest.dropWhile (fun q => !seqEnabled q u) with
      | nil =>
        rw [hdrop] at hnext
        exact ⟨1, by rw [run_one, hnext]; rfl⟩
      | cons q rest' =>
        rw [hdrop] at hnext
        have hsplit : rest = rest.takeWhile (fun q => !seqEnabled q u) ++ q :: rest' := by
          rw [← hdrop, List.takeWhile_append_dropWhile]
        have hlt : rest'.length < n := by
          rw [← hn, hsplit, List.length_append, List.length_cons]
          omega
        have hq : seqEnabled q u = true := by
          simpa [hdrop] using List.head_dropWhile_not (fun q => !seqEnabled q u) (l := rest) (by simp [hdrop])
        obtain ⟨k, hk⟩ := ih rest'.length hlt rest' (pre ++ p :: rest.takeWhile (fun q => !seqEnabled q u)) q
          { u with seq := q } rfl (by rw [hprog, List.append_assoc, List.cons_append, ← hsplit]) rfl
          ((seqEnabled_seq q q u).trans hq)
        exact ⟨k + 1, (run_succ k s _ hnext).trans hk⟩

/-- Settles O59: from the entry, and from the first statement of a body that no `if` passes over. -/
theorem statementStepsReachTheWholeOperation : Obligations.StatementStepsReachTheWholeOperation := by
  unfold Obligations.StatementStepsReachTheWholeOperation
  refine ⟨fun s op i hseq hdone hf hop => ?_, fun s ps p rest hps hdrop hseq => ?_⟩
  · have hstart : s.start op = s := by
      rw [State.start, ← hseq, ← hdone]
    rw [exec_eq_runList s i op hf hop, hstart]
    exact run_reaches_runList _ _ [] (.entry op) s rfl rfl hseq rfl
  · have hprog : ∃ op, operationProgram op = .entry op :: ps := by
      rcases hps with rfl | rfl
      · exact ⟨.setup, rfl⟩
      · exact ⟨.display, rfl⟩
    obtain ⟨op, hprog⟩ := hprog
    have hen : seqEnabled p s = true := by
      simpa [hdrop] using List.head_dropWhile_not (fun q => !seqEnabled q s) (l := ps) (by simp [hdrop])
    have hsplit : operationProgram op = (.entry op :: ps.takeWhile (fun q => !seqEnabled q s)) ++ p :: rest := by
      rw [hprog, ← hdrop, List.cons_append, List.takeWhile_append_dropWhile]
    have hself : ({ s with seq := p } : State) = s := by
      rw [← hseq]
    rw [runList_dropWhile, hdrop]
    change ∃ k, _ = (runList (p :: rest) { s with seq := p }).outcome
    rw [hself]
    exact run_reaches_runList _ rest _ p s rfl hsplit hseq hen

end Sys2Proof.Machine

namespace Sys2Proof.Machine

/-! ## The busy gate (R153–R156, R30)

Laws/Gate.lean gives what a gate changes and what its loop appends. Below stands the account of time that bounds the loop:
after `k` sleeps at least `k * POLL_MS` have passed since BG_START was read, so with no sleep left the next read exceeds
the timeout. -/

/-! ### The fast paths -/

/-- Without a busy line a gate passes and appends nothing. -/
theorem waitUntilIdle_of_no_busy (s : State) (timeout : U32) (h : s.params.hasBusy = false) :
    s.waitUntilIdle timeout = (true, s.gatePassed) := by
  simp [State.waitUntilIdle, State.pollUntilIdle, h]

/-- An inactive first sample passes the gate. -/
theorem waitUntilIdle_of_idle (s : State) (timeout : U32) (rest : List Bool) (hb : s.params.hasBusy = true)
    (h : s.busyIn = (!s.params.busyActiveLevel) :: rest) :
    s.waitUntilIdle timeout
      = (true, ({ s with busyIn := rest }.emit [.busy (!s.params.busyActiveLevel)]).gatePassed) := by
  simp [State.waitUntilIdle, State.pollUntilIdle, State.busyRead, State.drawBusy, h, hb]

/-! ### What the environment's reads leave -/

/-- A BUSY sample leaves the account of time. -/
theorem busyRead_time (s : State) : s.busyRead.2.lastNow = s.lastNow ∧ s.busyRead.2.slept = s.slept := by
  rw [State.busyRead, drawBusy_change s]
  exact ⟨rfl, rfl⟩

/-- A time read starts the account of time afresh, from a value the environment may supply (R150). -/
theorem nowMs_time (s : State) :
    s.nowMs.2.lastNow = some s.nowMs.1 ∧ s.nowMs.2.slept = 0 ∧ timeConforms s.lastNow s.slept s.nowMs.1 = true :=
  ⟨rfl, rfl, timeConforms_conformingTime _ _ _⟩

/-- A time read takes no BUSY level. -/
theorem nowMs_busyIn (s : State) : s.nowMs.2.busyIn = s.busyIn := by
  simp only [State.nowMs, State.emit]
  rw [drawTime_change s]

/-- The BUSY level supplied next is the sample. -/
theorem busyRead_of_busyIn (s : State) (v : Bool) (rest : List Bool) (h : s.busyIn = v :: rest) :
    s.busyRead.1 = v ∧ s.busyRead.2.busyIn = rest := by
  simp [State.busyRead, State.drawBusy, h]

/-- The loop is entered with BG_START just read (R153, R30). -/
theorem startClock_eq (s : State) :
    s.startClock.tr = s.tr ++ [Event.now s.startClock.bgStart] ∧ s.startClock.params = s.params
      ∧ s.startClock.lastNow = some s.startClock.bgStart ∧ s.startClock.slept = 0
      ∧ s.startClock.busyIn = s.busyIn := by
  obtain ⟨htr, -, hparams⟩ := nowMs_eq s
  exact ⟨htr, hparams, rfl, rfl, nowMs_busyIn s⟩

/-- An iteration that does not return leaves its read as the last one, and its sleep as the only one since. -/
theorem State.polled_time (s : State) :
    (s.polled s.busyRead.2.nowMs.1).lastNow = some s.busyRead.2.nowMs.1
      ∧ (s.polled s.busyRead.2.nowMs.1).slept = s.params.pollMs.toNat
      ∧ (s.polled s.busyRead.2.nowMs.1).busyIn = s.busyRead.2.busyIn := by
  obtain ⟨hlast, hslept, -⟩ := nowMs_time s.busyRead.2
  have hbusy := nowMs_busyIn s.busyRead.2
  simp only [State.polled]
  split <;> simp [State.wdtReset, State.yieldHost, State.logEvent, hlast, hslept, hbusy]

/-! ### The loop's exits -/

/-- An inactive sample passes the loop. -/
theorem gateLoop_idle (fuel : Nat) (timeout : U32) (s : State) (hb : s.busyRead.1 ≠ s.params.busyActiveLevel) :
    gateLoop fuel timeout s = (true, s.busyRead.2) := by
  cases fuel <;> simp only [gateLoop, ne_eq, hb, not_false_eq_true, if_true]

/-- With no sleep left an active sample fails the loop. -/
theorem gateLoop_zero_active (timeout : U32) (s : State) (hb : s.busyRead.1 = s.params.busyActiveLevel) :
    gateLoop 0 timeout s = (false, s.busyRead.2.nowMs.2.logEvent .idleTimeout) := by
  simp only [gateLoop, hb, ne_eq, not_true_eq_false, if_false]

/-! ### The account of time at the loop's head -/

/-- At the loop's head the last read was within the timeout, at most one sleep followed it, and at least `n` ms have
passed since BG_START. -/
def Polling (timeout : U32) (n : Nat) (s : State) : Prop :=
  ∃ last, s.lastNow = some last ∧ (last - s.bgStart).toNat ≤ timeout.toNat
    ∧ n ≤ (last - s.bgStart).toNat + s.slept ∧ s.slept ≤ s.params.pollMs.toNat

/-- The loop is entered with nothing passed. -/
theorem polling_startClock (s : State) (timeout : U32) : Polling timeout 0 s.startClock := by
  obtain ⟨-, -, hlast, hslept, -⟩ := startClock_eq s
  exact ⟨s.startClock.bgStart, hlast, by simp, Nat.zero_le _, by omega⟩

section
variable {timeout : U32} {n : Nat} {s : State} (h : Polling timeout n s)
  (hT : timeout.toNat + s.params.pollMs.toNat < 2 ^ 31)
include h hT

/-- By the time axiom the next read shows at least `n` ms since BG_START (R150, R154). -/
theorem Polling.le_elapsed : n ≤ (s.busyRead.2.nowMs.1 - s.bgStart).toNat := by
  obtain ⟨last, hlast, hle, hn, hslept⟩ := h
  obtain ⟨-, -, hconf⟩ := nowMs_time s.busyRead.2
  obtain ⟨hl, hs⟩ := busyRead_time s
  generalize s.busyRead.2.nowMs.1 = x at hconf ⊢
  rw [hl, hs, hlast] at hconf
  have haxiom : s.slept ≤ (x - last).toNat ∧ (x - last).toNat < 2 ^ 31 := by
    simp only [timeConforms, timeAxiom, Bool.or_eq_true, Bool.and_eq_true, decide_eq_true_eq] at hconf
    exact hconf.resolve_right (by omega)
  have hsum : (x - s.bgStart).toNat = (x - last).toNat + (last - s.bgStart).toNat := by
    rw [← sub_add_sub_cancel x last s.bgStart, BitVec.toNat_add, Nat.mod_eq_of_lt (by omega)]
  omega

omit hT in
/-- An iteration that does not return adds its sleep to what has passed. -/
theorem Polling.polled (hb : s.busyRead.1 = s.params.busyActiveLevel)
    (hT : timeout.toNat + s.params.pollMs.toNat < 2 ^ 31)
    (hx : ¬ timeout < s.busyRead.2.nowMs.1 - s.bgStart) :
    Polling timeout (n + s.params.pollMs.toNat) (s.polled s.busyRead.2.nowMs.1) := by
  have hle := h.le_elapsed hT
  obtain ⟨hlast, hslept, -⟩ := s.polled_time
  obtain ⟨-, hstart, hparams⟩ := s.polled_eq _ rfl hb
  refine ⟨_, hlast, ?_, ?_, ?_⟩
  · rw [hstart]
    exact Nat.not_lt.mp hx
  · rw [hstart, hslept]
    omega
  · rw [hparams, hslept]

end

/-- With enough sleeps left for the timeout, more iterations change nothing (R154). -/
theorem gateLoop_add (fuel k : Nat) {timeout : U32} {n : Nat} {s : State} (h : Polling timeout n s)
    (hT : timeout.toNat + s.params.pollMs.toNat < 2 ^ 31)
    (hfuel : timeout.toNat < n + fuel * s.params.pollMs.toNat) :
    gateLoop (fuel + k) timeout s = gateLoop fuel timeout s := by
  induction fuel generalizing n s with
  | zero =>
    by_cases hb : s.busyRead.1 = s.params.busyActiveLevel
    · cases k with
      | zero => rfl
      | succ k =>
        have hexpired : timeout < s.busyRead.2.nowMs.1 - s.bgStart := by
          have hle := h.le_elapsed hT
          rw [BitVec.lt_def]
          omega
        rw [Nat.zero_add, gateLoop_succ_active k timeout s hb, if_pos hexpired, gateLoop_zero_active timeout s hb]
    · rw [gateLoop_idle _ _ _ hb, gateLoop_idle _ _ _ hb]
  | succ fuel ih =>
    by_cases hb : s.busyRead.1 = s.params.busyActiveLevel
    · rw [Nat.add_right_comm, gateLoop_succ_active _ timeout s hb, gateLoop_succ_active _ timeout s hb]
      split
      · rfl
      · next hx =>
        obtain ⟨-, -, hparams⟩ := s.polled_eq _ rfl hb
        refine ih (h.polled hb hT hx) (by rw [hparams]; exact hT) ?_
        rw [hparams]
        rw [Nat.succ_mul] at hfuel
        omega
    · rw [gateLoop_idle _ _ _ hb, gateLoop_idle _ _ _ hb]

/-- With enough sleeps left for the timeout, a loop that fails has last read a time beyond it (R154). -/
theorem gateLoop_false_elapsed (fuel : Nat) {timeout : U32} {n : Nat} {s : State} (h : Polling timeout n s)
    (hT : timeout.toNat + s.params.pollMs.toNat < 2 ^ 31)
    (hfuel : timeout.toNat < n + fuel * s.params.pollMs.toNat) (hfail : (gateLoop fuel timeout s).1 = false) :
    ∃ x, (gateLoop fuel timeout s).2.lastNow = some x ∧ timeout < x - s.bgStart := by
  induction fuel generalizing n s with
  | zero =>
    by_cases hb : s.busyRead.1 = s.params.busyActiveLevel
    · rw [gateLoop_zero_active timeout s hb]
      have hle := h.le_elapsed hT
      refine ⟨_, (nowMs_time s.busyRead.2).1, ?_⟩
      rw [BitVec.lt_def]
      omega
    · rw [gateLoop_idle _ _ _ hb] at hfail
      cases hfail
  | succ fuel ih =>
    by_cases hb : s.busyRead.1 = s.params.busyActiveLevel
    · rw [gateLoop_succ_active _ timeout s hb] at hfail ⊢
      split at hfail
      · next hx =>
        rw [if_pos hx]
        exact ⟨_, (nowMs_time s.busyRead.2).1, hx⟩
      · next hx =>
        rw [if_neg hx]
        obtain ⟨-, hstart, hparams⟩ := s.polled_eq _ rfl hb
        rw [← hstart]
        refine ih (h.polled hb hT hx) (by rw [hparams]; exact hT) ?_ hfail
        rw [hparams]
        rw [Nat.succ_mul] at hfuel
        omega
    · rw [gateLoop_idle _ _ _ hb] at hfail
      cases hfail

/-- The bound on the sleeps is enough for the timeout (R153). -/
theorem State.lt_gateFuel_mul (s : State) (timeout : U32) :
    timeout.toNat < s.gateFuel timeout * s.params.pollMs.toNat := by
  obtain ⟨hpos, -⟩ := s.params.timing
  have hdiv := Nat.div_add_mod timeout.toNat s.params.pollMs.toNat
  have hmod := Nat.mod_lt timeout.toNat (show 0 < s.params.pollMs.toNat from hpos)
  rw [State.gateFuel, Nat.succ_mul, Nat.mul_comm]
  omega

/-! ### The whole trace of a gate -/

/-- The last event pair of a gate that fails shows the last time read. -/
theorem GateChange.lastNow_of_traceReturn {s t : State} (h : GateChange s t) {p : ParamRecord} {es : List Event} {x : U32}
    (htr : t.tr = s.tr ++ (es ++ traceReturn p false x)) : t.lastNow = some x := by
  obtain ⟨es', htr', -, htime⟩ := h.2
  obtain rfl : es' = es ++ traceReturn p false x := List.append_cancel_left (htr'.symm.trans htr)
  rw [TimeFollows, List.foldl_append] at htime
  exact (congrArg Prod.fst htime).symm

/-- A gate's events with a busy line: one inactive sample, or an active one, the read of BG_START and the loop's. -/
theorem waitUntilIdle_trace (s t : State) (timeout : U32) (ok : Bool) (hb : s.params.hasBusy = true)
    (h : s.waitUntilIdle timeout = (ok, t)) :
    (ok = true ∧ t.tr = s.tr ++ [Event.busy (!s.params.busyActiveLevel)] ∧ t.bgStart = s.bgStart)
      ∨ ∃ (reads : List U32) (last : U32),
        t.tr = s.tr ++ [Event.busy s.params.busyActiveLevel, Event.now t.bgStart]
          ++ reads.flatMap (tracePoll s.params.toParamRecord t.bgStart) ++ traceReturn s.params.toParamRecord ok last
        ∧ (∀ x ∈ reads, x - t.bgStart ≤ timeout) ∧ reads.length ≤ s.gateFuel timeout
        ∧ (timeout.toNat + s.params.pollMs.toNat < 2 ^ 31 → ok = false → timeout < last - t.bgStart) := by
  have hpoll : ok = (s.pollUntilIdle timeout).1 ∧ t.tr = (s.pollUntilIdle timeout).2.tr
      ∧ t.bgStart = (s.pollUntilIdle timeout).2.bgStart := by
    rw [State.waitUntilIdle] at h
    cases hok : (s.pollUntilIdle timeout).1 <;> simp only [hok] at h <;> cases h <;> exact ⟨rfl, rfl, rfl⟩
  obtain ⟨hok, htr, hstart⟩ := hpoll
  rw [hok, htr, hstart, State.pollUntilIdle, if_neg (by simp [hb])]
  obtain ⟨b1, b2, b3⟩ := busyRead_eq s
  by_cases hidle : s.busyRead.1 = s.params.busyActiveLevel
  · right
    rw [if_neg (not_not.mpr hidle)]
    obtain ⟨c1, c2, -⟩ := startClock_eq s.busyRead.2
    have hpolling := polling_startClock s.busyRead.2 timeout
    have hchange := gateLoop_change (s.gateFuel timeout) timeout s.busyRead.2.startClock
    generalize s.busyRead.2.startClock = u at c1 c2 hpolling hchange ⊢
    have hparams : u.params = s.params := c2.trans b3
    obtain ⟨reads, last, l1, l2, l3, l4⟩ := gateLoop_trace (s.gateFuel timeout) timeout u
    rw [b1, hidle] at c1
    rw [hparams] at l1
    rw [l2]
    refine ⟨reads, last, ?_, l3, l4, fun hT hfail => ?_⟩
    · rw [l1, c1]
      simp
    · have hfuel := s.lt_gateFuel_mul timeout
      rw [← hparams] at hT hfuel
      obtain ⟨x, hx, hlt⟩ := gateLoop_false_elapsed (s.gateFuel timeout) hpolling hT (by omega) hfail
      rw [hfail, List.append_assoc] at l1
      rw [hchange.lastNow_of_traceReturn l1] at hx
      rwa [Option.some.inj hx]
  · left
    rw [if_pos hidle]
    exact ⟨rfl, by rw [b1, Bool.eq_not_of_ne hidle], b2⟩

/-! ### The events of an iteration -/

theorem busy_mem_tracePoll {p : ParamRecord} {start x : U32} {v : Bool} (h : Event.busy v ∈ tracePoll p start x) :
    v = p.busyActiveLevel := by
  unfold tracePoll at h
  split at h <;> simpa using h

theorem now_mem_tracePoll {p : ParamRecord} {start x y : U32} (h : Event.now y ∈ tracePoll p start x) : y = x := by
  unfold tracePoll at h
  split at h <;> simpa using h

theorem longWait_mem_tracePoll {p : ParamRecord} {start x : U32} (h : Event.log .longWait ∈ tracePoll p start x) :
    p.longWaitMs < x - start := by
  unfold tracePoll at h
  split at h
  · assumption
  · simp at h

/-- Before the iteration that returns every sample is active. -/
theorem busy_mem_polls {p : ParamRecord} {start : U32} {reads : List U32} {v : Bool}
    (h : Event.busy v ∈ [Event.busy p.busyActiveLevel, Event.now start] ++ reads.flatMap (tracePoll p start)) :
    v = p.busyActiveLevel := by
  rcases List.mem_append.mp h with h | h
  · simpa using h
  · obtain ⟨x, -, hx⟩ := List.mem_flatMap.mp h
    exact busy_mem_tracePoll hx

/-- A gate's samples: a gate that passes saw active ones alone before its last event, an inactive one; a gate that fails
saw active ones alone. -/
theorem waitUntilIdle_samples (s t : State) (timeout : U32) (ok : Bool) (es : List Event) (hb : s.params.hasBusy = true)
    (h : s.waitUntilIdle timeout = (ok, t)) (htr : t.tr = s.tr ++ es) :
    (ok = true → ∃ pre, es = pre ++ [Event.busy (!s.params.busyActiveLevel)]
        ∧ ∀ v, Event.busy v ∈ pre → v = s.params.busyActiveLevel)
      ∧ (ok = false → ∀ v, Event.busy v ∈ es → v = s.params.busyActiveLevel) := by
  rcases waitUntilIdle_trace s t timeout ok hb h with ⟨rfl, htr', -⟩ | ⟨reads, last, htr', -⟩
  · obtain rfl := List.append_cancel_left (htr.symm.trans htr')
    exact ⟨fun _ => ⟨[], rfl, by simp⟩, fun hf => by cases hf⟩
  · rw [List.append_assoc, List.append_assoc, ← List.append_assoc [_, _]] at htr'
    obtain rfl := List.append_cancel_left (htr.symm.trans htr')
    refine ⟨fun hok => ?_, fun hfail v hv => ?_⟩
    · subst hok
      exact ⟨_, rfl, fun v hv => busy_mem_polls hv⟩
    · subst hfail
      rcases List.mem_append.mp hv with hv | hv
      · exact busy_mem_polls hv
      · simpa [traceReturn] using hv

/-! ### The statements -/

/-- Settles O31. -/
theorem gateFastPaths : Obligations.GateFastPaths := by
  unfold Obligations.GateFastPaths
  exact fun s timeout =>
    ⟨waitUntilIdle_of_no_busy s timeout, fun rest hb hin => waitUntilIdle_of_idle s timeout rest hb hin⟩

/-- Settles O36: the loop's bound is enough for the timeout. -/
theorem gateLoopNeedsNoMoreIterations : Obligations.GateLoopNeedsNoMoreIterations := by
  unfold Obligations.GateLoopNeedsNoMoreIterations
  intro s k
  obtain ⟨-, hparams, -⟩ := startClock_eq s
  have hfuel := s.lt_gateFuel_mul s.params.idleTimeoutMs
  refine gateLoop_add _ k (polling_startClock s s.params.idleTimeoutMs) ?_ ?_
  · rw [hparams]
    exact s.params.timing.2
  · rw [hparams]
    omega

/-- Passing or not, a gate leaves all but the trace, the draws, the account of time, BG_START and PANEL_STATE. -/
theorem waitUntilIdle_frame (s t : State) (timeout : U32) (ok : Bool) (h : s.waitUntilIdle timeout = (ok, t)) :
    t = { s with
          tr := t.tr
          busyIn := t.busyIn
          timeIn := t.timeIn
          draws := t.draws
          lastNow := t.lastNow
          slept := t.slept
          bgStart := t.bgStart
          panelState := if ok = true ∧ s.panelState = .busy then .idle else s.panelState }
      ∧ ∃ es, t.tr = s.tr ++ es ∧ ∀ e ∈ es, e.quiet = true := by
  obtain ⟨u, hu, hw⟩ := waitUntilIdle_change s timeout
  obtain ⟨es, htr, hquiet, -⟩ := hu.2
  rw [h] at hw
  rcases hw with hw | hw <;> obtain ⟨rfl, rfl⟩ := Prod.mk.inj hw
  · refine ⟨?_, es, htr, hquiet⟩
    rw [State.gatePassed, hu.panelState, hu.1]
    simp
  · refine ⟨?_, es, htr, hquiet⟩
    rw [if_neg (by simp)]
    exact hu.1

/-- Settles O32. -/
theorem gateChangesNothingElse : Obligations.GateChangesNothingElse := by
  unfold Obligations.GateChangesNothingElse
  intro s t timeout ok h
  obtain ⟨hframe, es, htr, hquiet⟩ := waitUntilIdle_frame s t timeout ok h
  refine ⟨hframe, es, htr, hquiet, ?_⟩
  cases hb : s.params.hasBusy with
  | false =>
    obtain ⟨rfl, rfl⟩ := Prod.mk.inj (h.symm.trans (waitUntilIdle_of_no_busy s timeout hb))
    have hnil : es = [] := List.self_eq_append_right.mp htr
    exact ⟨fun _ => ⟨rfl, hnil⟩, fun hf => absurd hf (by decide), fun hf => absurd hf (by decide)⟩
  | true =>
    obtain ⟨hpass, hfail⟩ := waitUntilIdle_samples s t timeout ok es hb h htr
    exact ⟨fun hf => absurd hf (by decide), fun _ => hpass, hfail⟩

/-- Settles O33. -/
theorem gateFailsOnlyAfterTheTimeout : Obligations.GateFailsOnlyAfterTheTimeout := by
  unfold Obligations.GateFailsOnlyAfterTheTimeout
  intro s t h
  have hb : s.params.hasBusy = true := by
    by_contra hb
    rw [waitUntilIdle_of_no_busy s _ (by simpa using hb)] at h
    cases h
  rcases waitUntilIdle_trace s t _ false hb h with ⟨hf, -⟩ | ⟨reads, last, htr, hreads, -, hlast⟩
  · cases hf
  · refine ⟨_, last, htr, hlast s.params.timing.2 rfl, fun x hx => ?_⟩
    obtain ⟨y, hy, hxy⟩ := List.mem_flatMap.mp hx
    rw [now_mem_tracePoll hxy]
    exact hreads y hy

/-- Where LONG_WAIT_MS is not below the timeout no iteration logs the long wait (R156). -/
theorem longWait_not_mem_polls {p : ParamRecord} {start : U32} {reads : List U32} {ok : Bool} {last : U32}
    (hreads : ∀ x ∈ reads, x - start ≤ p.idleTimeoutMs) (hlong : p.idleTimeoutMs ≤ p.longWaitMs) :
    Event.log .longWait ∉ [Event.busy p.busyActiveLevel, Event.now start]
      ++ (reads.flatMap (tracePoll p start) ++ traceReturn p ok last) := by
  simp only [List.mem_append, not_or]
  refine ⟨by simp, fun h => ?_, ?_⟩
  · obtain ⟨x, hx, hpoll⟩ := List.mem_flatMap.mp h
    have hlt := longWait_mem_tracePoll hpoll
    have hle := hreads x hx
    rw [BitVec.lt_def] at hlt
    rw [BitVec.le_def] at hle hlong
    omega
  · cases ok <;> simp [traceReturn]

/-- Settles O34. -/
theorem gateTraceIsThatOfTheLoop : Obligations.GateTraceIsThatOfTheLoop := by
  unfold Obligations.GateTraceIsThatOfTheLoop
  intro s t ok hb h
  rcases waitUntilIdle_trace s t _ ok hb h with ⟨hok, htr, hstart⟩ | ⟨reads, last, htr, hreads, hlen, hlast⟩
  · exact ⟨.inl ⟨hok, htr, hstart⟩, fun _ => ⟨_, htr, by simp⟩⟩
  · refine ⟨.inr ⟨reads, last, htr, hreads, hlen, hlast s.params.timing.2⟩, fun hlong => ?_⟩
    rw [List.append_assoc, List.append_assoc] at htr
    exact ⟨_, htr, longWait_not_mem_polls hreads hlong⟩

/-! ### The host is kept alive (R156) -/

/-- Every sleep is of `d` ms and stands right after a `wdt` and a `yield`, and there are no others of these. -/
def SleepsServed (d : U32) (es : List Event) : Prop :=
  (∀ pre post e, es = pre ++ Event.sleep e :: post → e = d ∧ ∃ pre', pre = pre' ++ [Event.wdt, Event.yield])
    ∧ es.countP (fun e => decide (e = .wdt)) = es.countP (fun e => decide (e = .sleep d))
    ∧ es.countP (fun e => decide (e = .yield)) = es.countP (fun e => decide (e = .sleep d))

/-- A sleep in the second part has its own `wdt` and `yield` there. -/
theorem SleepsServed.append {d : U32} {a b : List Event} (ha : SleepsServed d a) (hb : SleepsServed d b) :
    SleepsServed d (a ++ b) := by
  obtain ⟨sa, wa, ya⟩ := ha
  obtain ⟨sb, wb, yb⟩ := hb
  refine ⟨fun pre post e h => ?_, by simp only [List.countP_append, wa, wb], by simp only [List.countP_append, ya, yb]⟩
  rcases List.append_eq_append_iff.mp h with ⟨c, rfl, hc⟩ | ⟨c, rfl, hc⟩
  · obtain ⟨he, pre', rfl⟩ := sb c post e hc
    exact ⟨he, a ++ pre', by rw [List.append_assoc]⟩
  · cases c with
    | nil =>
      obtain ⟨-, pre', hpre⟩ := sb [] post e hc.symm
      simp at hpre
    | cons f c =>
      obtain ⟨rfl, rfl⟩ := List.cons.inj hc
      exact sa pre c e rfl

/-- Events with no sleep, no `wdt` and no `yield`. -/
theorem sleepsServed_of_none {d : U32} {es : List Event} (hs : ∀ e, Event.sleep e ∉ es) (hw : Event.wdt ∉ es)
    (hy : Event.yield ∉ es) : SleepsServed d es := by
  have hcount : ∀ e, e ∉ es → es.countP (fun f => decide (f = e)) = 0 := fun e he =>
    List.countP_eq_zero.mpr fun f hf hfe => he (of_decide_eq_true hfe ▸ hf)
  refine ⟨fun pre post e h => absurd (by simp [h]) (hs e), ?_, ?_⟩
  · rw [hcount _ hw, hcount _ (hs d)]
  · rw [hcount _ hy, hcount _ (hs d)]

/-- The three events an iteration waits with. -/
theorem sleepsServed_wait (d : U32) : SleepsServed d [Event.wdt, Event.yield, Event.sleep d] := by
  refine ⟨fun pre post e h => ?_, by simp, by simp⟩
  rcases pre with _ | ⟨a, _ | ⟨b, _ | ⟨c, pre⟩⟩⟩
  case cons.cons.nil =>
    obtain ⟨rfl, rfl, rfl, -⟩ : Event.wdt = a ∧ Event.yield = b ∧ d = e ∧ [] = post := by simpa using h
    exact ⟨rfl, [], rfl⟩
  all_goals simp at h

/-- An iteration of the loop that does not return. -/
theorem sleepsServed_tracePoll (p : ParamRecord) (start x : U32) : SleepsServed p.pollMs (tracePoll p start x) := by
  unfold tracePoll
  rw [List.append_assoc]
  refine (sleepsServed_of_none (by simp) (by simp) (by simp)).append
    ((sleepsServed_of_none ?_ ?_ ?_).append (sleepsServed_wait p.pollMs)) <;> split <;> simp

/-- All iterations that do not return. -/
theorem sleepsServed_polls (p : ParamRecord) (start : U32) (reads : List U32) :
    SleepsServed p.pollMs (reads.flatMap (tracePoll p start)) := by
  induction reads with
  | nil => exact sleepsServed_of_none (by simp) (by simp) (by simp)
  | cons x reads ih => exact (sleepsServed_tracePoll p start x).append ih

/-- Settles O38: the trace of a gate, part by part. -/
theorem gateKeepsTheHostAlive : Obligations.GateKeepsTheHostAlive := by
  unfold Obligations.GateKeepsTheHostAlive
  intro s t timeout ok es h htr
  change SleepsServed s.params.pollMs es
  cases hb : s.params.hasBusy with
  | false =>
    obtain ⟨rfl, rfl⟩ := Prod.mk.inj (h.symm.trans (waitUntilIdle_of_no_busy s timeout hb))
    obtain rfl : es = [] := List.self_eq_append_right.mp htr
    exact sleepsServed_of_none (by simp) (by simp) (by simp)
  | true =>
    rcases waitUntilIdle_trace s t timeout ok hb h with ⟨-, htr', -⟩ | ⟨reads, last, htr', -⟩
    · obtain rfl := List.append_cancel_left (htr.symm.trans htr')
      exact sleepsServed_of_none (by simp) (by simp) (by simp)
    · rw [List.append_assoc, List.append_assoc] at htr'
      obtain rfl := List.append_cancel_left (htr.symm.trans htr')
      have hreturn : SleepsServed s.params.pollMs (traceReturn s.params.toParamRecord ok last) := by
        cases ok <;> exact sleepsServed_of_none (by simp [traceReturn]) (by simp [traceReturn]) (by simp [traceReturn])
      exact (sleepsServed_of_none (by simp) (by simp) (by simp)).append
        ((sleepsServed_polls s.params.toParamRecord _ reads).append hreturn)

end Sys2Proof.Machine

namespace Sys2Proof.Machine

/-! ## SETUP (R224, R190, R283)

SETUP's own statements before `Init` poll nothing, so they leave one state whatever the panel does; `Init` from there goes
as Laws/Sequences.lean and Laws/Abort.lean say. -/

/-- The state before `Init`: the lines configured, the framebuffer cleared, SETUP_DONE set (R224). -/
def State.prepared (s : State) : State :=
  { s with
    seq := .setup .markDone
    dirDc := .out
    dirRst := if s.params.hasRst then .out else s.dirRst
    rstLvl := if s.params.hasRst then true else s.rstLvl
    dirBusy := if s.params.hasBusy then .input else s.dirBusy
    fb := s.fb.writeBytes 0 (List.replicate s.params.bufLen 0x00)
    setupDone := true
    tr := s.tr ++ ([Event.cfg .dc .out] ++ (if s.params.hasRst then [Event.cfg .rst .out, Event.line .rst true] else [])
      ++ (if s.params.hasBusy then [Event.cfg .busy .input] else [])) }

@[simp] theorem State.prepared_params (s : State) : s.prepared.params = s.params := rfl

/-- SETUP's statements before `Init` (R224). -/
theorem run_prepare (s : State) (rest : List Seq) :
    runList ([.setup .cfgDc, .setup .cfgRst, .setup .driveRst, .setup .cfgBusy, .setup .clearFb, .setup .markDone] ++ rest)
      s = runList rest s.prepared := by
  simp only [List.cons_append, List.nil_append, runList_pointAt, seqEnabled, enabledWith, runStatement, runWith, runSetup,
    if_true, Flow.bind_go]
  cases hr : s.params.hasRst <;> cases hb : s.params.hasBusy <;>
    simp [State.pointAt, State.cfgLine, State.setLine, State.emit, State.prepared, hr, hb]

/-- SETUP of a fresh block is `Init` from the prepared state, and the return (R224). -/
theorem execSetup_fresh (s : State) (h : s.setupDone = false) :
    execSetup s = ((runList (initSteps.map (fun p => Seq.setup (.init p))) (s.start .setup).prepared).bind
      (runList [.setup .ret])).outcome := by
  rw [execSetup_eq, if_neg (by simp [h]), setupProgram_eq, run_prepare, runList_append]

/-- The return of SETUP. -/
theorem run_setupRet (s : State) : runList [.setup .ret] s = .ended (s.finish .ok 0) := rfl

/-- Settles O39: the prepared state, then `Init` with a panel that reads idle. -/
theorem setupRunsWhole : Obligations.SetupRunsWhole := by
  unfold Obligations.SetupRunsWhole
  intro s h hidle
  have hrun := run_init _ (s.start .setup).prepared (initAt_setup _) hidle
  have hexec := execSetup_fresh s h
  rw [hrun, Flow.bind_go, run_setupRet, Flow.outcome_ended] at hexec
  refine ⟨_, hexec, ?_, fun i hi => ?_, fun i hi => ?_⟩
  · cases hr : s.params.hasRst <;> cases hb : s.params.hasBusy <;>
      simp [State.via, State.prepared, State.start, State.finish, State.busyLeft, Status.code, traceSetup, hr, hb]
  · exact (read_clear s.fb s.params.bufLen i).trans (if_pos hi)
  · exact (read_clear s.fb s.params.bufLen i).trans (if_neg (by omega))

/-- Settles O40: however `Init` goes, SETUP ends with what the prepared state set. -/
theorem setupEndsOkOrTimeout : Obligations.SetupEndsOkOrTimeout := by
  unfold Obligations.SetupEndsOkOrTimeout
  intro s h
  have hexec := execSetup_fresh s h
  have hclear := fun i (hi : i < s.params.bufLen) => (read_clear s.fb s.params.bufLen i).trans (if_pos hi)
  obtain ⟨t, bs, hlink, -, ⟨site, hrun, hpanel, -⟩ | ⟨hrun, hpanel, -⟩⟩ :=
    run_init_cases _ (s.start .setup).prepared (initAt_setup _)
  · rw [hrun, Flow.bind_ended, Flow.outcome_ended] at hexec
    refine ⟨_, hexec, .inr ⟨rfl, hpanel, rfl⟩, rfl, ?_⟩
    rw [hlink.1]
    exact ⟨rfl, hclear, rfl, fun hr => if_pos hr, fun hb => if_pos hb, rfl, rfl⟩
  · rw [hrun, Flow.bind_go, run_setupRet, Flow.outcome_ended] at hexec
    refine ⟨_, hexec, .inl ⟨rfl, hpanel, ?_⟩, rfl, ?_⟩
    · rw [hlink.1]
      rfl
    · rw [hlink.1]
      exact ⟨rfl, hclear, rfl, fun hr => if_pos hr, fun hb => if_pos hb, rfl, rfl⟩

end Sys2Proof.Machine

namespace Sys2Proof.Machine

/-! ## DISPLAY however the panel behaves (R226, R253, R258)

DISPLAY is run in three parts: the wake, the gate of step 2, and step 3 on (`run_fromMode`). Below stands what the first two
leave when they go through, and where the operation ends when they do not. -/

/-! ### What polling and driving the link leaves -/

section
variable {s t : State} {bs : List Byte} (h : LinkChange s t bs)
include h

theorem LinkChange.params : t.params = s.params := by rw [h.1]
theorem LinkChange.fb : t.fb = s.fb := by rw [h.1]
theorem LinkChange.atUpdate : t.atUpdate = s.atUpdate := by rw [h.1]
theorem LinkChange.dsbu : t.dsbu = s.dsbu := by rw [h.1]
theorem LinkChange.setupDone : t.setupDone = s.setupDone := by rw [h.1]
theorem LinkChange.dirDc : t.dirDc = s.dirDc := by rw [h.1]
theorem LinkChange.dirRst : t.dirRst = s.dirRst := by rw [h.1]
theorem LinkChange.dirBusy : t.dirBusy = s.dirBusy := by rw [h.1]
theorem LinkChange.full : t.full = s.full := by rw [h.1]
theorem LinkChange.prev : t.prev = s.prev := by rw [h.1]

/-- The command bytes of what has been appended (R89). -/
theorem LinkChange.commandBytes : ∃ es, t.tr = s.tr ++ es ∧ commandBytes es = bs := by
  obtain ⟨es, htr, hsends⟩ := h.2
  exact ⟨es, htr, hsends false⟩

end

theorem LinkChange.refl (s : State) : LinkChange s s [] := ⟨rfl, [], (List.append_nil _).symm, fun _ => rfl⟩

/-! ### The wake (R226 step 1) -/

/-- What a wake that goes through leaves: `Init`'s commands sent and the panel IDLE with DSBU, nothing without. -/
structure WakeDone (s t : State) : Prop where
  link : LinkChange s t (if s.dsbu then initOpcodes s.params.toParamRecord else [])
  panel : t.panelState = if s.dsbu then .idle else s.panelState
  dc : t.dcLvl = if s.dsbu then true else s.dcLvl
  cs : t.cs = if s.dsbu then false else s.cs
  rst : t.rstLvl = if s.dsbu && s.params.hasRst then true else s.rstLvl
  skipped : s.dsbu = false → t = s

/-- What a wake that is aborted leaves: the panel UNINITIALIZED and at most the soft reset sent. -/
structure WakeAborted (s t : State) : Prop where
  link : ∃ bs, LinkChange s t bs ∧ (bs = [] ∨ bs = [s.params.opc.swReset])
  panel : t.panelState = .uninitialized
  rst : t.rstLvl = if s.params.hasRst then true else s.rstLvl

/-- The wake goes through or ends the operation at a gate of `Init`. -/
theorem run_wake_cases (s : State) :
    (∃ t, runList wakeProgram s = .go t ∧ WakeDone s t)
      ∨ ∃ t site, runList wakeProgram s = .ended (t.raiseIdleTimeout site) ∧ WakeAborted s t := by
  cases hd : s.dsbu with
  | false =>
    refine .inl ⟨s, run_wake_skipped s hd, ?_⟩
    constructor <;> simp [hd, LinkChange.refl]
  | true =>
    obtain ⟨t, bs, hlink, hrst, ⟨site, hrun, hpanel, hbs⟩ | ⟨hrun, hpanel, hdc, hcs, rfl⟩⟩ :=
      run_init_cases _ s (initAt_wake s hd)
    · exact .inr ⟨t, site, hrun, ⟨bs, hlink, hbs⟩, hpanel, hrst⟩
    · refine .inl ⟨t, hrun, ?_⟩
      constructor <;> simp [hd, hlink, hpanel, hdc, hcs, hrst]

/-- Settles O42: such a wake is aborted, and the operation with it. -/
theorem displayAbortsInTheWake : Obligations.DisplayAbortsInTheWake := by
  unfold Obligations.DisplayAbortsInTheWake
  intro s t hs _ hwake
  have hexec := execDisplay_parts s hs
  rw [hwake, Flow.bind_ended, Flow.outcome_ended] at hexec
  refine ⟨hexec, ?_⟩
  rcases run_wake_cases (s.start .display) with ⟨u, hrun, -⟩ | ⟨u, site, hrun, ⟨bs, hlink, hbs⟩, hpanel, hrst⟩
  · cases hwake.symm.trans hrun
  · obtain rfl := Flow.ended.inj (hwake.symm.trans hrun)
    obtain ⟨es, htr, hsent⟩ := hlink.commandBytes
    refine ⟨?_, es, htr, ?_⟩
    · rw [State.raiseIdleTimeout, State.finish]
      rw [hlink.1, hpanel, hrst]
      rfl
    · rw [hsent]
      exact hbs

/-- A gate whose wait fails ends the operation, having only polled (R155, R253). -/
theorem gate_of_failed (s g : State) (site : GateSite) (h : s.waitUntilIdle s.params.idleTimeoutMs = (false, g)) :
    s.gate site = .ended (g.raiseIdleTimeout site) ∧ GateChange s g := by
  refine ⟨by simp [State.gate, h], ?_⟩
  obtain ⟨t, ht, hw⟩ := waitUntilIdle_change s s.params.idleTimeoutMs
  rw [h] at hw
  rcases hw with hw | hw
  · cases hw
  · cases hw
    exact ht

/-- Step 2 in front of a sequence (R226). -/
theorem runList_gateStart (s : State) (ps : List Seq) :
    runList (.display .gateStart :: ps) s
      = ((s.pointAt (.display .gateStart)).gate .refreshStart).bind (runList ps) := by
  rw [runList_pointAt]
  rfl

/-- Settles O43: the gate of step 2 ends the operation from what the wake left. -/
theorem displayAbortsAtTheFirstGate : Obligations.DisplayAbortsAtTheFirstGate := by
  unfold Obligations.DisplayAbortsAtTheFirstGate
  intro s u g hs hwake hgate
  have hw : WakeDone (s.start .display) u := by
    rcases run_wake_cases (s.start .display) with ⟨u', hrun, hw⟩ | ⟨u', site, hrun, -⟩
    · obtain rfl := Flow.go.inj (hwake.symm.trans hrun)
      exact hw
    · cases hwake.symm.trans hrun
  have hparams : s.params = u.params := hw.link.params.symm
  rw [hparams] at hgate
  obtain ⟨hended, hchange⟩ := gate_of_failed (u.pointAt (.display .gateStart)) g .refreshStart hgate
  have hexec := execDisplay_parts s hs
  rw [hwake, Flow.bind_go, runList_gateStart, hended, Flow.bind_ended, Flow.outcome_ended] at hexec
  have hpanel := hchange.panelState.trans hw.panel
  have hdc := hchange.dcLvl.trans hw.dc
  have hcs := hchange.cs.trans hw.cs
  have hrst := hchange.rstLvl.trans hw.rst
  have hlink := hw.link.trans (hchange.link _).1
  obtain ⟨-, es', htr', hquiet, -⟩ := hchange
  refine ⟨hexec.trans ?_, ?_⟩
  · rw [State.raiseIdleTimeout, State.finish]
    rw [hlink.1, hpanel, hdc, hcs, hrst]
    rfl
  · obtain ⟨es, htr, hsends⟩ := hw.link.2
    refine ⟨es ++ es', ?_, fun hd => ?_, ?_⟩
    · rw [htr', ← List.append_assoc]
      exact congrArg (· ++ es') htr
    · obtain rfl := hw.skipped hd
      obtain rfl : es = [] := List.self_eq_append_right.mp htr
      exact hquiet
    · have h := sends_append hsends (sends_quiet hquiet) false
      rwa [List.append_nil] at h

end Sys2Proof.Machine

namespace Sys2Proof.Machine

/-! ### Steps 1 and 2 together -/

/-- What the wake and the gate of step 2 leave when both go through. -/
structure StartDone (s t : State) : Prop where
  link : LinkChange s t (if s.dsbu then initOpcodes s.params.toParamRecord else [])
  panel : t.panelState = if s.dsbu then .idle else if s.panelState = .busy then .idle else s.panelState
  rst : t.rstLvl = if s.dsbu && s.params.hasRst then true else s.rstLvl

/-- A gate passed after the wake. -/
theorem WakeDone.startDone {s u t : State} {q : Seq} (hw : WakeDone s u) (h : GateChange (u.pointAt q) t) :
    StartDone s t.gatePassed where
  link := by simpa using hw.link.trans (h.link q).2
  panel := by
    have hpanel : t.panelState = _ := h.panelState.trans hw.panel
    rw [State.gatePassed, hpanel]
    cases s.dsbu <;> rfl
  rst := h.rstLvl.trans hw.rst

/-- Steps 1 and 2 go through, or end the operation at one of their gates. -/
theorem run_displayStart_cases (s : State) :
    (∃ t, runList (wakeProgram ++ [Seq.display .gateStart]) s = .go t ∧ StartDone s t)
      ∨ ∃ t site bs, runList (wakeProgram ++ [Seq.display .gateStart]) s = .ended (t.raiseIdleTimeout site)
          ∧ LinkChange s t bs := by
  rcases run_wake_cases s with ⟨u, hrun, hw⟩ | ⟨t, site, hrun, ha⟩
  · rw [runList_append, hrun, Flow.bind_go, runList_gateStart]
    obtain ⟨t, ht, hgate | hgate⟩ := gate_cases (u.pointAt (.display .gateStart)) .refreshStart
    · exact .inl ⟨t.gatePassed, by rw [hgate, Flow.bind_go, runList_nil], hw.startDone ht⟩
    · exact .inr ⟨t, .refreshStart, _, by rw [hgate, Flow.bind_ended], hw.link.trans (ht.link _).1⟩
  · obtain ⟨bs, hlink, -⟩ := ha.link
    exact .inr ⟨t, site, bs, by rw [runList_append, hrun, Flow.bind_ended], hlink⟩

/-! ### The whole of DISPLAY -/

/-- An abort is no OK (R250). -/
theorem State.raiseIdleTimeout_ne_ok (t : State) (site : GateSite) : (t.raiseIdleTimeout site).resStatus ≠ 0 :=
  show (1 : BitVec 3) ≠ 0 by decide

/-- OK is no TIMEOUT (R250). -/
theorem State.finish_ok_ne_timeout (t : State) : (t.finish .ok 0).resStatus ≠ 1 :=
  show (0 : BitVec 3) ≠ 1 by decide

/-- The state at the gate of step 10, after steps 3 to 9 from `u`. -/
def State.atRamGate (u : State) : State :=
  u.shown (.display .gateRam) true false (nextUpdate u.params.n u.atUpdate) u.warning
    (if u.atUpdate = 0 then u.panelState else if u.panelState = .uninitialized ∨ u.panelState = .sleeping
      then u.panelState else .busy) u.busyIn (traceBeforeRam u.params.toParamRecord u.atUpdate)

/-- The state steps 11 to 14 leave from `t`, the refresh being one at counter value `a`. -/
def State.streamed (t : State) (a : U32) : State :=
  { t with
    seq := .display .ret
    dcLvl := t.dsbu && decide (t.params.cal.sleepData ≠ [])
    cs := false
    warning := false
    panelState :=
      if t.dsbu then .sleeping
      else if t.panelState = .uninitialized ∨ t.panelState = .sleeping then t.panelState else .busy
    tr := t.tr ++ traceStream t.params.toParamRecord t.fb a
      ++ (if t.dsbu then traceSleep t.params.toParamRecord else []) }

/-- DISPLAY's ends: at a gate of steps 1 and 2, at the gate of step 10, or at its return (R226, R253). -/
inductive DisplayEnd (s : State) : State → Prop
  | early (t : State) (site : GateSite) (bs : List Byte)
      (hrun : runList (wakeProgram ++ [Seq.display .gateStart]) (s.start .display) = .ended (t.raiseIdleTimeout site))
      (hlink : LinkChange (s.start .display) t bs) : DisplayEnd s (t.raiseIdleTimeout site)
  | late (u t : State) (hrun : runList (wakeProgram ++ [Seq.display .gateStart]) (s.start .display) = .go u)
      (hstart : StartDone (s.start .display) u) (hgate : GateChange u.atRamGate t) :
      DisplayEnd s (t.raiseIdleTimeout .refreshRam)
  | done (u t : State) (hrun : runList (wakeProgram ++ [Seq.display .gateStart]) (s.start .display) = .go u)
      (hstart : StartDone (s.start .display) u) (hgate : GateChange u.atRamGate t) :
      DisplayEnd s ((t.streamed u.atUpdate).finish .ok 0)

/-- DISPLAY after SETUP has one of these ends. -/
theorem exec_display_end (s : State) (hs : s.setupDone = true) : ∃ t, exec .display s = .next t ∧ DisplayEnd s t := by
  have hparts : exec .display s = ((runList (wakeProgram ++ [Seq.display .gateStart]) (s.start .display)).bind
      (runList (.display .mode :: (beforeRam ++ fromRam)))).outcome := by
    rw [← runList_append, List.append_assoc, List.singleton_append, runList_append]
    exact execDisplay_parts s hs
  rcases run_displayStart_cases (s.start .display) with ⟨u, hrun, hstart⟩ | ⟨t, site, bs, hrun, hlink⟩
  · obtain ⟨t, hgate, hend | hend⟩ := run_fromMode u
    · rw [hrun, Flow.bind_go, hend, Flow.outcome_ended] at hparts
      exact ⟨_, hparts, .late u t hrun hstart hgate⟩
    · rw [hrun, Flow.bind_go, hend, Flow.outcome_ended] at hparts
      exact ⟨_, hparts, .done u t hrun hstart hgate⟩
  · rw [hrun, Flow.bind_ended, Flow.outcome_ended] at hparts
    exact ⟨_, hparts, .early t site bs hrun hlink⟩

/-! ### The state at the gate of step 10 -/

section
variable {s u t : State} (hstart : StartDone s u) (hgate : GateChange u.atRamGate t)
include hstart hgate

/-- What the gate of step 10 leaves: the mode sampled, the cadence advanced, the lines driven, and only polling besides. -/
theorem atRamGate_frame :
    t = { s with
      seq := .display .gateRam
      dcLvl := true
      rstLvl := if s.dsbu && s.params.hasRst then true else s.rstLvl
      cs := false
      panelState := t.panelState
      atUpdate := nextUpdate s.params.n s.atUpdate
      full := decide (s.atUpdate = 0)
      prev := decide (s.atUpdate = 1)
      tr := t.tr
      busyIn := t.busyIn
      timeIn := t.timeIn
      draws := t.draws
      lastNow := t.lastNow
      slept := t.slept
      bgStart := t.bgStart } := by
  refine hgate.1.trans ?_
  rw [hgate.panelState, State.atRamGate, State.shown, hstart.link.1, hstart.rst]

/-- The mode is sampled from the counter before its advance (R220, R221). -/
theorem atRamGate_mode : t.atUpdate = nextUpdate s.params.n s.atUpdate ∧ t.full = decide (s.atUpdate = 0)
    ∧ t.prev = decide (s.atUpdate = 1) := by
  rw [atRamGate_frame hstart hgate]
  exact ⟨rfl, rfl, rfl⟩

/-- PANEL_STATE at the gate of step 10: a partial refresh has been activated (R226 step 7). -/
theorem atRamGate_panelState :
    t.panelState
      = if s.atUpdate = 0 ∨ u.panelState = .uninitialized ∨ u.panelState = .sleeping then u.panelState else .busy := by
  refine hgate.panelState.trans ?_
  rw [State.atRamGate, State.shown_panelState, hstart.link.atUpdate]
  by_cases h0 : s.atUpdate = 0
  · rw [if_pos h0, if_pos (.inl h0)]
  · simp only [h0, if_false, false_or]

end

/-- Settles O44: such an end is the one at the gate of step 10. -/
theorem displayAbortAtTheSecondGateConsumesASlot : Obligations.DisplayAbortAtTheSecondGateConsumesASlot := by
  unfold Obligations.DisplayAbortAtTheSecondGateConsumesASlot
  intro s u t hs hrun hexec hstatus
  obtain ⟨t', hexec', hend⟩ := exec_display_end s hs
  obtain rfl := Host.Outcome.next.inj (hexec.symm.trans hexec')
  cases hend with
  | early t site bs hrun' => cases hrun.symm.trans hrun'
  | done u' t => exact absurd hstatus (State.finish_ok_ne_timeout _)
  | late u' t hrun' hstart hgate =>
    obtain rfl := Flow.go.inj (hrun.symm.trans hrun')
    refine ⟨?_, ?_⟩
    · rw [State.raiseIdleTimeout, State.finish]
      rw [atRamGate_frame hstart hgate, atRamGate_panelState hstart hgate]
      rfl
    · obtain ⟨es, htr, hsent⟩ := hstart.link.commandBytes
      obtain ⟨-, es', htr', hquiet, -⟩ := hgate
      refine ⟨es, es', htr, hsent, ?_, hquiet⟩
      rw [State.atRamGate, State.shown, hstart.link.params, hstart.link.atUpdate] at htr'
      exact htr'

/-- PANEL_STATE after DISPLAY's return (R40, R185, R189). -/
theorem streamed_panelState {s u t : State} (hstart : StartDone s u) (hgate : GateChange u.atRamGate t) (a : U32) :
    (t.streamed a).panelState
      = if s.dsbu then .sleeping
        else if s.panelState = .uninitialized ∨ s.panelState = .sleeping then s.panelState else .busy := by
  have hdsbu : t.dsbu = s.dsbu := hgate.dsbu.trans hstart.link.dsbu
  rw [State.streamed, hdsbu, atRamGate_panelState hstart hgate, hstart.panel]
  cases s.dsbu
  · by_cases h0 : s.atUpdate = 0 <;> cases s.panelState <;> simp only [h0] <;> rfl
  · rfl

/-- Settles O45: each of DISPLAY's ends. -/
theorem displayEndsOkOrTimeout : Obligations.DisplayEndsOkOrTimeout := by
  unfold Obligations.DisplayEndsOkOrTimeout
  intro s hs
  obtain ⟨t, hexec, hend⟩ := exec_display_end s hs
  refine ⟨t, hexec, ?_⟩
  cases hend with
  | early t site bs hrun hlink =>
    exact ⟨.inr ⟨rfl, rfl⟩, rfl, hlink.fb, hlink.dsbu, hlink.setupDone.trans hs, hlink.dirDc, hlink.dirRst, hlink.dirBusy,
      fun h => absurd h (t.raiseIdleTimeout_ne_ok site), fun _ => .inl ⟨hlink.atUpdate, hlink.full, hlink.prev⟩⟩
  | late u t hrun hstart hgate =>
    have hlink := hstart.link
    have hmode := atRamGate_mode hstart hgate
    exact ⟨.inr ⟨rfl, rfl⟩, rfl, hgate.fb.trans hlink.fb, hgate.dsbu.trans hlink.dsbu,
      (hgate.setupDone.trans hlink.setupDone).trans hs, hgate.dirDc.trans hlink.dirDc, hgate.dirRst.trans hlink.dirRst,
      hgate.dirBusy.trans hlink.dirBusy, fun h => absurd h (t.raiseIdleTimeout_ne_ok _),
      fun _ => .inr hmode⟩
  | done u t hrun hstart hgate =>
    have hlink := hstart.link
    have ⟨hat, hfull, hprev⟩ := atRamGate_mode hstart hgate
    exact ⟨.inl ⟨rfl, rfl⟩, rfl, hgate.fb.trans hlink.fb, hgate.dsbu.trans hlink.dsbu,
      (hgate.setupDone.trans hlink.setupDone).trans hs, hgate.dirDc.trans hlink.dirDc, hgate.dirRst.trans hlink.dirRst,
      hgate.dirBusy.trans hlink.dirBusy, fun _ => ⟨hat, hfull, hprev, streamed_panelState hstart hgate u.atUpdate⟩,
      fun h => absurd h (State.finish_ok_ne_timeout _)⟩

/-! ### The abstract panel's RAM (R266) -/

/-- The last command with an opcode gives what the RAM behind it holds. -/
theorem panelRam_of_commandsSent {b : Byte} {bs : List Byte} {tr : List Event} {pre post : List (Byte × List Byte)}
    (h : commandsSent tr = pre ++ (b, bs) :: post) (hpost : ∀ c ∈ post, c.1 ≠ b) : panelRam b tr = some bs := by
  have hnone : post.filter (fun c => decide (c.1 = b)) = [] := by
    simpa [List.filter_eq_nil_iff] using hpost
  simp [panelRam, h, hnone]

/-- The commands of steps 11 and 12. -/
theorem commandsSent_traceStream (tr : List Event) (p : ParamRecord) (fb : Memory) (a : U32) :
    commandsSent (tr ++ traceStream p fb a)
      = commandsSent tr ++ [(0x24, fb.readBytes 0 p.half), (0x26, fb.readBytes p.half p.half),
          (p.opc.duc2, [if a = 0 then p.cal.duc2Full else p.cal.duc2Partial]), (0x20, []), (0xFF, [])] := by
  simp only [traceStream, ← List.append_assoc, commandsSent_evCmd, commandsSent_evCmd_evDat]
  simp

/-- The command of step 14. -/
theorem commandsSent_traceSleep (tr : List Event) (p : ParamRecord) :
    commandsSent (tr ++ traceSleep p) = commandsSent tr ++ [(p.opc.deepSleep, p.cal.sleepData)] := by
  unfold traceSleep
  split
  · next h => rw [List.append_nil, commandsSent_evCmd, h]
  · rw [← List.append_assoc, commandsSent_evCmd_evDat]

/-- The commands of steps 11 to 14. -/
theorem commandsSent_streamed (t : State) (a : U32) :
    commandsSent (t.streamed a).tr
      = commandsSent t.tr ++ (0x24, t.fb.readBytes 0 t.params.half)
        :: (0x26, t.fb.readBytes t.params.half t.params.half)
        :: ([(t.params.opc.duc2, [if a = 0 then t.params.cal.duc2Full else t.params.cal.duc2Partial]), (0x20, []), (0xFF, [])]
          ++ if t.dsbu then [(t.params.opc.deepSleep, t.params.cal.sleepData)] else []) := by
  change commandsSent (t.tr ++ traceStream t.params.toParamRecord t.fb a
    ++ (if t.dsbu then traceSleep t.params.toParamRecord else [])) = _
  cases t.dsbu
  · simp [commandsSent_traceStream]
  · rw [if_pos rfl, commandsSent_traceSleep, commandsSent_traceStream]
    simp

/-- No opcode of step 12 or 14 writes a RAM (R101). -/
theorem Params.streamOpcodes_ne (p : Params) :
    p.opc.duc2 ≠ 0x24 ∧ p.opc.duc2 ≠ 0x26 ∧ p.opc.deepSleep ≠ 0x24 ∧ p.opc.deepSleep ≠ 0x26 := by
  have h := p.opcodes_nodup
  rw [Opcodes.all, List.nodup_cons, List.nodup_cons, List.nodup_cons] at h
  obtain ⟨-, h24, h26, -⟩ := h
  refine ⟨fun e => h24 ?_, fun e => h26 ?_, fun e => h24 ?_, fun e => h26 ?_⟩ <;> rw [← e] <;> simp

/-- Settles O46: after the last commands 0x24 and 0x26 come only others. -/
theorem panelRamEqualsTheFramebuffer : Obligations.PanelRamEqualsTheFramebuffer := by
  unfold Obligations.PanelRamEqualsTheFramebuffer
  intro s t hs hexec hstatus
  obtain ⟨t', hexec', hend⟩ := exec_display_end s hs
  obtain rfl := Host.Outcome.next.inj (hexec.symm.trans hexec')
  cases hend with
  | early t site => exact absurd hstatus (t.raiseIdleTimeout_ne_ok site)
  | late u t => exact absurd hstatus (t.raiseIdleTimeout_ne_ok _)
  | done u t hrun hstart hgate =>
    have hfb : t.fb = s.fb := hgate.fb.trans hstart.link.fb
    have hparams : t.params = s.params := hgate.params.trans hstart.link.params
    have hsent := commandsSent_streamed t u.atUpdate
    obtain ⟨hd4, hd6, hs4, hs6⟩ := Params.streamOpcodes_ne s.params
    rw [hfb, hparams] at hsent
    refine ⟨panelRam_of_commandsSent hsent ?_, panelRam_of_commandsSent (hsent.trans (List.append_cons ..)) ?_⟩
    · cases t.dsbu
      · simpa using hd4
      · simpa using And.intro hd4 hs4
    · cases t.dsbu
      · simpa using hd6
      · simpa using And.intro hd6 hs6

end Sys2Proof.Machine

namespace Sys2Proof.Machine

/-! ## DISPLAY with a panel that reads idle (R226) -/

/-- Idle for longer is idle for less. -/
theorem idleFor_le {s : State} {j k : Nat} (h : s.idleFor k) (hjk : j ≤ k) : s.idleFor j := by
  intro hb
  obtain ⟨rest, hin⟩ := h hb
  obtain ⟨i, rfl⟩ := Nat.exists_eq_add_of_le hjk
  exact ⟨List.replicate i (!s.params.busyActiveLevel) ++ rest, by rw [hin, List.replicate_add, List.append_assoc]⟩

/-- After `j` idle samples of `j + k` the panel reads idle for `k` more. -/
theorem idleFor_of_busyLeft {s t : State} (j k : Nat) (h : s.idleFor (j + k)) (hp : t.params = s.params)
    (hb : t.busyIn = s.busyLeft j) : t.idleFor k := by
  intro hasBusy
  rw [hp] at hasBusy
  obtain ⟨rest, hin⟩ := h hasBusy
  exact ⟨rest, by rw [hb, hp, State.busyLeft, if_pos hasBusy, hin, List.replicate_add, List.append_assoc,
    List.drop_left' List.length_replicate]⟩

/-- Steps 2 to 14 for a panel that reads idle (R226). -/
theorem run_refresh (s : State) (h : s.idleFor 2) :
    runList (.display .gateStart :: .display .mode :: (beforeRam ++ fromRam)) s
      = .ended ((s.shown (.display .ret) (s.dsbu && decide (s.params.cal.sleepData ≠ [])) false
          (nextUpdate s.params.n s.atUpdate) false
          (if s.dsbu then .sleeping
            else if s.panelState = .uninitialized ∨ s.panelState = .sleeping then s.panelState else .busy)
          (s.busyLeft 2)
          (traceGate s.params.toParamRecord ++ traceBeforeRam s.params.toParamRecord s.atUpdate
            ++ traceGate s.params.toParamRecord ++ traceStream s.params.toParamRecord s.fb s.atUpdate
            ++ (if s.dsbu then traceSleep s.params.toParamRecord else []))).finish .ok 0) := by
  rw [run_start s _ 1 h, run_beforeRam, run_fromRam _ _ _ _ _ _ _ _ h]
  cases s.dsbu
  · by_cases h0 : s.atUpdate = 0#32 <;> cases s.panelState <;> simp [h0]
  · rfl

/-- Settles O41: the wake, if there is one, and the refresh from what it leaves. -/
theorem displayRunsWhole : Obligations.DisplayRunsWhole := by
  unfold Obligations.DisplayRunsWhole
  intro s hs hidle
  refine (execDisplay_parts s hs).trans ?_
  cases hd : s.dsbu with
  | false =>
    rw [hd] at hidle
    rw [wakeProgram, run_wake_skipped (s.start .display) hd, Flow.bind_go, run_refresh (s.start .display) hidle, Flow.outcome_ended]
    simp [State.shown, State.start, State.finish, Status.code, traceDisplay, State.busyLeft, hd]
  | true =>
    rw [hd] at hidle
    have hwake : (s.start .display).idleFor 2 := idleFor_le (s := s.start .display) hidle (by decide)
    rw [wakeProgram, run_init _ (s.start .display) (initAt_wake _ hd) hwake, Flow.bind_go]
    generalize hv : (s.start .display).via _ _ _ _ _ _ _ _ = v
    have hafter : v.idleFor 2 := by
      rw [← hv]
      exact idleFor_of_busyLeft (s := s.start .display) 2 2 hidle rfl rfl
    have hleft : v.busyLeft 2 = s.busyLeft 4 := by
      rw [← hv]
      exact busyLeft_busyLeft s _ 2 2 rfl rfl
    rw [run_refresh v hafter, hleft, Flow.outcome_ended, ← hv]
    simp [State.via, State.shown, State.start, State.finish, Status.code, traceDisplay, hd]

end Sys2Proof.Machine

namespace Sys2Proof.Machine

/-! ## A panel that stays busy (R153, R154)

As many active samples as the loop can take make it fail, whatever times are read: every exit but an inactive sample fails. -/

/-- BUSY reads active at the next `k` samples. -/
def State.activeFor (s : State) (k : Nat) : Prop :=
  ∃ rest, s.busyIn = List.replicate k s.params.busyActiveLevel ++ rest

/-- `activeFor` speaks of the parameters and the levels still to come. -/
theorem State.activeFor_congr {s t : State} {k : Nat} (h : s.activeFor k) (hp : t.params = s.params)
    (hb : t.busyIn = s.busyIn) : t.activeFor k := by
  rw [State.activeFor, hp, hb]
  exact h

/-- The next sample of such a panel is active, and it is left active for one sample less. -/
theorem busyRead_of_activeFor {s : State} {k : Nat} (h : s.activeFor (k + 1)) :
    s.busyRead.1 = s.params.busyActiveLevel ∧ s.busyRead.2.activeFor k := by
  obtain ⟨rest, hin⟩ := h
  obtain ⟨hsample, hleft⟩ := busyRead_of_busyIn s _ (List.replicate k s.params.busyActiveLevel ++ rest) hin
  obtain ⟨-, -, hparams⟩ := busyRead_eq s
  exact ⟨hsample, rest, by rw [hleft, hparams]⟩

/-- The loop fails if every sample it can take is active. -/
theorem gateLoop_of_activeFor (fuel : Nat) (timeout : U32) {s : State} (h : s.activeFor (fuel + 1)) :
    (gateLoop fuel timeout s).1 = false := by
  induction fuel generalizing s with
  | zero => rw [gateLoop_zero_active timeout s (busyRead_of_activeFor h).1]
  | succ fuel ih =>
    obtain ⟨hsample, hleft⟩ := busyRead_of_activeFor h
    rw [gateLoop_succ_active fuel timeout s hsample]
    split
    · rfl
    · obtain ⟨-, -, hparams⟩ := s.polled_eq _ rfl hsample
      obtain ⟨-, -, hread⟩ := busyRead_eq s
      exact ih (State.activeFor_congr hleft (hparams.trans hread.symm) s.polled_time.2.2)

/-- The gate fails if its first sample and every sample of its loop are active. -/
theorem waitUntilIdle_of_activeFor {s : State} (timeout : U32) (hb : s.params.hasBusy = true)
    (h : s.activeFor (s.gateFuel timeout + 2)) : (s.waitUntilIdle timeout).1 = false := by
  obtain ⟨hsample, hleft⟩ := busyRead_of_activeFor h
  obtain ⟨-, hparams, -, -, hin⟩ := startClock_eq s.busyRead.2
  have hpoll : (s.pollUntilIdle timeout).1 = false := by
    rw [State.pollUntilIdle, if_neg (by simp [hb]), if_neg (not_not.mpr hsample)]
    exact gateLoop_of_activeFor _ timeout (State.activeFor_congr hleft hparams hin)
  simp [State.waitUntilIdle, hpoll]

/-- The panel has a busy line and stays busy for as many samples as a gate can take. -/
def State.stuckBusy (s : State) : Prop :=
  s.params.hasBusy = true ∧ s.activeFor (s.gateFuel s.params.idleTimeoutMs + 2)

/-- `stuckBusy` too speaks of the parameters and the levels alone. -/
theorem State.stuckBusy_congr {s t : State} (h : s.stuckBusy) (hp : t.params = s.params) (hb : t.busyIn = s.busyIn) :
    t.stuckBusy := by
  obtain ⟨hbusy, hactive⟩ := h
  rw [State.stuckBusy, State.gateFuel, hp]
  exact ⟨hbusy, State.activeFor_congr hactive hp hb⟩

/-- A gate at such a panel aborts the operation (R155). -/
theorem gate_of_stuckBusy {s : State} (site : GateSite) (h : s.stuckBusy) :
    ∃ t, s.gate site = .ended (State.raiseIdleTimeout t site) :=
  ⟨_, (gate_of_failed s _ site (Prod.ext (waitUntilIdle_of_activeFor _ h.1 h.2) rfl)).1⟩

/-- `Init` at such a panel aborts the operation at its first gate (R190). -/
theorem run_init_of_stuckBusy (f : InitStep → Seq) {s : State} (hf : InitAt f s) (h : s.stuckBusy) :
    ∃ t, runList (initSteps.map f) s = .ended (State.raiseIdleTimeout t .initHwReset) := by
  obtain ⟨q, hpulse⟩ := run_initPulse f s hf
  have hsplit : initSteps.map f = [InitStep.start, .rstLow, .rstLowWait, .rstHigh, .rstHighWait].map f
      ++ (f .gateHwReset :: [InitStep.swReset, .gateSwReset, .driverOutput, .booster, .vcom, .dummyLine, .gateTime,
        .dataEntry, .ramOption, .finish].map f) := rfl
  rw [hsplit, runList_append, hpulse, Flow.bind_go]
  generalize hv : State.via s q _ _ _ _ _ _ _ = v
  have hparams : v.params = s.params := by rw [← hv]; rfl
  have hdsbu : v.dsbu = s.dsbu := by rw [← hv]; rfl
  have hin : v.busyIn = s.busyIn := by rw [← hv]; rfl
  have hstuck : (v.pointAt (f .gateHwReset)).stuckBusy := State.stuckBusy_congr h hparams hin
  obtain ⟨t, hgate⟩ := gate_of_stuckBusy .initHwReset hstuck
  exact ⟨t, by rw [runList_init_go f s hf .gateHwReset _ v hparams hdsbu rfl, runInit, hgate, Flow.bind_ended]⟩

/-- Settles O35: SETUP ends in `Init`; DISPLAY ends in the wake with DSBU, at step 2 without. -/
theorem stuckBusyEndsInIdleTimeout : Obligations.StuckBusyEndsInIdleTimeout := by
  unfold Obligations.StuckBusyEndsInIdleTimeout
  intro s rest hb hin
  have h : s.stuckBusy := ⟨hb, rest, hin⟩
  refine ⟨waitUntilIdle_of_activeFor _ h.1 h.2, fun hs => ?_, fun hs => ?_⟩
  · obtain ⟨t, hrun⟩ := run_init_of_stuckBusy _ (initAt_setup (s.start .setup).prepared) (State.stuckBusy_congr h rfl rfl)
    refine ⟨t.raiseIdleTimeout .initHwReset, (execSetup_fresh s hs).trans ?_, rfl, rfl⟩
    rw [hrun, Flow.bind_ended, Flow.outcome_ended]
  · cases hd : s.dsbu with
    | true =>
      obtain ⟨t, hrun⟩ := run_init_of_stuckBusy _ (initAt_wake (s.start .display) hd) (State.stuckBusy_congr h rfl rfl)
      refine ⟨t.raiseIdleTimeout .initHwReset, (execDisplay_parts s hs).trans ?_, rfl, rfl⟩
      rw [wakeProgram, hrun, Flow.bind_ended, Flow.outcome_ended]
    | false =>
      obtain ⟨t, hgate⟩ := gate_of_stuckBusy (s := (s.start .display).pointAt (.display .gateStart)) .refreshStart
        (State.stuckBusy_congr h rfl rfl)
      refine ⟨t.raiseIdleTimeout .refreshStart, (execDisplay_parts s hs).trans ?_, rfl, rfl⟩
      rw [wakeProgram, run_wake_skipped (s.start .display) hd, Flow.bind_go, runList_gateStart, hgate, Flow.bind_ended,
        Flow.outcome_ended]

end Sys2Proof.Machine
